-- ==== Sys2Proof/Word.lean ====
section
/-! DEFINITION. The widths of the block: the 32-bit register and bus word, the 8-bit frame byte and
symbol code, and the 24-bit host address (00_scope.md R5 and R8, 20_memory.md R60). -/

namespace Sys2Proof

/-- A register, a bus transfer, a command word, a pulse or gap width, an I or Q word: 32 bits (R5, R22, R65). -/
abbrev Word := BitVec 32

/-- A frame byte, an input byte, a CRC, and a symbol code: 8 bits (R5, R9). -/
abbrev Byte := BitVec 8

/-- A byte address of the host address space: 24 bits (R60). -/
abbrev Addr := BitVec 24

end Sys2Proof
end

