-- ==== Sys2Proof/Config.lean ====
section
/-! DEFINITION. The implementation parameters of 00_scope.md R5 and the values the spec leaves open
(93_implementation_defined.md U1 to U11).

Two kinds stand here. Plain data (capacities, preambles, which pressure reading Variants B and C
take) is the structure `Config`, which `State` carries unchanged, so that one theorem covers every
configuration. A parameter that is a function, and every draw with no law, is an opaque constant with
no body: nothing in Lean can evaluate it. -/

namespace Sys2Proof

/-- Which reading of pressure_raw a variant takes (R193, D22). R5 makes PRAW_B and PRAW_C parameters
whose default is PRAW_A; any other reading is named by a number and left uninterpreted. -/
inductive PrawReading where
  /-- the default of R193: PRAW_A -/
  | prawA
  /-- another reading, `Config.prawOther k` -/
  | other (k : Nat)
deriving DecidableEq, Repr

/-- The plain-data parameters of R5, fixed for one instance of the block. -/
structure Config where
  /-- BB_CAP -/
  bbCap : Nat
  /-- FB_CAP -/
  fbCap : Nat
  /-- SB_CAP -/
  sbCap : Nat
  /-- PB_CAP -/
  pbCap : Nat
  /-- QB_CAP -/
  qbCap : Nat
  /-- PRE_A, the Variant A preamble -/
  preA : BitVec 32
  /-- PRE_B, the Variant B preamble -/
  preB : BitVec 24
  /-- PRE_C, the Variant C preamble -/
  preC : BitVec 16
  /-- SM_C, the Variant C start marker -/
  smC : BitVec 2
  /-- PRAW_B -/
  prawB : PrawReading
  /-- PRAW_C -/
  prawC : PrawReading
deriving DecidableEq, Repr

namespace Config

/-- The capacity constraints of R5. No other parameter of `Config` has one. -/
abbrev Valid (c : Config) : Prop :=
  8 ≤ c.bbCap ∧ c.bbCap ≤ 262144 ∧
  64 ≤ c.fbCap ∧ c.fbCap ≤ 262144 ∧
  1056 ≤ c.sbCap ∧ c.sbCap ≤ 262144 ∧
  528 ≤ c.pbCap ∧ c.pbCap ≤ 131072 ∧
  1 ≤ c.qbCap ∧ c.qbCap ≤ 131072

/-- The hardware's PRE_A: no value is in the source (R5, D25). -/
opaque hwPreA : BitVec 32
/-- The hardware's PRE_B: no value is in the source (R5, D25). -/
opaque hwPreB : BitVec 24
/-- The hardware's PRE_C: no value is in the source (R5, D25). -/
opaque hwPreC : BitVec 16
/-- The hardware's SM_C: no value is in the source (R5, D25). -/
opaque hwSmC : BitVec 2

/-- The reference configuration of R5, with the preambles left open. DESIGN CHOICE, assumption 2: it is
what `State.reset` carries; no statement rests on its capacities. -/
def reference : Config where
  bbCap := 256
  fbCap := 256
  sbCap := 4096
  pbCap := 2048
  qbCap := 131072
  preA := hwPreA
  preB := hwPreB
  preC := hwPreC
  smC := hwSmC
  prawB := .prawA
  prawC := .prawA

/-- PRAW_B and PRAW_C where they are not PRAW_A (R5, R193, D22): `prawOther k num den` is the pressure_raw
that reading k gives for the pressure num/den. It is a function of the value: the two words of zero have
the same numerator and denominator (`f64`). -/
opaque prawOther : Nat → Int → Nat → Int

/-- PAD_PRNG(seed, k), the k-th pad byte for the seed (R5, R213, D26). A total function, so "the same
(SENSOR_ID, L) always gives the same frame". -/
opaque padPrng : Word → Nat → Byte

/-- RC_TAPS, the 101 filter taps (R5, R243, D30). Nothing is assumed of them; see assumption 8. -/
opaque rcTaps : Fin 101 → ℝ

/-- The raw quantiser from which `sampleQ` is made (R5, R244, D31). A complex number z is handed over as
the proposition "is z" of a complex number, which is z and nothing else said of it; see assumption 7. -/
opaque sampleRaw : (ℂ → Prop) → Word × Word

/-- SAMPLE_Q, with the one law R5 gives it: SAMPLE_Q(0) = (0, 0). Every quantiser with that law arises,
by taking it as `sampleRaw`. -/
def sampleQ (z : ℂ → Prop) : Word × Word :=
  ((sampleRaw z).1 - (sampleRaw (fun c => c = 0)).1,
   (sampleRaw z).2 - (sampleRaw (fun c => c = 0)).2)

/-- U1 and U2, a draw with no law: the n-th value that a host read returns where the spec leaves it open
(an unwritten entry, R39, or a read while busy, R307). -/
opaque freeWord : Nat → Word

/-- U3: how many host turns pass between the n-th acceptance and its completion. R306 says the number is
finite and otherwise unspecified. -/
opaque latency : Nat → Nat

end Config
end Sys2Proof
end

