-- ==== Sys2Proof/Syntax.lean ====
section
/-! DEFINITION. The thirteen commands of 30_encoding.md R93, one constructor per row of
spec/opcode_table.json, with the operand fields of R91 and R92. -/

namespace Sys2Proof

/-- POL, the padding policy of ENC_AX (R92, R212): 0 repeat, 1 zero, 2 random, 3 custom. It is closed, so
"an illegal policy" cannot be spelled (R95). -/
inductive PadPolicy where
  | repeatData
  | zero
  | random
  | custom
deriving DecidableEq, Repr

/-- A command (R93). Every other operand comes from a register or a buffer (R92). -/
inductive Instr where
  /-- CRC8: POLY and INIT (format K) -/
  | crc8 (poly init : Byte)
  /-- MAN_ENC (format N) -/
  | manEnc
  /-- MAN_DEC: BE enables DEC_BOUND (format D) -/
  | manDec (be : Bool)
  /-- DMAN_ENC (format N) -/
  | dmanEnc
  /-- DMAN_DEC: BE enables DEC_BOUND (format D) -/
  | dmanDec (be : Bool)
  /-- PCM_ENC (format N) -/
  | pcmEnc
  /-- PCM_DEC (format N) -/
  | pcmDec
  /-- ENC_A: DF and DE select the defaults (format F) -/
  | encA (df de : Bool)
  /-- ENC_B: DF and DE select the defaults (format F) -/
  | encB (df de : Bool)
  /-- ENC_C (format N) -/
  | encC
  /-- ENC_AX: the target byte length L, the padding policy, DF and DE (format X) -/
  | encAx (l : Nat) (pol : PadPolicy) (df de : Bool)
  /-- FIT: PS is the pad symbol (format P) -/
  | fit (ps : Bool)
  /-- FSK_GEN (format N) -/
  | fskGen
deriving DecidableEq, Repr

end Sys2Proof
end

