-- ==== Sys2Proof/WellFormed.lean ====
section
/-! DEFINITION. Which terms of `Instr` a command word can spell. -/

namespace Sys2Proof

/-- The one operand whose field is narrower than its type: "L (8 bits) is the extended frame's target byte
length, 0 to 255" (R92). POLY and INIT are bytes and the other fields are single bits or the closed policy,
so every value of theirs has an encoding (R95). L < 9 is an operand error of ENC_AX, not an ill-formed term. -/
def Instr.wellFormed : Instr → Bool
  | .crc8 _ _ => true
  | .manEnc => true
  | .manDec _ => true
  | .dmanEnc => true
  | .dmanDec _ => true
  | .pcmEnc => true
  | .pcmDec => true
  | .encA _ _ => true
  | .encB _ _ => true
  | .encC => true
  | .encAx l _ _ _ => decide (l ≤ 255)
  | .fit _ => true
  | .fskGen => true

end Sys2Proof
end

