-- ==== Sys2Proof/Decode.lean ====
section
/-! DEFINITION. From a 32-bit command word to a command or a named rejection (30_encoding.md R90 to R96),
and back. -/

namespace Sys2Proof

/-- Why a word is no command (R95). Both are ILLEGAL_COMMAND to the engine (R274). -/
inductive Reject where
  /-- OP = w[7:0] is not in R93 -/
  | unassignedOp
  /-- OP is in R93 and a bit outside the row's operand fields is 1 -/
  | reservedBit
deriving DecidableEq, Repr

/-- The rows of the opcode map, by mnemonic (R93). -/
inductive Opcode where
  | CRC8 | MAN_ENC | MAN_DEC | DMAN_ENC | DMAN_DEC | PCM_ENC | PCM_DEC
  | ENC_A | ENC_B | ENC_C | ENC_AX | FIT | FSK_GEN
deriving DecidableEq, Repr

/-- A row of the opcode map: it selects w when w & mask = pattern (R93, "match"). -/
structure OpcodeRow where
  op : Opcode
  mask : Word
  pattern : Word
deriving DecidableEq, Repr

/-- The opcode map of R93, row by row. -/
def opcodeRows : List OpcodeRow :=
  [⟨.CRC8, 0xFF0000FF, 0x00000001⟩,
   ⟨.MAN_ENC, 0xFFFFFFFF, 0x00000010⟩,
   ⟨.MAN_DEC, 0xFEFFFFFF, 0x00000011⟩,
   ⟨.DMAN_ENC, 0xFFFFFFFF, 0x00000012⟩,
   ⟨.DMAN_DEC, 0xFEFFFFFF, 0x00000013⟩,
   ⟨.PCM_ENC, 0xFFFFFFFF, 0x00000020⟩,
   ⟨.PCM_DEC, 0xFFFFFFFF, 0x00000021⟩,
   ⟨.ENC_A, 0xFCFFFFFF, 0x00000030⟩,
   ⟨.ENC_B, 0xFCFFFFFF, 0x00000031⟩,
   ⟨.ENC_C, 0xFFFFFFFF, 0x00000032⟩,
   ⟨.ENC_AX, 0xFCFC00FF, 0x00000033⟩,
   ⟨.FIT, 0xFEFFFFFF, 0x00000034⟩,
   ⟨.FSK_GEN, 0xFFFFFFFF, 0x00000040⟩]

/-- OP = w[7:0] (R90). -/
def opField (w : Word) : Byte := w.extractLsb' 0 8
/-- FA = w[15:8]: POLY of CRC8, L of ENC_AX (R90, R91). -/
def faField (w : Word) : Byte := w.extractLsb' 8 8
/-- FB = w[23:16]: INIT of CRC8 (R90, R91). -/
def fbField (w : Word) : Byte := w.extractLsb' 16 8
/-- POL = w[17:16] (R91). -/
def polField (w : Word) : BitVec 2 := w.extractLsb' 16 2
/-- FM[0] = w[24]: BE, DF or PS (R91). -/
def fm0 (w : Word) : Bool := w.getLsbD 24
/-- FM[1] = w[25]: DE (R91). -/
def fm1 (w : Word) : Bool := w.getLsbD 25

/-- The policy a POL field names (R92). -/
def policyOf (p : BitVec 2) : PadPolicy :=
  if p = 0 then .repeatData else if p = 1 then .zero else if p = 2 then .random else .custom

/-- The POL field of a policy (R92). -/
def policyCode : PadPolicy → BitVec 2
  | .repeatData => 0
  | .zero => 1
  | .random => 2
  | .custom => 3

/-- The command of a row, its operand fields read as R91 and R92 lay them out. -/
def operandsOf (op : Opcode) (w : Word) : Instr :=
  match op with
  | .CRC8 => .crc8 (faField w) (fbField w)
  | .MAN_ENC => .manEnc
  | .MAN_DEC => .manDec (fm0 w)
  | .DMAN_ENC => .dmanEnc
  | .DMAN_DEC => .dmanDec (fm0 w)
  | .PCM_ENC => .pcmEnc
  | .PCM_DEC => .pcmDec
  | .ENC_A => .encA (fm0 w) (fm1 w)
  | .ENC_B => .encB (fm0 w) (fm1 w)
  | .ENC_C => .encC
  | .ENC_AX => .encAx (faField w).toNat (policyOf (polField w)) (fm0 w) (fm1 w)
  | .FIT => .fit (fm0 w)
  | .FSK_GEN => .fskGen

/-- The row that selects w, if one does (R93, R94). -/
def rowOf (w : Word) : Option OpcodeRow :=
  opcodeRows.find? fun r => w &&& r.mask == r.pattern

/-- Decoding, total on every word (R94): the selected row's command, or the reason there is none (R95). -/
def decode (w : Word) : Except Reject Instr :=
  match rowOf w with
  | some r => .ok (operandsOf r.op w)
  | none =>
    if opcodeRows.any (fun r => opField r.pattern == opField w) then .error .reservedBit
    else .error .unassignedOp

/-- A single modifier bit at its place in the word (R90: FM = w[31:24]). -/
def fmBit (b : Bool) (at' : Nat) : Word := if b then 1#32 <<< at' else 0#32

/-- The command word of a command (R103). An L above 255 has no encoding: see `Instr.wellFormed`. -/
def encode : Instr → Word
  | .crc8 poly init => 0x00000001#32 ||| poly.setWidth 32 <<< 8 ||| init.setWidth 32 <<< 16
  | .manEnc => 0x00000010#32
  | .manDec be => 0x00000011#32 ||| fmBit be 24
  | .dmanEnc => 0x00000012#32
  | .dmanDec be => 0x00000013#32 ||| fmBit be 24
  | .pcmEnc => 0x00000020#32
  | .pcmDec => 0x00000021#32
  | .encA df de => 0x00000030#32 ||| fmBit df 24 ||| fmBit de 25
  | .encB df de => 0x00000031#32 ||| fmBit df 24 ||| fmBit de 25
  | .encC => 0x00000032#32
  | .encAx l pol df de =>
    0x00000033#32 ||| (BitVec.ofNat 8 l).setWidth 32 <<< 8 ||| (policyCode pol).setWidth 32 <<< 16
      ||| fmBit df 24 ||| fmBit de 25
  | .fit ps => 0x00000034#32 ||| fmBit ps 24
  | .fskGen => 0x00000040#32

/-- The command word whose table bits are w, in nbits bits. A command is one 32-bit number written to CMD,
with no byte lanes (R66, R96), so the table's numbering is the word's own. -/
def commandWord (nbits w : Nat) : Word := BitVec.ofNat 32 (w % 2 ^ nbits)

/-- What the decoder reads from the command word whose table bits are w. -/
def decodeTableWord (nbits w : Nat) : Option Instr :=
  match decode (commandWord nbits w) with
  | .ok i => some i
  | .error _ => none

end Sys2Proof
end

