-- ==== Sys2Proof/Machine/State.lean ====
section
/-! DEFINITION. The state of the block (10_state.md R20 to R42) and of its one host (R2, R102), the reasons
a step can stop, and the state after reset (70_reset_and_hazards.md R300 to R302). -/

namespace Sys2Proof.Machine

/-- ECODE, the error codes of R271. Codes 7 to 15 are reserved and never produced. -/
inductive ErrCode where
  | none
  | invalidSymbol
  | frameTooShort
  | illegalCommand
  | capacity
  | invalidNumeric
  | emptyPadList
deriving DecidableEq, Repr

/-- The stored fields of STATUS (R24). BUSY is not stored: it is 1 exactly while ENG = BUSY(w) (R40). -/
structure Status where
  /-- DONE [1] -/
  done : Bool
  /-- DESYNC [2] -/
  desync : Bool
  /-- ERR [3] -/
  err : Bool
  /-- OVR [4], sticky -/
  ovr : Bool
  /-- ECODE [11:8] -/
  ecode : ErrCode
deriving DecidableEq, Repr

/-- ENG, the engine phase with the latched command word (R40). CMD has no other storage (R23). -/
inductive Engine where
  | idle
  | busy (w : Word)
deriving DecidableEq, Repr

/-- A buffer's entries, by index, in rising index order. An entry is listed exactly when its written mark is
set (R39): an unlisted entry holds no value. -/
abbrev Store (width : Nat) := List (Nat × BitVec width)

/-- BUFS, the five buffers (R34 to R38). PB and QB are held by halves, each with its own written mark
(R39, R65): half 2i is PB[i].pulse or QB[i].I, half 2i + 1 is PB[i].gap or QB[i].Q. -/
structure Memory where
  /-- BB, the byte input buffer (R34) -/
  bb : Store 8
  /-- SB, the symbol buffer (R36) -/
  sb : Store 8
  /-- PB, the pulse buffer, by halves (R37) -/
  pb : Store 32
  /-- FB, the frame output buffer (R35) -/
  fb : Store 8
  /-- QB, the IQ output buffer, by halves (R38) -/
  qb : Store 32
deriving DecidableEq, Repr

/-- The five buffers by name. -/
inductive Buffer where
  | bb | sb | pb | fb | qb
deriving DecidableEq, Repr

/-- The content of a valid CACHE: CP and CT (R41). -/
structure CrcCache where
  poly : Byte
  table : List Byte
deriving DecidableEq, Repr

/-- What the host can do to the block (R102, R104, R300). A bus access names its size so that a wrong size
can be spelled (R62). -/
inductive HostOp where
  /-- MemRead(addr, size) -/
  | read (addr : Addr) (size : Nat)
  /-- MemWrite(addr, size, value) -/
  | write (addr : Addr) (size : Nat) (value : Word)
  /-- WAIT: read STATUS until bit 0 is 0 (R104) -/
  | wait
  /-- the reset line (R300) -/
  | reset
deriving DecidableEq, Repr

/-- The whole machine. The registers are those of R22 in its order, less CMD (its word is ENG's latch) and
STATUS (its fields are `status` and `eng`). -/
structure State where
  /-- the plain-data parameters of R5, never changed (not the spec's state, R20; assumption 2) -/
  cfg : Config
  /-- STATUS 0x04, but for BUSY -/
  status : Status
  /-- RESULT 0x08 -/
  result : Word
  /-- BB_LEN 0x0C -/
  bbLen : Word
  /-- SB_LEN 0x10 -/
  sbLen : Word
  /-- PB_LEN 0x14 -/
  pbLen : Word
  /-- FB_LEN 0x18 -/
  fbLen : Word
  /-- QB_LEN 0x1C -/
  qbLen : Word
  /-- DEC_OFF 0x20 -/
  decOff : Word
  /-- DEC_BOUND 0x24 -/
  decBound : Word
  /-- FIT_LEN 0x28 -/
  fitLen : Word
  /-- SENSOR_ID 0x2C -/
  sensorId : Word
  /-- PRESS_LO 0x30 -/
  pressLo : Word
  /-- PRESS_HI 0x34 -/
  pressHi : Word
  /-- TEMP 0x38 -/
  temp : Word
  /-- FLAGS 0x3C: bits [7:0], the rest reserved -/
  flags : BitVec 8
  /-- EXTRA 0x40: bits [15:0], the rest reserved -/
  extra : BitVec 16
  /-- MARK_HZ 0x44 -/
  markHz : Word
  /-- SPACE_HZ 0x48 -/
  spaceHz : Word
  /-- FS_HZ 0x4C -/
  fsHz : Word
  /-- SYM_US 0x50 -/
  symUs : Word
  /-- PAD_US 0x54 -/
  padUs : Word
  /-- BUFS (R34 to R39) -/
  mem : Memory
  /-- ENG, and CMD's latch (R23, R40) -/
  eng : Engine
  /-- CACHE: none is CV = 0 (R41) -/
  cache : Option CrcCache
  /-- the host operations still to come, first to be performed first (R102; an input, assumption 4) -/
  host : List HostOp
  /-- the values the host's reads have returned, oldest first (R314) -/
  reads : List Word
  /-- the model's own: host turns that still pass before the engine completes (R306; assumption 5) -/
  lag : Nat
  /-- the model's own: how many free values have been drawn (assumption 3) -/
  draws : Nat
deriving DecidableEq, Repr

/-- Why the machine stops. -/
inductive Fault where
  /-- A host access got a bus error (R62, R283, U5: "a fault of that host access"). Raised by `memRead` and
  `memWrite`. Safe: the block itself goes on unchanged; the model says nothing after it. -/
  | busError (addr : Addr) (size : Nat)
  /-- UNINIT: a command needs the unwritten entry (half, for PB) i of buffer b (R39, R284, U1, D36). Raised by
  the commands that read a buffer. Safe: the hardware computes on unspecified data. -/
  | uninit (b : Buffer) (i : Nat)
deriving DecidableEq, Repr

/-- Why a step has no meaning. -/
inductive Refusal where
  /-- An instruction with no meaning in the model. No arm of `exec` raises it. Safe. -/
  | notModelled (mnemonic : String)
deriving DecidableEq, Repr

/-- The state after reset of a block with configuration c: every register 0 (R301), ENG idle, CACHE invalid
and every written mark clear (R302). The host's side and the model's own counters start empty. -/
def State.resetWith (c : Config) : State where
  cfg := c
  status := { done := false, desync := false, err := false, ovr := false, ecode := .none }
  result := 0
  bbLen := 0
  sbLen := 0
  pbLen := 0
  fbLen := 0
  qbLen := 0
  decOff := 0
  decBound := 0
  fitLen := 0
  sensorId := 0
  pressLo := 0
  pressHi := 0
  temp := 0
  flags := 0
  extra := 0
  markHz := 0
  spaceHz := 0
  fsHz := 0
  symUs := 0
  padUs := 0
  mem := { bb := [], sb := [], pb := [], fb := [], qb := [] }
  eng := .idle
  cache := none
  host := []
  reads := []
  lag := 0
  draws := 0

/-- The machine right after reset (R301, R302), in the reference configuration of R5. -/
def State.reset : State := State.resetWith Config.reference

end Sys2Proof.Machine
end

