-- ==== Sys2Proof/Machine/Flags.lean ====
section
/-! DEFINITION. STATUS: its bits (10_state.md R24) and the only three things that write them, acceptance,
completion with and without error, and a write while busy (R32, R305, R307). -/

namespace Sys2Proof.Machine

/-- code(E), the ECODE of an error (R271). -/
def ErrCode.code : ErrCode → BitVec 4
  | .none => 0
  | .invalidSymbol => 1
  | .frameTooShort => 2
  | .illegalCommand => 3
  | .capacity => 4
  | .invalidNumeric => 5
  | .emptyPadList => 6

/-- ENG = BUSY(_), which is STATUS.BUSY (R24, R40). -/
def Engine.isBusy : Engine → Bool
  | .idle => false
  | .busy _ => true

/-- A status bit at its place in the word. -/
def statusBit (b : Bool) (at' : Nat) : Word := if b then 1#32 <<< at' else 0#32

/-- The STATUS word (R22, R24): [0] BUSY, [1] DONE, [2] DESYNC, [3] ERR, [4] OVR, [11:8] ECODE, the rest 0. -/
def statusWord (busy : Bool) (f : Status) : Word :=
  statusBit busy 0 ||| statusBit f.done 1 ||| statusBit f.desync 2 ||| statusBit f.err 3
    ||| statusBit f.ovr 4 ||| f.ecode.code.setWidth 32 <<< 8

/-- Acceptance clears DONE, ERR, ECODE and DESYNC and leaves OVR (R24, R305). -/
def Status.accepted (f : Status) : Status :=
  { done := false, desync := false, err := false, ovr := f.ovr, ecode := .none }

/-- Completion without error: DONE 1, ERR 0, ECODE 0, DESYNC the desync outcome (R24, R305). -/
def Status.succeeded (desync : Bool) (f : Status) : Status :=
  { done := true, desync := desync, err := false, ovr := f.ovr, ecode := .none }

/-- Completion with error e: DONE 1, ERR 1, ECODE code(e), DESYNC 0 (R24, R272). -/
def Status.failed (e : ErrCode) (f : Status) : Status :=
  { done := true, desync := false, err := true, ovr := f.ovr, ecode := e }

/-- A write while busy that gets no bus error sets OVR (R24, R307). -/
def Status.overrun (f : Status) : Status := { f with ovr := true }

end Sys2Proof.Machine
end

