-- ==== Sys2Proof/Machine/Ops.lean ====
section
/-! DEFINITION. The named operations every command is written with: the buffer stores (10_state.md R39),
how a command starts, ends and fails (70_reset_and_hazards.md R305, 60_exceptions.md R270 to R273), and the
CRC cache (10_state.md R41). -/

namespace Sys2Proof.Machine

/-! ## Buffer stores -/

/-- Entry k, or none where its written mark is clear (R39). -/
def Store.get {width : Nat} (k : Nat) : Store width → Option (BitVec width)
  | [] => none
  | (j, x) :: m => if j = k then some x else Store.get k m

/-- Store v in entry k and set its written mark (R61). -/
def Store.set {width : Nat} (k : Nat) (v : BitVec width) : Store width → Store width
  | [] => [(k, v)]
  | (j, x) :: m =>
    if k < j then (k, v) :: (j, x) :: m
    else if k = j then (k, v) :: m
    else (j, x) :: Store.set k v m

/-- The values xs as the entries from index i on. -/
def Store.listed {width : Nat} (i : Nat) : List (BitVec width) → Store width
  | [] => []
  | x :: xs => (i, x) :: Store.listed (i + 1) xs

/-- A command's output: "for k in 0..n-1: BUF[k] <- o[k]". Entries at or beyond n keep their values (R190). -/
def Store.blit {width : Nat} (xs : List (BitVec width)) (m : Store width) : Store width :=
  Store.listed 0 xs ++ m.filter (fun c => decide (xs.length ≤ c.1))

/-- BUF[i..i+n), each entry with its written mark: entry i + k is `Store.get (i + k)` (lemma `Store.window_eq`).
It takes an entry from the head of the list where it stands there, so that a whole buffer is read in one pass. -/
def Store.window {width : Nat} (m : Store width) (i n : Nat) : List (Option (BitVec width)) :=
  match n with
  | 0 => []
  | n + 1 =>
    match m with
    | [] => none :: Store.window [] (i + 1) n
    | (j, x) :: rest =>
      if j = i then some x :: Store.window rest (i + 1) n
      else Store.get i ((j, x) :: rest) :: Store.window ((j, x) :: rest) (i + 1) n

/-- The canonical form of a store: indices strictly rising. An unlisted entry holds no value, so no listed
entry can equal what an unlisted one reads as. -/
abbrev Store.wf {width : Nat} (m : Store width) : Prop := m.Pairwise (fun a b => a.1 < b.1)

/-- Every listed entry lies below the limit. -/
abbrev Store.below {width : Nat} (limit : Nat) (m : Store width) : Prop := ∀ c ∈ m, c.1 < limit

/-- The canonical form of the five buffers. -/
abbrev Memory.wf (m : Memory) : Prop :=
  Store.wf m.bb ∧ Store.wf m.sb ∧ Store.wf m.pb ∧ Store.wf m.fb ∧ Store.wf m.qb

/-- No entry beyond a capacity (R34 to R38): PB and QB have two halves an entry. -/
abbrev Memory.within (c : Config) (m : Memory) : Prop :=
  Store.below c.bbCap m.bb ∧ Store.below c.sbCap m.sb ∧ Store.below (2 * c.pbCap) m.pb ∧
  Store.below c.fbCap m.fb ∧ Store.below (2 * c.qbCap) m.qb

/-! ## How a command runs -/

/-- What ends a command early: an error of R271, or a model fault (R284). -/
inductive Stop where
  | error (e : ErrCode)
  | fault (f : Fault)
deriving DecidableEq, Repr

/-- What a command that ends without error leaves: the state with its outputs written, and its desync
outcome (R24, R33). -/
structure Commit where
  out : State
  desync : Bool
deriving DecidableEq, Repr

/-- `raise E`: the command ends with error e (R10, R272). -/
def raise {α : Type} (e : ErrCode) : Except Stop α := .error (.error e)

/-- The model fault UNINIT (R284). -/
def uninit {α : Type} (b : Buffer) (i : Nat) : Except Stop α := .error (.fault (.uninit b i))

/-- `if not ok: raise E`. -/
def check (ok : Bool) (e : ErrCode) : Except Stop Unit := if ok then .ok () else raise e

/-- Every entry of a window of buffer b that starts at index i, or UNINIT at the first unwritten one (R39). -/
def needAll {width : Nat} (b : Buffer) : Nat → List (Option (BitVec width)) → Except Stop (List (BitVec width))
  | _, [] => .ok []
  | i, none :: _ => uninit b i
  | i, some x :: rest =>
    match needAll b (i + 1) rest with
    | .ok xs => .ok (x :: xs)
    | .error e => .error e

/-- `finish`: completion without error (R10, R305): outputs already in s, ENG idle. -/
def State.finish (desync : Bool) (s : State) : State :=
  { s with eng := .idle, status := s.status.succeeded desync }

/-- TAKING AN ERROR, the block's only exception (R270, R272, R273): every output is discarded, so s is the
state at acceptance; BUSY 0, DONE 1, ERR 1, ECODE code(e), DESYNC 0, ENG idle. It saves no other state and
goes to no handler (R287); there is nothing to return from (R288). -/
def State.fail (e : ErrCode) (s : State) : State :=
  { s with eng := .idle, status := s.status.failed e }

/-- Completion of the command that ran from s (R305): its outputs, all at once, or none of them (R33). -/
def conclude (s : State) : Except Stop Commit → Host.Outcome State Fault Refusal
  | .ok c => .next (c.out.finish c.desync)
  | .error (.error e) => .next (s.fail e)
  | .error (.fault f) => .fault f

/-- accept(w) with the latency given: ENG BUSY(w), and the flags of acceptance (R305). -/
def State.latch (w : Word) (lag : Nat) (s : State) : State :=
  { s with eng := .busy w, lag := lag, status := s.status.accepted }

/-- accept(w), its latency drawn (R305, R306). -/
def State.accept (w : Word) (s : State) : State :=
  { s.latch w (Config.latency s.draws) with draws := s.draws + 1 }

/-- The reset event: it may arrive in any state and abandons a command under way (R300 to R302). What is
outside the block stays: its configuration, the host's program and the host's record. -/
def State.powerOn (s : State) : State :=
  { State.resetWith s.cfg with host := s.host, reads := s.reads, draws := s.draws }

/-! ## Outputs -/

/-- "for k: FB[k] <- F[k]; FB_LEN <- len(F); for k: SB[k] <- S[k]; SB_LEN <- len(S)" (R190). -/
def State.putFrame (frame stream : List Byte) (s : State) : State :=
  { s with
    mem := { s.mem with fb := Store.blit frame s.mem.fb, sb := Store.blit stream s.mem.sb }
    fbLen := BitVec.ofNat 32 frame.length
    sbLen := BitVec.ofNat 32 stream.length }

/-- "for k: SB[k] <- o[k]; SB_LEN <- len(o)". -/
def State.putSymbols (o : List Byte) (s : State) : State :=
  { s with
    mem := { s.mem with sb := Store.blit o s.mem.sb }
    sbLen := BitVec.ofNat 32 o.length }

/-- A list of pairs as the halves of PB or QB entries (R65). -/
def halves (ps : List (Word × Word)) : List Word := ps.flatMap fun p => [p.1, p.2]

/-- "for k: PB[k].pulse <- p; PB[k].gap <- g; PB_LEN <- len(P)" (R171). -/
def State.putPulses (ps : List (Word × Word)) (s : State) : State :=
  { s with
    mem := { s.mem with pb := Store.blit (halves ps) s.mem.pb }
    pbLen := BitVec.ofNat 32 ps.length }

/-- "for i: (QB[i].I, QB[i].Q) <- z[i]; QB_LEN <- len(z)" (R245). -/
def State.putSamples (zs : List (Word × Word)) (s : State) : State :=
  { s with
    mem := { s.mem with qb := Store.blit (halves zs) s.mem.qb }
    qbLen := BitVec.ofNat 32 zs.length }

end Sys2Proof.Machine
end

