-- ==== Sys2Proof/Machine/Operands.lean ====
section
/-! DEFINITION. The operand forms and the number formats commands share: integers and rounding
(00_scope.md R6 to R12), symbols and bits (R9), the length registers (10_state.md R26), and the
sensor-reading inputs (10_state.md R29, 43_frame_builder.md R191 to R193). -/

namespace Sys2Proof.Machine

/-! ## Numbers -/

/-- u8(v) = v mod 256 (R7). -/
def u8 (v : Int) : Byte := BitVec.ofInt 8 v

/-- a >> k on the integers, floor(a / 2^k) (R7). -/
def asr (a : Int) (k : Nat) : Int := a / (2 ^ k : Int)

/-- sext_32(w), w read as two's complement (R8). -/
def sext32 (w : Word) : Int := w.toInt

/-- zext_32(v) (R8). -/
def zext32 (v : Byte) : Word := v.setWidth 32

/-- rhe(num / den) for den > 0: the nearest integer, a tie to the even one (R11). -/
def rhe (num : Int) (den : Nat) : Int :=
  let q := num / (den : Int)
  let r := num % (den : Int)
  if 2 * r < den then q
  else if 2 * r > den then q + 1
  else if q % 2 = 0 then q else q + 1

/-- An exact rational, num / den with den > 0. -/
structure Ratio where
  num : Int
  den : Nat
deriving DecidableEq, Repr

/-- w is a finite binary64 word: w[62:52] ≠ 0x7FF (R12). -/
def f64Finite (w : BitVec 64) : Bool := w.extractLsb' 52 11 != 0x7FF

/-- f64(w) for a finite w, as an exact rational (R12): sign w[63], biased exponent w[62:52], fraction w[51:0]. -/
def f64 (w : BitVec 64) : Ratio :=
  let e := (w.extractLsb' 52 11).toNat
  let f := (w.extractLsb' 0 52).toNat
  let m := if e = 0 then f else 2 ^ 52 + f
  let mag : Nat × Nat :=
    if e = 0 then (m, 2 ^ 1074) else if 1075 ≤ e then (m * 2 ^ (e - 1075), 1) else (m, 2 ^ (1075 - e))
  { num := if w.getLsbD 63 then -(mag.1 : Int) else mag.1, den := mag.2 }

/-! ## Bits and symbols -/

/-- bitsMSB_k(w) = [w[k-1], ..., w[0]] (R6). -/
def bitsMSB {k : Nat} (w : BitVec k) : List Bool := (List.range k).map fun i => w.getMsbD i

/-- ser(B), the bytes in index order, each MSB first (R6, R68). -/
def ser (bytes : List Byte) : List Bool := bytes.flatMap bitsMSB

/-- The symbol code of a bit: 0x00 or 0x01 (R9). -/
def symbolOf (b : Bool) : Byte := if b then 0x01 else 0x00

/-- The symbol codes of a bit sequence. -/
def symbolsOf (bs : List Bool) : List Byte := bs.map symbolOf

/-- The bit of a symbol code, none where the code is non-binary (R9). -/
def bitOf (x : Byte) : Option Bool := if x = 0x00 then some false else if x = 0x01 then some true else none

/-- The bits of a symbol sequence, or INVALID_SYMBOL where one is non-binary (R275). -/
def bitsOf : List Byte → Except Stop (List Bool)
  | [] => .ok []
  | x :: xs =>
    match bitOf x with
    | none => raise .invalidSymbol
    | some b =>
      match bitsOf xs with
      | .ok bs => .ok (b :: bs)
      | .error e => .error e

/-! ## Lengths and buffers -/

/-- A length a command reads, or CAPACITY where it exceeds the buffer (R26, R276). -/
def lengthIn (len : Word) (cap : Nat) : Except Stop Nat :=
  if cap < len.toNat then raise .capacity else .ok len.toNat

/-- CAPACITY where an output would exceed the buffer (R276). -/
def roomFor (n cap : Nat) : Except Stop Unit := check (decide (n ≤ cap)) .capacity

/-- SB[0..SB_LEN) with its written marks, or CAPACITY. -/
def symbolWindow (s : State) : Except Stop (List (Option Byte)) := do
  let n ← lengthIn s.sbLen s.cfg.sbCap
  return Store.window s.mem.sb 0 n

/-- SB[0..SB_LEN) as bits: CAPACITY, then UNINIT, then INVALID_SYMBOL (R141, R145, R171). -/
def symbolInput (s : State) : Except Stop (List Bool) := do
  let win ← symbolWindow s
  let xs ← needAll .sb 0 win
  bitsOf xs

/-- Consecutive halves as pairs (R65). -/
def pairsOf : List Word → List (Word × Word)
  | a :: b :: rest => (a, b) :: pairsOf rest
  | _ => []

/-- PB[0..m), each pair's two halves (R37), or UNINIT. -/
def pulsePairs (s : State) (m : Nat) : Except Stop (List (Nat × Nat)) := do
  let hs ← needAll .pb 0 (Store.window s.mem.pb 0 (2 * m))
  return (pairsOf hs).map fun p => (p.1.toNat, p.2.toNat)

/-- The symbols a pair list spans: Σ (pulse + gap), exact (R172, R242). -/
def totalWidth (ps : List (Nat × Nat)) : Nat := (ps.map fun p => p.1 + p.2).sum

/-! ## The sensor reading -/

/-- PRESS_HI ++ PRESS_LO (R29, R66). -/
def pressureWord (s : State) : BitVec 64 := s.pressHi ++ s.pressLo

/-- P, or INVALID_NUMERIC where it is not finite (R191, R280). -/
def pressure (s : State) : Except Stop Ratio := do
  check (f64Finite (pressureWord s)) .invalidNumeric
  return f64 (pressureWord s)

/-- PRAW_A(P) = rhe(4·P / 3) (R193). -/
def prawA (p : Ratio) : Int := rhe (4 * p.num) (3 * p.den)

/-- PRAW_B and PRAW_C: PRAW_A by default, or another reading (R5, R193). -/
def praw (r : PrawReading) (p : Ratio) : Int :=
  match r with
  | .prawA => prawA p
  | .other k => Config.prawOther k p.num p.den

/-- The flag byte: the variant's default where DF = 1, else FLAGS[7:0] (R192). -/
def flagByte (df : Bool) (default' : Byte) (s : State) : Byte := if df then default' else s.flags

/-- Variant A's extra field: 48153 where DE = 1, else EXTRA[15:0] (R192). -/
def extraField (de : Bool) (s : State) : BitVec 16 := if de then 48153 else s.extra

/-- Variant B's "unknown" byte: 1 where DE = 1, else EXTRA[7:0] (R192). -/
def unknownByte (de : Bool) (s : State) : Byte := if de then 1 else s.extra.extractLsb' 0 8

/-- The decode bound: DEC_BOUND where BE = 1, else none (R27, R143). -/
def decodeBound (be : Bool) (s : State) : Option Nat := if be then some s.decBound.toNat else none

end Sys2Proof.Machine
end

