-- ==== Sys2Proof/Machine/Crc.lean ====
section
/-! DEFINITION. The CRC8 engine (40_crc8.md R120 to R123) and its cache (10_state.md R41). -/

namespace Sys2Proof.Machine

/-- One of the eight table steps: "if the top bit is set, shift left and XOR with the polynomial, else shift
left only", masked to 8 bits (R120). -/
def crcShift (p c : Byte) : Byte := if c.getLsbD 7 then (c <<< 1) ^^^ p else c <<< 1

/-- T_p[i] (R120). -/
def crcEntry (p i : Byte) : Byte := (crcShift p)^[8] i

/-- T_p, 256 entries (R120). -/
def crcTable (p : Byte) : List Byte := (List.range 256).map fun i => crcEntry p (BitVec.ofNat 8 i)

/-- crc8(B, p, s), the fold from index 0 (R121). -/
def crc8 (bytes : List Byte) (p seed : Byte) : Byte := bytes.foldl (fun c b => crcEntry p (c ^^^ b)) seed

/-- Computing a CRC with polynomial p fills the cache where it is invalid or holds another polynomial (R41). -/
def fillCache (p : Byte) (c : Option CrcCache) : Option CrcCache :=
  match c with
  | some t => if t.poly = p then some t else some { poly := p, table := crcTable p }
  | none => some { poly := p, table := crcTable p }

/-- The state after a CRC with polynomial p has been computed (R41). -/
def State.usedCrc (p : Byte) (s : State) : State := { s with cache := fillCache p s.cache }

/-- CRC8 up to its completion (R122). -/
def runCrc8 (poly init : Byte) (s : State) : Except Stop Commit := do
  let n ← lengthIn s.bbLen s.cfg.bbCap
  let bytes ← needAll .bb 0 (Store.window s.mem.bb 0 n)
  return { out := { s.usedCrc poly with result := zext32 (crc8 bytes poly init) }, desync := false }

/-- CRC8 computes the CRC-8 of BB[0..BB_LEN) (R122). -/
def execCrc8 (poly init : Byte) (s : State) : Host.Outcome State Fault Refusal := conclude s (runCrc8 poly init s)

end Sys2Proof.Machine
end

