-- ==== Sys2Proof/Machine/LineCoder.lean ====
section
/-! DEFINITION. Manchester and Differential Manchester (41_line_coder.md R140 to R148). -/

namespace Sys2Proof.Machine

/-! ## Manchester -/

/-- man(s): 0 becomes [1, 0] and 1 becomes [0, 1] (R140). -/
def man (s : List Bool) : List Bool := s.flatMap fun b => [!b, b]

/-- MAN_ENC up to its completion (R141). -/
def runManEnc (s : State) : Except Stop Commit := do
  let bits ← symbolInput s
  roomFor (2 * bits.length) s.cfg.sbCap
  return { out := s.putSymbols (symbolsOf (man bits)), desync := false }

/-- MAN_ENC Manchester-encodes SB in place (R141). -/
def execManEnc (s : State) : Host.Outcome State Fault Refusal := conclude s (runManEnc s)

/-- What a decoder returns: (out, q, desync) (R142, R146). -/
structure Decoded where
  out : List Bool
  reached : Nat
  desync : Bool
deriving DecidableEq, Repr

/-- The pair at q as bits: UNINIT where an entry is unwritten, then INVALID_SYMBOL (R142, R146). -/
def pairBits (q : Nat) (a b : Option Byte) : Except Stop (Bool × Bool) := do
  let x ← needAll .sb q [a, b]
  match ← bitsOf x with
  | [u, v] => return (u, v)
  | _ => raise .invalidSymbol

/-- The bound after one more output bit. -/
def boundAfter (bound : Option Nat) : Option Nat := bound.map (· - 1)

/-- The loop of mdec (R142): q is the offset of the list's head, and `bound` is how many output bits may still
be attempted. Entries beyond the exit point are not examined. -/
def mdecLoop (bound : Option Nat) (q : Nat) : List (Option Byte) → Except Stop Decoded
  | a :: b :: rest =>
    if bound = some 0 then .ok ⟨[], q, false⟩
    else
      match pairBits q a b with
      | .error e => .error e
      | .ok (u, v) =>
        if u = v then .ok ⟨[], q, true⟩
        else
          match mdecLoop (boundAfter bound) (q + 2) rest with
          | .error e => .error e
          | .ok d => .ok { d with out := v :: d.out }
  | _ => .ok ⟨[], q, false⟩

/-- mdec(s, o, bound) (R142). -/
def mdec (s : List (Option Byte)) (o : Nat) (bound : Option Nat) : Except Stop Decoded :=
  mdecLoop bound o (s.drop o)

/-- A decoder's outputs: SB, SB_LEN, RESULT and DESYNC (R143, R147). -/
def decodedCommit (s : State) (d : Decoded) : Commit :=
  { out := { s.putSymbols (symbolsOf d.out) with result := BitVec.ofNat 32 d.reached }, desync := d.desync }

/-- MAN_DEC up to its completion (R143). -/
def runManDec (be : Bool) (s : State) : Except Stop Commit := do
  let win ← symbolWindow s
  let d ← mdec win s.decOff.toNat (decodeBound be s)
  return decodedCommit s d

/-- MAN_DEC Manchester-decodes SB from DEC_OFF (R143). -/
def execManDec (be : Bool) (s : State) : Host.Outcome State Fault Refusal := conclude s (runManDec be s)

/-! ## Differential Manchester -/

/-- The loop of dmenc from level l (R144): bit 1 keeps the level at the symbol boundary, bit 0 inverts it, and
every symbol has its mid-symbol transition. -/
def dmencFrom (l : Bool) : List Bool → List Bool
  | [] => []
  | b :: bs =>
    let f := if b then l else !l
    f :: (!f) :: dmencFrom (!f) bs

/-- dmenc(s): "`last_level` starts at 1" (R144). -/
def dmenc (s : List Bool) : List Bool := dmencFrom true s

/-- DMAN_ENC up to its completion (R145). -/
def runDmanEnc (s : State) : Except Stop Commit := do
  let bits ← symbolInput s
  roomFor (2 * bits.length) s.cfg.sbCap
  return { out := s.putSymbols (symbolsOf (dmenc bits)), desync := false }

/-- DMAN_ENC Differential-Manchester-encodes SB in place (R145). -/
def execDmanEnc (s : State) : Host.Outcome State Fault Refusal := conclude s (runDmanEnc s)

/-- Where the phase search of dmdec stops (R146). -/
inductive Phase where
  /-- at offset q, where the list `rest` begins with an unequal pair -/
  | found (q : Nat) (rest : List (Option Byte))
  /-- at offset q, with fewer than 2 symbols left -/
  | lost (q : Nat)
deriving DecidableEq, Repr

/-- "establishes phase by locating the first valid transition", one symbol at a time from offset q (R146). -/
def dmPhase (q : Nat) : List (Option Byte) → Except Stop Phase
  | [] => .ok (.lost q)
  | a :: rest =>
    match rest with
    | [] => .ok (.lost q)
    | b :: _ =>
      match pairBits q a b with
      | .error e => .error e
      | .ok (u, v) => if u = v then dmPhase (q + 1) rest else .ok (.found q (a :: rest))

/-- The second loop of dmdec (R146): f is the first half of the previous symbol. -/
def dmdecLoop (f : Bool) (bound : Option Nat) (q : Nat) : List (Option Byte) → Except Stop Decoded
  | a :: b :: rest =>
    if bound = some 0 then .ok ⟨[], q, false⟩
    else
      match pairBits q a b with
      | .error e => .error e
      | .ok (u, v) =>
        if u = v then .ok ⟨[], q, true⟩
        else
          match dmdecLoop u (boundAfter bound) (q + 2) rest with
          | .error e => .error e
          | .ok d => .ok { d with out := (u != f) :: d.out }
  | _ => .ok ⟨[], q, false⟩

/-- dmdec(s, o, bound) (R146): with no transition found, desync is 1 when at least 2 symbols followed o; the
virtual first half before the first symbol is 0 wherever the search stopped. -/
def dmdec (s : List (Option Byte)) (o : Nat) (bound : Option Nat) : Except Stop Decoded := do
  match ← dmPhase o (s.drop o) with
  | .lost q => return ⟨[], q, decide (o + 2 ≤ s.length)⟩
  | .found q rest => dmdecLoop false bound q rest

/-- DMAN_DEC up to its completion (R147). -/
def runDmanDec (be : Bool) (s : State) : Except Stop Commit := do
  let win ← symbolWindow s
  let d ← dmdec win s.decOff.toNat (decodeBound be s)
  return decodedCommit s d

/-- DMAN_DEC Differential-Manchester-decodes SB from DEC_OFF (R147). -/
def execDmanDec (be : Bool) (s : State) : Host.Outcome State Fault Refusal := conclude s (runDmanDec be s)

end Sys2Proof.Machine
end

