-- ==== Sys2Proof/Machine/Frame.lean ====
section
/-! DEFINITION. The frame builder: Variants A, B and C, the extended Variant A, and fitting
(43_frame_builder.md R190 to R219). -/

namespace Sys2Proof.Machine

/-- not(s), the bit-invert (R9). -/
def invert (s : List Bool) : List Bool := s.map fun b => !b

/-- manA(F) = not(man(ser(F))) (R194). -/
def manA (frame : List Byte) : List Bool := invert (man (ser frame))

/-- dmC(F) = dmenc(ser(F)) (R194). -/
def dmC (frame : List Byte) : List Bool := dmenc (ser frame)

/-- A 32-bit sensor_id big-endian: [31:24], [23:16], [15:8], [7:0] (R201, R207). -/
def idBigEndian (sid : Word) : List Byte :=
  [sid.extractLsb' 24 8, sid.extractLsb' 16 8, sid.extractLsb' 8 8, sid.extractLsb' 0 8]

/-! ## Variant A -/

/-- The eight Variant A data bytes (R195). -/
def dataA (praw : Int) (fl : Byte) (ex : BitVec 16) (s : State) : List Byte :=
  [(fl <<< 2) ||| (u8 (asr praw 8) &&& 3), u8 praw, u8 (sext32 s.temp + 30),
   s.sensorId.extractLsb' 0 8, s.sensorId.extractLsb' 8 8, s.sensorId.extractLsb' 16 8,
   ex.extractLsb' 0 8, ex.extractLsb' 8 8]

/-- A body with its Variant A checksum, CRC8 with polynomial 0x07 and init 0x00 (R196, R214). -/
def sealA (body : List Byte) : List Byte := body ++ [crc8 body 0x07 0x00]

/-- The Variant A stream of a frame (R197, R215). -/
def streamA (c : Config) (frame : List Byte) : List Bool := bitsMSB c.preA ++ manA frame

/-- A frame command's outputs: the frame in FB and the stream in SB (R190). -/
def frameCommit (s : State) (frame : List Byte) (stream : List Bool) : Commit :=
  { out := s.putFrame frame (symbolsOf stream), desync := false }

/-- The Variant A data bytes for a pressure, the defaults chosen (R192, R193, R195). -/
def dataBytesA (df de : Bool) (p : Ratio) (s : State) : List Byte :=
  dataA (prawA p) (flagByte df 54 s) (extraField de s) s

/-- ENC_A up to its completion (R198). -/
def runEncA (df de : Bool) (s : State) : Except Stop Commit := do
  let p ← pressure s
  let frame := sealA (dataBytesA df de p s)
  return frameCommit (s.usedCrc 0x07) frame (streamA s.cfg frame)

/-- ENC_A builds a Variant A frame and stream (R198). -/
def execEncA (df de : Bool) (s : State) : Host.Outcome State Fault Refusal := conclude s (runEncA df de s)

/-! ## Variant B -/

/-- The Variant B pressure byte, u8(rhe(100·praw / 138)) (R200). -/
def pressureByteB (praw : Int) : Byte := u8 (rhe (100 * praw) 138)

/-- The eight Variant B data bytes (R201). -/
def dataB (praw : Int) (fl unk : Byte) (s : State) : List Byte :=
  idBigEndian s.sensorId ++ [fl, pressureByteB praw, u8 (sext32 s.temp + 50), unk]

/-- The XOR of bytes (R202). -/
def xorAll (bytes : List Byte) : Byte := bytes.foldl (fun a b => a ^^^ b) 0

/-- A body with its Variant B checksum: "XOR of bytes0–7 (not CRC)" (R202). -/
def sealB (body : List Byte) : List Byte := body ++ [xorAll body]

/-- The Variant B stream of a frame (R203). -/
def streamB (c : Config) (frame : List Byte) : List Bool := bitsMSB c.preB ++ manA frame

/-- ENC_B up to its completion (R204). It does not touch the cache (R202). -/
def runEncB (df de : Bool) (s : State) : Except Stop Commit := do
  let p ← pressure s
  let frame := sealB (dataB (praw s.cfg.prawB p) (flagByte df 80 s) (unknownByte de s) s)
  return frameCommit s frame (streamB s.cfg frame)

/-- ENC_B builds a Variant B frame and stream (R204). -/
def execEncB (df de : Bool) (s : State) : Host.Outcome State Fault Refusal := conclude s (runEncB df de s)

/-! ## Variant C -/

/-- The eight Variant C data bytes, with traw = t + 40 and status = FLAGS[7:0] (R205 to R207). -/
def dataC (praw traw : Int) (status : Byte) (s : State) : List Byte :=
  idBigEndian s.sensorId ++
  [0x80 ||| (u8 (asr praw 1) &&& 0x7F),
   ((u8 praw &&& 1) <<< 7) ||| (u8 (asr traw 1) &&& 0x7F),
   ((u8 traw &&& 1) <<< 7) ||| status,
   u8 praw ^^^ 0xFF]

/-- A body with its Variant C checksum, CRC8 with polynomial 0x07 and init 0x80 (R208). -/
def sealC (body : List Byte) : List Byte := body ++ [crc8 body 0x07 0x80]

/-- The Variant C stream of a frame: preamble, start marker, body, no inversion (R209). -/
def streamC (c : Config) (frame : List Byte) : List Bool := bitsMSB c.preC ++ bitsMSB c.smC ++ dmC frame

/-- ENC_C up to its completion (R210). -/
def runEncC (s : State) : Except Stop Commit := do
  let p ← pressure s
  let frame := sealC (dataC (praw s.cfg.prawC p) (sext32 s.temp + 40) s.flags s)
  return frameCommit (s.usedCrc 0x07) frame (streamC s.cfg frame)

/-- ENC_C builds a Variant C frame and stream (R210). -/
def execEncC (s : State) : Host.Outcome State Fault Refusal := conclude s (runEncC s)

/-! ## Extended Variant A -/

/-- The n pad bytes D[8..8+n) of policy pol over the data bytes (R212). The custom policy reads
BB[0..min(BB_LEN, n)) and no more (R216). -/
def padBytes (pol : PadPolicy) (data : List Byte) (n : Nat) (s : State) : Except Stop (List Byte) :=
  match pol with
  | .repeatData => .ok ((List.range n).map fun k => data.getD ((k + 8) % 8) 0)
  | .zero => .ok (List.replicate n 0)
  | .random => .ok ((List.range n).map fun k => Config.padPrng s.sensorId k)
  | .custom => do
    let list ← needAll .bb 0 (Store.window s.mem.bb 0 (min s.bbLen.toNat n))
    return (List.range n).map fun k => list.getD (k % s.bbLen.toNat) 0

/-- ENC_AX up to its completion, its checks in the order of R216 and R278. -/
def runEncAx (l : Nat) (pol : PadPolicy) (df de : Bool) (s : State) : Except Stop Commit := do
  check (decide (pol ≠ .custom ∨ s.bbLen.toNat ≤ s.cfg.bbCap)) .capacity
  check (decide (9 ≤ l)) .frameTooShort
  check (decide (pol ≠ .custom ∨ s.bbLen.toNat ≠ 0)) .emptyPadList
  let p ← pressure s
  roomFor l s.cfg.fbCap
  roomFor (32 + 16 * l) s.cfg.sbCap
  let data := dataBytesA df de p s
  let pad ← padBytes pol data (l - 9) s
  let frame := sealA (data ++ pad)
  return frameCommit (s.usedCrc 0x07) frame (streamA s.cfg frame)

/-- ENC_AX builds an extended Variant A frame and stream (R216). -/
def execEncAx (l : Nat) (pol : PadPolicy) (df de : Bool) (s : State) : Host.Outcome State Fault Refusal :=
  conclude s (runEncAx l pol df de s)

/-! ## Fixed-length fitting -/

/-- fit(s, N, ps): truncate at the tail, or pad at the tail with ps (R217). -/
def fitTo (xs : List Byte) (n : Nat) (ps : Byte) : List Byte :=
  if n ≤ xs.length then xs.take n else xs ++ List.replicate (n - xs.length) ps

/-- FIT up to its completion (R218). It reads only what it keeps and inspects no symbol. -/
def runFit (ps : Bool) (s : State) : Except Stop Commit := do
  let n ← lengthIn s.sbLen s.cfg.sbCap
  let target ← lengthIn s.fitLen s.cfg.sbCap
  let kept ← needAll .sb 0 (Store.window s.mem.sb 0 (min n target))
  return { out := s.putSymbols (fitTo kept target (symbolOf ps)), desync := false }

/-- FIT fits SB to FIT_LEN symbols in place (R218). -/
def execFit (ps : Bool) (s : State) : Host.Outcome State Fault Refusal := conclude s (runFit ps s)

end Sys2Proof.Machine
end

