-- ==== Sys2Proof/Machine/Fsk.lean ====
section
/-! DEFINITION. The FSK IQ synthesiser (44_fsk.md R240 to R247).

The samples are exact complex numbers until SAMPLE_Q (R13). A sample is written here as the proposition "is
that number" of a complex number, which Lean needs no code for; so the step stays a function that can be
evaluated, and SAMPLE_Q is applied to exactly the number the spec gives (assumption 7). -/

namespace Sys2Proof.Machine

/-- SPS = rhe(FS·SYM / 10^6) and NPAD = rhe(FS·PAD / 10^6) (R240). -/
def countOf (fsHz us : Word) : Nat := (rhe ((fsHz.toNat * us.toNat : Nat) : Int) 1000000).toNat

/-- One unshaped sample: index k of a segment at freq Hz (R241). -/
structure ToneSample where
  freq : Int
  k : Nat
deriving DecidableEq, Repr

/-- tone(f, n): n samples, the phase starting at 0 (R241). -/
def tone (freq : Int) (n : Nat) : List ToneSample := (List.range n).map fun k => ⟨freq, k⟩

/-- x, the unshaped signal: for each pair the mark segment and then the space segment (R242). -/
def unshaped (markHz spaceHz : Int) (sps : Nat) (ps : List (Nat × Nat)) : List ToneSample :=
  ps.flatMap fun p => tone markHz (p.1 * sps) ++ tone spaceHz (p.2 * sps)

/-- c is the sample exp(j·2π·f·k/FS) (R241). -/
def isTone (fs : Nat) (t : ToneSample) : ℂ → Prop := fun c =>
  c = Complex.exp (Complex.I * (2 * Real.pi * t.freq * t.k / fs))

/-- c is x[k], with x[k] = 0 for k < 0 or k ≥ N (R243). -/
def isInput (fs : Nat) (x : List ToneSample) (k : Int) : ℂ → Prop := fun c =>
  match (if 0 ≤ k then x[k.toNat]? else none) with
  | some t => isTone fs t c
  | none => c = 0

/-- c is y[i] = Σ_{j=0}^{100} h[j]·x[i + 50 − j] (R243). -/
def isShaped (fs : Nat) (x : List ToneSample) (i : Nat) : ℂ → Prop := fun c =>
  ∃ v : Fin 101 → ℂ, (∀ j : Fin 101, isInput fs x ((i : Int) + 50 - (j : Nat)) (v j)) ∧
    c = ∑ j, (Config.rcTaps j : ℂ) * v j

/-- The QB entries: the N shaped samples, then NPAD zeros, each through SAMPLE_Q (R244). -/
def iqWords (fs : Nat) (x : List ToneSample) (npad : Nat) : List (Word × Word) :=
  (List.range x.length).map (fun i => Config.sampleQ (isShaped fs x i)) ++
  List.replicate npad (Config.sampleQ fun c => c = 0)

/-- FSK_GEN up to its completion (R245). -/
def runFskGen (s : State) : Except Stop Commit := do
  let m ← lengthIn s.pbLen s.cfg.pbCap
  check (decide (s.fsHz.toNat ≠ 0)) .invalidNumeric
  let ps ← pulsePairs s m
  let sps := countOf s.fsHz s.symUs
  let npad := countOf s.fsHz s.padUs
  roomFor (sps * totalWidth ps + npad) s.cfg.qbCap
  let x := unshaped (sext32 s.markHz) (sext32 s.spaceHz) sps ps
  return { out := s.putSamples (iqWords s.fsHz.toNat x npad), desync := false }

/-- FSK_GEN synthesises IQ samples from PB into QB (R245). -/
def execFskGen (s : State) : Host.Outcome State Fault Refusal := conclude s (runFskGen s)

end Sys2Proof.Machine
end

