-- ==== Sys2Proof/Machine/Pcm.lean ====
section
/-! DEFINITION. The pulse encoder (42_pcm.md R170 to R174). -/

namespace Sys2Proof.Machine

/-- The scan of pcmenc with p ones and then g zeros of the current pair counted (R170). A pair is emitted at the
next 1 after a gap, or at the end; zeros before the first 1 are skipped. -/
def pcmScan (p g : Nat) : List Bool → List (Nat × Nat)
  | [] => if p = 0 then [] else [(p, g)]
  | true :: bs => if g = 0 then pcmScan (p + 1) 0 bs else (p, g) :: pcmScan 1 0 bs
  | false :: bs => if p = 0 then pcmScan 0 0 bs else pcmScan p (g + 1) bs

/-- pcmenc(s) (R170). -/
def pcmenc (s : List Bool) : List (Nat × Nat) := pcmScan 0 0 s

/-- A run-length pair as a PB entry. -/
def pulseEntry (p : Nat × Nat) : Word × Word := (BitVec.ofNat 32 p.1, BitVec.ofNat 32 p.2)

/-- PCM_ENC up to its completion (R171). -/
def runPcmEnc (s : State) : Except Stop Commit := do
  let bits ← symbolInput s
  let ps := pcmenc bits
  roomFor ps.length s.cfg.pbCap
  return { out := s.putPulses (ps.map pulseEntry), desync := false }

/-- PCM_ENC run-length-encodes SB into PB (R171). -/
def execPcmEnc (s : State) : Host.Outcome State Fault Refusal := conclude s (runPcmEnc s)

/-- pcmdec(P): "`pulse` ones then `gap` zeros per pair, concatenated" (R172). -/
def pcmdec (ps : List (Nat × Nat)) : List Bool :=
  ps.flatMap fun p => List.replicate p.1 true ++ List.replicate p.2 false

/-- PCM_DEC up to its completion (R173). -/
def runPcmDec (s : State) : Except Stop Commit := do
  let m ← lengthIn s.pbLen s.cfg.pbCap
  let ps ← pulsePairs s m
  roomFor (totalWidth ps) s.cfg.sbCap
  return { out := s.putSymbols (symbolsOf (pcmdec ps)), desync := false }

/-- PCM_DEC expands PB into SB (R173). -/
def execPcmDec (s : State) : Host.Outcome State Fault Refusal := conclude s (runPcmDec s)

end Sys2Proof.Machine
end

