-- ==== Sys2Proof/Machine/Dispatch.lean ====
section
/-! DEFINITION. Execution and completion of an accepted command, one arm per constructor. -/

namespace Sys2Proof.Machine

def exec (i : Instr) (s : State) : Host.Outcome State Fault Refusal :=
  match i with
  | .crc8 poly init => Sys2Proof.Machine.execCrc8 poly init s
  | .manEnc => Sys2Proof.Machine.execManEnc s
  | .manDec be => Sys2Proof.Machine.execManDec be s
  | .dmanEnc => Sys2Proof.Machine.execDmanEnc s
  | .dmanDec be => Sys2Proof.Machine.execDmanDec be s
  | .pcmEnc => Sys2Proof.Machine.execPcmEnc s
  | .pcmDec => Sys2Proof.Machine.execPcmDec s
  | .encA df de => Sys2Proof.Machine.execEncA df de s
  | .encB df de => Sys2Proof.Machine.execEncB df de s
  | .encC => Sys2Proof.Machine.execEncC s
  | .encAx l pol df de => Sys2Proof.Machine.execEncAx l pol df de s
  | .fit ps => Sys2Proof.Machine.execFit ps s
  | .fskGen => Sys2Proof.Machine.execFskGen s

end Sys2Proof.Machine
end

