-- ==== Sys2Proof/Machine/Engine.lean ====
section
/-! DEFINITION. The engine agent (30_encoding.md R94, 60_exceptions.md R274, 70_reset_and_hazards.md R305). -/

namespace Sys2Proof.Machine

/-- The engine decodes the latched word w, executes it on the state at acceptance and completes: the command's
meaning, or ILLEGAL_COMMAND, raised before any operand is read. -/
def engineTurn (w : Word) (s : State) : Host.Outcome State Fault Refusal :=
  match decode w with
  | .ok i => exec i s
  | .error _ => .next (s.fail .illegalCommand)

end Sys2Proof.Machine
end

