-- ==== Sys2Proof/Machine/Bus.lean ====
section
/-! DEFINITION. The host bus: the address map, the registers and buffer windows behind it, and the two
access primitives (10_state.md R22, 20_memory.md R60 to R72, 70_reset_and_hazards.md R307). -/

namespace Sys2Proof.Machine

/-- The registers of the map (R22), in its order. -/
inductive Reg where
  | CMD | STATUS | RESULT | BB_LEN | SB_LEN | PB_LEN | FB_LEN | QB_LEN | DEC_OFF | DEC_BOUND | FIT_LEN
  | SENSOR_ID | PRESS_LO | PRESS_HI | TEMP | FLAGS | EXTRA | MARK_HZ | SPACE_HZ | FS_HZ | SYM_US | PAD_US
deriving DecidableEq, Repr

/-- The registers by offset / 4 (R22). -/
def regList : List Reg :=
  [.CMD, .STATUS, .RESULT, .BB_LEN, .SB_LEN, .PB_LEN, .FB_LEN, .QB_LEN, .DEC_OFF, .DEC_BOUND, .FIT_LEN,
   .SENSOR_ID, .PRESS_LO, .PRESS_HI, .TEMP, .FLAGS, .EXTRA, .MARK_HZ, .SPACE_HZ, .FS_HZ, .SYM_US, .PAD_US]

/-- The offset of a register, its address (R22, R63). -/
def Reg.offset : Reg → Nat
  | .CMD => 0x00
  | .STATUS => 0x04
  | .RESULT => 0x08
  | .BB_LEN => 0x0C
  | .SB_LEN => 0x10
  | .PB_LEN => 0x14
  | .FB_LEN => 0x18
  | .QB_LEN => 0x1C
  | .DEC_OFF => 0x20
  | .DEC_BOUND => 0x24
  | .FIT_LEN => 0x28
  | .SENSOR_ID => 0x2C
  | .PRESS_LO => 0x30
  | .PRESS_HI => 0x34
  | .TEMP => 0x38
  | .FLAGS => 0x3C
  | .EXTRA => 0x40
  | .MARK_HZ => 0x44
  | .SPACE_HZ => 0x48
  | .FS_HZ => 0x4C
  | .SYM_US => 0x50
  | .PAD_US => 0x54

/-- A mapped location: a register, or an entry (a half, for PB and QB) of a buffer window (R64, R65). -/
inductive Loc where
  | reg (r : Reg)
  | entry (b : Buffer) (i : Nat)
deriving DecidableEq, Repr

/-- The first address of a buffer's window (R64). -/
def Buffer.base : Buffer → Nat
  | .bb => 0x100000
  | .sb => 0x200000
  | .pb => 0x300000
  | .fb => 0x400000
  | .qb => 0x500000

/-- How many words a buffer's window maps: one an entry, two for PB and QB (R64, R65). -/
def Buffer.words (c : Config) : Buffer → Nat
  | .bb => c.bbCap
  | .sb => c.sbCap
  | .pb => 2 * c.pbCap
  | .fb => c.fbCap
  | .qb => 2 * c.qbCap

/-- Word i of a buffer's window, where i is below the buffer's capacity (R62, R64). -/
def entryAt (c : Config) (b : Buffer) (i : Nat) : Option Loc :=
  if i < b.words c then some (.entry b i) else none

/-- The location of word address w = a / 4, where it is mapped (R63, R64). A window is 0x40000 words. -/
def locateWord (c : Config) (w : Nat) : Option Loc :=
  if w < 0x40000 then regList[w]?.map .reg
  else if w < 0x80000 then entryAt c .bb (w - 0x40000)
  else if w < 0xC0000 then entryAt c .sb (w - 0x80000)
  else if w < 0x100000 then entryAt c .pb (w - 0xC0000)
  else if w < 0x140000 then entryAt c .fb (w - 0x100000)
  else if w < 0x180000 then entryAt c .qb (w - 0x140000)
  else none

/-- The location a size-byte access at a reaches: none where it is misaligned, not 4 bytes or unmapped (R62). -/
def locate (c : Config) (a : Addr) (size : Nat) : Option Loc :=
  if size = 4 ∧ a.toNat % 4 = 0 then locateWord c (a.toNat / 4) else none

/-- The host may read the location: every one but CMD (R22, R62). -/
def Loc.readable : Loc → Bool
  | .reg .CMD => false
  | .reg _ => true
  | .entry _ _ => true

/-- The host may write the location: not STATUS, RESULT, FB_LEN, QB_LEN, nor FB or QB (R22, R62, R64). -/
def Loc.writable : Loc → Bool
  | .reg .STATUS => false
  | .reg .RESULT => false
  | .reg .FB_LEN => false
  | .reg .QB_LEN => false
  | .reg _ => true
  | .entry .fb _ => false
  | .entry .qb _ => false
  | .entry _ _ => true

/-- CMD's storage: the latched word while busy (R23, R40). It has no readable value, and no command is pending
while idle (R301). -/
def State.cmd (s : State) : Word :=
  match s.eng with
  | .idle => 0
  | .busy w => w

/-- The STATUS word (R24). -/
def State.statusReg (s : State) : Word := statusWord s.eng.isBusy s.status

/-- The one operation that reads a register (R22): reserved bits read 0. -/
def State.readReg (r : Reg) (s : State) : Word :=
  match r with
  | .CMD => s.cmd
  | .STATUS => s.statusReg
  | .RESULT => s.result
  | .BB_LEN => s.bbLen
  | .SB_LEN => s.sbLen
  | .PB_LEN => s.pbLen
  | .FB_LEN => s.fbLen
  | .QB_LEN => s.qbLen
  | .DEC_OFF => s.decOff
  | .DEC_BOUND => s.decBound
  | .FIT_LEN => s.fitLen
  | .SENSOR_ID => s.sensorId
  | .PRESS_LO => s.pressLo
  | .PRESS_HI => s.pressHi
  | .TEMP => s.temp
  | .FLAGS => s.flags.setWidth 32
  | .EXTRA => s.extra.setWidth 32
  | .MARK_HZ => s.markHz
  | .SPACE_HZ => s.spaceHz
  | .FS_HZ => s.fsHz
  | .SYM_US => s.symUs
  | .PAD_US => s.padUs

/-- The one operation by which the host writes a register (R22, R61): reserved bits ignore writes, a write to
CMD accepts the word as a command (R23), and a read-only register is not written. -/
def State.writeReg (r : Reg) (v : Word) (s : State) : State :=
  match r with
  | .CMD => s.accept v
  | .STATUS => s
  | .RESULT => s
  | .BB_LEN => { s with bbLen := v }
  | .SB_LEN => { s with sbLen := v }
  | .PB_LEN => { s with pbLen := v }
  | .FB_LEN => s
  | .QB_LEN => s
  | .DEC_OFF => { s with decOff := v }
  | .DEC_BOUND => { s with decBound := v }
  | .FIT_LEN => { s with fitLen := v }
  | .SENSOR_ID => { s with sensorId := v }
  | .PRESS_LO => { s with pressLo := v }
  | .PRESS_HI => { s with pressHi := v }
  | .TEMP => { s with temp := v }
  | .FLAGS => { s with flags := v.extractLsb' 0 8 }
  | .EXTRA => { s with extra := v.extractLsb' 0 16 }
  | .MARK_HZ => { s with markHz := v }
  | .SPACE_HZ => { s with spaceHz := v }
  | .FS_HZ => { s with fsHz := v }
  | .SYM_US => { s with symUs := v }
  | .PAD_US => { s with padUs := v }

/-- What a read of a window word returns, none where it was never written (R39, R65). -/
def Memory.readEntry (b : Buffer) (i : Nat) (m : Memory) : Option Word :=
  match b with
  | .bb => (Store.get i m.bb).map fun x => x.setWidth 32
  | .sb => (Store.get i m.sb).map fun x => x.setWidth 32
  | .fb => (Store.get i m.fb).map fun x => x.setWidth 32
  | .pb => Store.get i m.pb
  | .qb => Store.get i m.qb

/-- A host write of a window word: BB and SB keep v[7:0] (R65). FB and QB are read-only to the host. -/
def Memory.writeEntry (b : Buffer) (i : Nat) (v : Word) (m : Memory) : Memory :=
  match b with
  | .bb => { m with bb := Store.set i (v.extractLsb' 0 8) m.bb }
  | .sb => { m with sb := Store.set i (v.extractLsb' 0 8) m.sb }
  | .pb => { m with pb := Store.set i v m.pb }
  | .fb => m
  | .qb => m

/-- The value of a location, none where it was never written (R61). -/
def State.readLoc (l : Loc) (s : State) : Option Word :=
  match l with
  | .reg r => some (s.readReg r)
  | .entry b i => s.mem.readEntry b i

/-- Store v into a location and mark it written (R61). -/
def State.writeLoc (l : Loc) (v : Word) (s : State) : State :=
  match l with
  | .reg r => s.writeReg r v
  | .entry b i => { s with mem := s.mem.writeEntry b i v }

/-- A draw with no law (U1, U2): the next free value. -/
def State.draw (s : State) : Word × State := (Config.freeWord s.draws, { s with draws := s.draws + 1 })

/-- MemRead(a, size) (R61, R62, R307): the value and the state after, which differs from the state before only
in the count of draws. -/
def memRead (a : Addr) (size : Nat) (s : State) : Except Fault (Word × State) :=
  match locate s.cfg a size with
  | none => .error (.busError a size)
  | some l =>
    if l.readable then
      if s.eng.isBusy ∧ l ≠ .reg .STATUS then .ok s.draw
      else
        match s.readLoc l with
        | some v => .ok (v, s)
        | none => .ok s.draw
    else .error (.busError a size)

/-- MemWrite(a, size, v) (R61, R62, R307). -/
def memWrite (a : Addr) (size : Nat) (v : Word) (s : State) : Except Fault State :=
  match locate s.cfg a size with
  | none => .error (.busError a size)
  | some l =>
    if l.writable then
      if s.eng.isBusy then .ok { s with status := s.status.overrun }
      else .ok (s.writeLoc l v)
    else .error (.busError a size)

end Sys2Proof.Machine
end

