-- ==== Sys2Proof/Machine/HostAgent.lean ====
section
/-! DEFINITION. The host agent (00_scope.md R2, 30_encoding.md R102 to R104, 70_reset_and_hazards.md R300,
R311, R313): one host operation a turn, and the pseudo-instructions as lists of operations. -/

namespace Sys2Proof.Machine

/-- The host performs its next operation. With none left nothing happens: the block keeps its state (R293). A
bus error is a fault of the access (R62). WAIT stays while it reads BUSY = 1 (R104). -/
def hostTurn (s : State) : Host.Outcome State Fault Refusal :=
  match s.host with
  | [] => .next s
  | .read a size :: rest =>
    match memRead a size s with
    | .ok (v, t) => .next { t with host := rest, reads := t.reads ++ [v] }
    | .error f => .fault f
  | .write a size v :: rest =>
    match memWrite a size v s with
    | .ok t => .next { t with host := rest }
    | .error f => .fault f
  | .wait :: rest =>
    .next { s with
      host := if s.eng.isBusy then .wait :: rest else rest
      reads := s.reads ++ [s.statusReg] }
  | .reset :: rest => .next { s.powerOn with host := rest }

/-! ## Pseudo-instructions (R102 to R104) -/

/-- `WR addr, value`. -/
def HostOp.wr (a : Addr) (v : Word) : HostOp := .write a 4 v

/-- `RD addr -> t`. -/
def HostOp.rd (a : Addr) : HostOp := .read a 4

/-- `WR NAME, value`: a register's name stands for its address. -/
def HostOp.wrReg (r : Reg) (v : Word) : HostOp := .wr (BitVec.ofNat 24 r.offset) v

/-- `RD NAME -> t`. -/
def HostOp.rdReg (r : Reg) : HostOp := .rd (BitVec.ofNat 24 r.offset)

/-- The address of word i of a buffer's window: BUF[i], or half i of PB and QB (R64, R102). -/
def windowAddr (b : Buffer) (i : Nat) : Addr := BitVec.ofNat 24 (b.base + 4 * i)

/-- `CMD <command>`. -/
def HostOp.cmd (i : Instr) : HostOp := .wrReg .CMD (encode i)

/-- `RUN <command>`. -/
def HostOp.run (i : Instr) : List HostOp := [.cmd i, .wait]

/-- `WRBUF BUF, i, [v0, v1, ...]` (R104). For PB and QB, whose entries are two words (R65), R102 gives `BUF[i]` no
address. DESIGN CHOICE (log 25): i then counts 4-byte halves, so PB is written pulse, gap, pulse, and so on. -/
def HostOp.wrBuf (b : Buffer) (i : Nat) : List Word → List HostOp
  | [] => []
  | v :: vs => .wr (windowAddr b i) v :: HostOp.wrBuf b (i + 1) vs

/-- `WRF64 x`, with x the binary64 word. -/
def HostOp.wrF64 (x : BitVec 64) : List HostOp :=
  [.wrReg .PRESS_LO (x.extractLsb' 0 32), .wrReg .PRESS_HI (x.extractLsb' 32 32)]

end Sys2Proof.Machine
end

