-- ==== Sys2Proof/Machine/Step.lean ====
section
/-! DEFINITION. One step of the whole: the host's turn or the engine's completion (70_reset_and_hazards.md
R305: "Acceptance and completion are the only steps of the engine"). -/

namespace Sys2Proof.Machine

/-- While the engine is busy, `lag` host turns pass and then it completes (R306); while it is idle, the host
has the turn. -/
def step (s : State) : Host.Outcome State Fault Refusal :=
  match s.eng, s.lag with
  | .busy w, 0 => engineTurn w s
  | .busy _, n + 1 => hostTurn { s with lag := n }
  | .idle, _ => hostTurn s

/-- s with the command word whose table bits are w accepted, its completion the very next step. It stands for
the host's CMD write (R23, R305) and a latency of 0; see assumption 6. -/
def State.withFetchWord (s : State) (nbits w : Nat) : State := s.latch (commandWord nbits w) 0

end Sys2Proof.Machine
end

