-- ==== Sys2Proof/Safety.lean ====
section
/-! DEFINITION. The terms claims are stated in: what a buffer holds, which addresses are mapped, how a command
ends, and the invariant every step keeps. -/

namespace Sys2Proof.Machine

/-! ## Buffers -/

/-- Entries 0 to len(xs) − 1 of the store are written and hold xs. -/
abbrev Store.Holds {width : Nat} (m : Store width) (xs : List (BitVec width)) : Prop :=
  ∀ k < xs.length, Store.get k m = xs[k]?

/-- The store reads alike in both states from entry n on. -/
def Store.SameFrom {width : Nat} (n : Nat) (before after : Store width) : Prop :=
  ∀ k, n ≤ k → Store.get k after = Store.get k before

/-! ## The address map, in plain arithmetic -/

/-- Address a is mapped (R63, R64): one of the 22 register offsets, or inside a buffer's window below its
capacity, 4 bytes an entry for BB, SB and FB and 8 for PB and QB. -/
abbrev Mapped (c : Config) (a : Nat) : Prop :=
  a < 0x58 ∨
  (0x100000 ≤ a ∧ a < 0x100000 + 4 * c.bbCap) ∨
  (0x200000 ≤ a ∧ a < 0x200000 + 4 * c.sbCap) ∨
  (0x300000 ≤ a ∧ a < 0x300000 + 8 * c.pbCap) ∨
  (0x400000 ≤ a ∧ a < 0x400000 + 4 * c.fbCap) ∨
  (0x500000 ≤ a ∧ a < 0x500000 + 8 * c.qbCap)

/-- Address a is read-only to the host (R22, R62): STATUS, RESULT, FB_LEN, QB_LEN, the FB and QB windows. -/
abbrev ReadOnly (a : Nat) : Prop :=
  a = 0x04 ∨ a = 0x08 ∨ a = 0x18 ∨ a = 0x1C ∨ (0x400000 ≤ a ∧ a < 0x600000)

/-! ## How a command ends -/

/-- The status of a completion without error: DONE, the desync outcome, OVR as it stood (R24, R305). -/
def endedWell (desync : Bool) (s : State) : Status :=
  { done := true, desync := desync, err := false, ovr := s.status.ovr, ecode := .none }

/-- s after a completion with error e (R272, R273): only STATUS and ENG differ. -/
def endedBadly (e : ErrCode) (s : State) : State :=
  { s with
    eng := .idle
    status := { done := true, desync := false, err := true, ovr := s.status.ovr, ecode := e } }

/-- The outcome is error e of a command that computes a CRC with polynomial p, with CACHE as R273 allows it: T_p or
its old content. -/
def EndsInError (e : ErrCode) (p : Byte) (s : State) (outcome : Host.Outcome State Fault Refusal) : Prop :=
  ∃ c, (c = s.cache ∨ c = some { poly := p, table := crcTable p }) ∧
    outcome = .next { endedBadly e s with cache := c }

/-! ## Which command writes what (R22, last column) -/

/-- The commands that write RESULT (R25). -/
def writesResult : Instr → Bool
  | .crc8 _ _ => true
  | .manEnc => false
  | .manDec _ => true
  | .dmanEnc => false
  | .dmanDec _ => true
  | .pcmEnc => false
  | .pcmDec => false
  | .encA _ _ => false
  | .encB _ _ => false
  | .encC => false
  | .encAx _ _ _ _ => false
  | .fit _ => false
  | .fskGen => false

/-- The commands that write SB and SB_LEN (R22, R36). -/
def writesSymbols : Instr → Bool
  | .crc8 _ _ => false
  | .manEnc => true
  | .manDec _ => true
  | .dmanEnc => true
  | .dmanDec _ => true
  | .pcmEnc => false
  | .pcmDec => true
  | .encA _ _ => true
  | .encB _ _ => true
  | .encC => true
  | .encAx _ _ _ _ => true
  | .fit _ => true
  | .fskGen => false

/-- The frame commands, which write FB and FB_LEN (R22, R35). -/
def writesFrame : Instr → Bool
  | .crc8 _ _ => false
  | .manEnc => false
  | .manDec _ => false
  | .dmanEnc => false
  | .dmanDec _ => false
  | .pcmEnc => false
  | .pcmDec => false
  | .encA _ _ => true
  | .encB _ _ => true
  | .encC => true
  | .encAx _ _ _ _ => true
  | .fit _ => false
  | .fskGen => false

/-! ## The invariant -/

/-- "last byte is always the checksum over preceding bytes" of FB[0..FB_LEN) (R35): Variant A's CRC, Variant
C's, or Variant B's XOR. -/
def FrameSealed (s : State) : Prop :=
  s.fbLen = 0 ∨
  ∃ body last, s.fbLen.toNat = body.length + 1 ∧ Store.Holds s.mem.fb (body ++ [last]) ∧
    (last = crc8 body 0x07 0x00 ∨ last = crc8 body 0x07 0x80 ∨ last = xorAll body)

/-- What holds at reset and after every step. -/
structure Inv (s : State) : Prop where
  /-- the parameters meet R5 -/
  cfgValid : s.cfg.Valid
  /-- the buffers are in canonical form -/
  memWf : s.mem.wf
  /-- no entry beyond a capacity -/
  memWithin : s.mem.within s.cfg
  /-- ECODE is 0 exactly when ERR = 0 (R24) -/
  errCode : s.status.err = true ↔ s.status.ecode ≠ .none
  /-- when ERR = 1, DESYNC = 0 (R24) -/
  errNoDesync : s.status.err = true → s.status.desync = false
  /-- ERR and DESYNC are set only at completion, with DONE (R24) -/
  setWithDone : (s.status.err || s.status.desync) = true → s.status.done = true
  /-- while BUSY, DONE = ERR = DESYNC = 0 (R307) -/
  busyClear : s.eng.isBusy = true → s.status.done = false
  /-- CT is T_CP (R41, R77) -/
  cacheTable : ∀ c, s.cache = some c → c.table = crcTable c.poly
  /-- the frame in FB carries its checksum (R35) -/
  frameSealed : FrameSealed s
  /-- QB[0..QB_LEN) is inside QB and written (R26, R38) -/
  samplesWritten : s.qbLen.toNat ≤ s.cfg.qbCap ∧ ∀ k < 2 * s.qbLen.toNat, (Store.get k s.mem.qb).isSome

/-! ## A run -/

/-- The run is over: the host has performed its last operation and ENG is IDLE (R314). -/
def State.runOver (s : State) : Bool := s.host.isEmpty && !s.eng.isBusy

end Sys2Proof.Machine
end

