-- ==== Sys2Proof/Certificates/Slice0/Obligations.lean ====
section
/-! DEFINITION. The statements about the model, for the provers. -/

open Sys2Proof Sys2Proof.Machine

/-! ## Encoding (30_encoding.md) -/

/-- R90 to R92, R103: the word of a well-formed command decodes to it, with every operand at every value. -/
def Obligations.EncodedCommandDecodesBack : Prop :=
  ∀ i : Instr, i.wellFormed = true → decode (encode i) = .ok i

/-- R94, R95: a word that decodes is the word of its command, so no bit outside the operand fields is ignored. -/
def Obligations.DecodedWordIsItsEncoding : Prop :=
  ∀ (w : Word) (i : Instr), decode w = .ok i → i.wellFormed = true ∧ encode i = w

/-- R93, R94: a word decodes by the row it matches, with that row's operands, and to nothing where none matches. -/
def Obligations.DecodingSelectsTheMatchingRow : Prop :=
  ∀ w : Word,
    (∀ r ∈ opcodeRows, w &&& r.mask = r.pattern → decode w = .ok (operandsOf r.op w)) ∧
    ((∀ r ∈ opcodeRows, w &&& r.mask ≠ r.pattern) → ∃ e, decode w = .error e)

/-- R90, R91, R92, R103, R95: words written out from the spec's encodings, and the layout of every format that has
operands, FM (w[31:24]) first. -/
def Obligations.SpecCommandWordsDecode : Prop :=
  (∀ (poly init : Byte) (l : Byte) (b c : Bool),
    decode (0x00#8 ++ init ++ poly ++ 0x01#8) = .ok (.crc8 poly init) ∧
    decode (0#7 ++ BitVec.ofBool b ++ 0x00#8 ++ 0x00#8 ++ 0x11#8) = .ok (.manDec b) ∧
    decode (0#7 ++ BitVec.ofBool b ++ 0x00#8 ++ 0x00#8 ++ 0x13#8) = .ok (.dmanDec b) ∧
    decode (0#6 ++ BitVec.ofBool c ++ BitVec.ofBool b ++ 0x00#8 ++ 0x00#8 ++ 0x30#8) = .ok (.encA b c) ∧
    decode (0#6 ++ BitVec.ofBool c ++ BitVec.ofBool b ++ 0x00#8 ++ 0x00#8 ++ 0x31#8) = .ok (.encB b c) ∧
    decode (0#6 ++ BitVec.ofBool c ++ BitVec.ofBool b ++ 0x00#8 ++ l ++ 0x33#8) =
      .ok (.encAx l.toNat .repeatData b c) ∧
    decode (0#6 ++ BitVec.ofBool c ++ BitVec.ofBool b ++ 0x01#8 ++ l ++ 0x33#8) = .ok (.encAx l.toNat .zero b c) ∧
    decode (0#6 ++ BitVec.ofBool c ++ BitVec.ofBool b ++ 0x02#8 ++ l ++ 0x33#8) = .ok (.encAx l.toNat .random b c) ∧
    decode (0#6 ++ BitVec.ofBool c ++ BitVec.ofBool b ++ 0x03#8 ++ l ++ 0x33#8) = .ok (.encAx l.toNat .custom b c) ∧
    decode (0#7 ++ BitVec.ofBool b ++ 0x00#8 ++ 0x00#8 ++ 0x34#8) = .ok (.fit b)) ∧
  decode 0x00800701 = .ok (.crc8 0x07 0x80) ∧ decode 0x00000010 = .ok .manEnc ∧
  decode 0x01000011 = .ok (.manDec true) ∧ decode 0x00000012 = .ok .dmanEnc ∧
  decode 0x00000013 = .ok (.dmanDec false) ∧ decode 0x00000020 = .ok .pcmEnc ∧
  decode 0x00000021 = .ok .pcmDec ∧ decode 0x03000030 = .ok (.encA true true) ∧
  decode 0x02000031 = .ok (.encB false true) ∧ decode 0x00000032 = .ok .encC ∧
  decode 0x03010C33 = .ok (.encAx 12 .zero true true) ∧ decode 0x01000034 = .ok (.fit true) ∧
  decode 0x00000040 = .ok .fskGen ∧ decode 0x00000000 = .error .unassignedOp

/-! ## Steps, reset and completion (70_reset_and_hazards.md) -/

/-- R94, R305: the step that completes a latched word that decodes to i is exec of i at that state. -/
def Obligations.StepRunsTheDecodedCommand : Prop :=
  ∀ (s : State) (w : Word) (i : Instr),
    s.eng = .busy w → s.lag = 0 → decode w = .ok i → step s = exec i s

/-- R274: a word no row matches ends in ILLEGAL_COMMAND and changes nothing but STATUS and ENG. That is the
case exactly when its OP is unassigned or a bit its row's mask covers differs, no word matches two rows, and
the rule's examples are such words. -/
def Obligations.IllegalWordEndsInIllegalCommand : Prop :=
  (∀ (s : State) (w : Word), s.eng = .busy w → s.lag = 0 → (∀ r ∈ opcodeRows, w &&& r.mask ≠ r.pattern) →
    step s = .next (endedBadly .illegalCommand s)) ∧
  (∀ w : Word, (∀ r ∈ opcodeRows, w &&& r.mask ≠ r.pattern) ↔
    ((∀ r ∈ opcodeRows, opField r.pattern ≠ opField w) ∨
      ∃ r ∈ opcodeRows, opField r.pattern = opField w ∧ w &&& r.mask ≠ r.pattern)) ∧
  (∀ (w : Word), ∀ r ∈ opcodeRows, ∀ q ∈ opcodeRows,
    w &&& r.mask = r.pattern → w &&& q.mask = q.pattern → r = q) ∧
  (∀ r ∈ opcodeRows,
    0x00000000#32 &&& r.mask ≠ r.pattern ∧ 0x01000032#32 &&& r.mask ≠ r.pattern ∧
    0x00040C33#32 &&& r.mask ≠ r.pattern ∧ 0x02000011#32 &&& r.mask ≠ r.pattern)

/-- R61, R102, R104, R305, R306, R314 (the count of host turns before completion is the model's own, assumption 5; so
is the turn of a host with nothing left, assumption 17): while the engine is idle, or busy with host turns still to
pass, the step is the host's turn. That turn performs the access the host's list begins with, records what a read
returned, polls STATUS for a WAIT, which stays while BUSY = 1, and leaves the rest of the list. So a write of w to
CMD while idle is a step that accepts w. -/
def Obligations.HostMovesWhileTheEngineWaits : Prop :=
  (∀ s : State, s.eng = .idle → step s = hostTurn s) ∧
  (∀ (s : State) (w : Word) (n : Nat), s.eng = .busy w → s.lag = n + 1 → step s = hostTurn { s with lag := n }) ∧
  (∀ (s t : State) (a : Addr) (size : Nat) (v : Word) (rest : List HostOp),
    s.host = .read a size :: rest → memRead a size s = .ok (v, t) →
    hostTurn s = .next { t with host := rest, reads := t.reads ++ [v] }) ∧
  (∀ (s t : State) (a : Addr) (size : Nat) (v : Word) (rest : List HostOp),
    s.host = .write a size v :: rest → memWrite a size v s = .ok t → hostTurn s = .next { t with host := rest }) ∧
  (∀ (s t : State) (x : Word) (rest : List HostOp),
    s.host = .wait :: rest → memRead 0x000004 4 s = .ok (x, t) →
    hostTurn s = .next { t with host := if x.getLsbD 0 then .wait :: rest else rest, reads := t.reads ++ [x] }) ∧
  (∀ s : State, s.host = [] → hostTurn s = .next s) ∧
  (∀ (s : State) (w : Word) (rest : List HostOp), s.eng = .idle → s.host = .write 0x000000 4 w :: rest →
    ∃ t, step s = .next t ∧ t.eng = .busy w ∧ t.host = rest ∧ t.reads = s.reads ∧ t.mem = s.mem)

/-- R306, R311: a WAIT behind an accepted command ends. Where the command's completion answers a next state, the
run of lag + 2 steps has completed it and performed the WAIT, whose last poll read BUSY = 0. -/
def Obligations.WaitEndsAfterCompletion : Prop :=
  ∀ (s : State) (w : Word) (rest : List HostOp), s.eng = .busy w → s.host = .wait :: rest →
    (∃ t, engineTurn w s = .next t) →
    ∃ u, Host.Core.run Sys2Proof.core (s.lag + 2) s = .next u ∧ u.eng = .idle ∧ u.host = rest ∧
      u.reads = s.reads ++ List.replicate s.lag s.statusReg ++ [u.statusReg] ∧ u.statusReg.getLsbD 0 = false

/-- R301, R302: after reset every register is 0, ENG is idle, CACHE is invalid and every written mark is clear. -/
def Obligations.ResetClearsEverything : Prop :=
  State.reset = State.resetWith Config.reference ∧
  ∀ c : Config,
    (∀ r : Reg, (State.resetWith c).readReg r = 0) ∧ (State.resetWith c).eng = .idle ∧
    (State.resetWith c).cache = none ∧
    ∀ (b : Buffer) (i : Nat), (State.resetWith c).mem.readEntry b i = none

/-- R300: reset, arriving while idle or busy, abandons the command under way: the block is in its reset state,
with the host's program and record and the draw count as they stand outside it. -/
def Obligations.ResetAbandonsTheCommand : Prop :=
  ∀ (s : State) (rest : List HostOp), s.host = .reset :: rest → (s.eng = .idle ∨ s.lag ≠ 0) →
    step s = .next { State.resetWith s.cfg with host := rest, reads := s.reads, draws := s.draws }

/-! ## The host bus (20_memory.md) -/

/-- R62: exactly which accesses get a bus error, in plain arithmetic on the address, and that a host turn faults
on one. -/
def Obligations.BusErrorExactlyAsListed : Prop :=
  ∀ (s : State) (a : Addr) (size : Nat) (v : Word), s.cfg.Valid →
    ((memRead a size s = .error (.busError a size)) ↔
      (a.toNat % 4 ≠ 0 ∨ size ≠ 4 ∨ ¬ Mapped s.cfg a.toNat ∨ a.toNat = 0)) ∧
    ((memWrite a size v s = .error (.busError a size)) ↔
      (a.toNat % 4 ≠ 0 ∨ size ≠ 4 ∨ ¬ Mapped s.cfg a.toNat ∨ ReadOnly a.toNat)) ∧
    (∀ f, memRead a size s = .error f → f = .busError a size ∧
      ∀ rest, s.host = .read a size :: rest → hostTurn s = .fault f) ∧
    (∀ f, memWrite a size v s = .error f → f = .busError a size ∧
      ∀ rest, s.host = .write a size v :: rest → hostTurn s = .fault f)

/-- R22, R61: while idle, a write to a writable register but CMD is what a read of it returns (FLAGS keeps bits
[7:0] and EXTRA bits [15:0], the reserved bits reading 0), and nothing else changes. -/
def Obligations.OperandRegistersReadBack : Prop :=
  ∀ (s : State) (r : Reg) (v : Word), s.eng = .idle → r ∉ [Reg.CMD, .STATUS, .RESULT, .FB_LEN, .QB_LEN] →
    ∃ t, memWrite (BitVec.ofNat 24 r.offset) 4 v s = .ok t ∧
      memRead (BitVec.ofNat 24 r.offset) 4 t =
        .ok (if r = .FLAGS then v &&& 0xFF else if r = .EXTRA then v &&& 0xFFFF else v, t) ∧
      (∀ q : Reg, q ≠ r → t.readReg q = s.readReg q) ∧
      t.mem = s.mem ∧ t.eng = s.eng ∧ t.status = s.status ∧ t.cache = s.cache ∧ t.cfg = s.cfg

/-- R65, R61: while idle, a write to word i of the BB, SB or PB window is what a read of it returns, whole for PB
and v[7:0] for BB and SB, and every other window word and every register is as it was. -/
def Obligations.BufferEntriesReadBack : Prop :=
  ∀ (s : State) (b : Buffer) (i : Nat) (v : Word), s.cfg.Valid → s.eng = .idle →
    (b = .bb ∨ b = .sb ∨ b = .pb) → i < b.words s.cfg →
    ∃ t, memWrite (windowAddr b i) 4 v s = .ok t ∧
      memRead (windowAddr b i) 4 t = .ok (if b = .pb then v else v &&& 0xFF, t) ∧
      t = { s with mem := t.mem } ∧
      ∀ (b' : Buffer) (j : Nat), ¬ (b' = b ∧ j = i) → t.mem.readEntry b' j = s.mem.readEntry b' j

/-- R22, R39, R61, R65: an idle read of a register but CMD and STATUS gives the register at its address; an idle read
of a written window word gives the entry, zero-extended for BB, SB and FB, the first half (pulse, I) at base + 8i and
the second (gap, Q) at base + 8i + 4 for PB and QB; and one of a word never written gives some value, counted as a
draw (assumption 3). -/
def Obligations.IdleReadsReturnTheLocation : Prop :=
  ∀ s : State, s.cfg.Valid → s.eng = .idle →
    (∀ p ∈ [((0x000008 : Addr), s.result), (0x00000C, s.bbLen), (0x000010, s.sbLen), (0x000014, s.pbLen),
        (0x000018, s.fbLen), (0x00001C, s.qbLen), (0x000020, s.decOff), (0x000024, s.decBound), (0x000028, s.fitLen),
        (0x00002C, s.sensorId), (0x000030, s.pressLo), (0x000034, s.pressHi), (0x000038, s.temp),
        (0x00003C, s.flags.setWidth 32), (0x000040, s.extra.setWidth 32), (0x000044, s.markHz),
        (0x000048, s.spaceHz), (0x00004C, s.fsHz), (0x000050, s.symUs), (0x000054, s.padUs)],
      memRead p.1 4 s = .ok (p.2, s)) ∧
    (∀ (i base : Nat) (m : Store 8) (v : Byte),
      (base = 0x100000 ∧ m = s.mem.bb ∧ i < s.cfg.bbCap) ∨ (base = 0x200000 ∧ m = s.mem.sb ∧ i < s.cfg.sbCap) ∨
        (base = 0x400000 ∧ m = s.mem.fb ∧ i < s.cfg.fbCap) →
      Store.get i m = some v → memRead (BitVec.ofNat 24 (base + 4 * i)) 4 s = .ok (v.setWidth 32, s)) ∧
    (∀ (i base : Nat) (m : Store 32) (v : Word),
      (base = 0x300000 ∧ m = s.mem.pb ∧ i < s.cfg.pbCap) ∨ (base = 0x500000 ∧ m = s.mem.qb ∧ i < s.cfg.qbCap) →
      (Store.get (2 * i) m = some v → memRead (BitVec.ofNat 24 (base + 8 * i)) 4 s = .ok (v, s)) ∧
      (Store.get (2 * i + 1) m = some v → memRead (BitVec.ofNat 24 (base + 8 * i + 4)) 4 s = .ok (v, s))) ∧
    (∀ (b : Buffer) (i : Nat), i < b.words s.cfg → s.mem.readEntry b i = none →
      ∃ x, memRead (windowAddr b i) 4 s = .ok (x, { s with draws := s.draws + 1 }))

/-- R307, the four kinds of host access while busy. The premise Inv gives the flags a busy engine has (R24). The
value of the second kind is a draw: the statement holds for every one. -/
def Obligations.AccessesWhileBusy : Prop :=
  ∀ (s : State) (w : Word) (a : Addr) (size : Nat) (v : Word), Inv s → s.eng = .busy w →
    (memRead 0x000004 4 s = .ok (if s.status.ovr then 0x00000011 else 0x00000001, s)) ∧
    (a.toNat % 4 = 0 → Mapped s.cfg a.toNat → a ≠ 0x000000 → a ≠ 0x000004 →
      ∃ x, memRead a 4 s = .ok (x, { s with draws := s.draws + 1 })) ∧
    (a.toNat % 4 = 0 → Mapped s.cfg a.toNat → ¬ ReadOnly a.toNat →
      memWrite a 4 v s = .ok { s with status := { s.status with ovr := true } }) ∧
    (∀ f, memRead a size { s with eng := .idle } = .error f → memRead a size s = .error f) ∧
    (∀ f, memWrite a size v { s with eng := .idle } = .error f → memWrite a size v s = .error f)

/-- R22, R24, R271: the numbers of the error codes, and what a STATUS read returns, bit by bit, changing nothing. -/
def Obligations.StatusWordLayout : Prop :=
  (ErrCode.none.code = 0 ∧ ErrCode.invalidSymbol.code = 1 ∧ ErrCode.frameTooShort.code = 2 ∧
    ErrCode.illegalCommand.code = 3 ∧ ErrCode.capacity.code = 4 ∧ ErrCode.invalidNumeric.code = 5 ∧
    ErrCode.emptyPadList.code = 6) ∧
  ∀ s : State, ∃ x, memRead 0x000004 4 s = .ok (x, s) ∧
    x.getLsbD 0 = s.eng.isBusy ∧ x.getLsbD 1 = s.status.done ∧ x.getLsbD 2 = s.status.desync ∧
    x.getLsbD 3 = s.status.err ∧ x.getLsbD 4 = s.status.ovr ∧ x.extractLsb' 5 3 = 0 ∧
    x.extractLsb' 8 4 = s.status.ecode.code ∧ x.extractLsb' 12 20 = 0

/-- R23, R305: a CMD write while idle accepts any word; the latency is a draw. -/
def Obligations.CmdWriteAcceptsWhenIdle : Prop :=
  ∀ (s : State) (w : Word), s.eng = .idle →
    ∃ t, memWrite 0x000000 4 w s = .ok t ∧
      t = { s with
        eng := .busy w
        status := { done := false, desync := false, err := false, ovr := s.status.ovr, ecode := .none }
        lag := t.lag
        draws := t.draws }

/-- R71: no read has a side effect (the draw count is the model's own), a repeated write of the same value to any
location but CMD leaves the same state, and a CMD write accepts a command. -/
def Obligations.ReadsAndRepeatedWritesHaveNoSideEffect : Prop :=
  (∀ (s t : State) (a : Addr) (size : Nat) (x : Word), memRead a size s = .ok (x, t) →
    t = { s with draws := t.draws }) ∧
  (∀ (s t : State) (a : Addr) (size : Nat) (v : Word), a ≠ 0x000000 → memWrite a size v s = .ok t →
    memWrite a size v t = .ok t) ∧
  (∀ (s : State) (v : Word), s.eng = .idle → ∃ t, memWrite 0x000000 4 v s = .ok t ∧ t.eng = .busy v)

/-- R24, R308: a step sets OVR only where the host writes while the engine is busy, and clears it only by reset. -/
def Obligations.OvrMarksWritesWhileBusyUntilReset : Prop :=
  ∀ s t : State, step s = .next t →
    (s.status.ovr = false → t.status.ovr = true →
      s.eng.isBusy = true ∧ ∃ a size v rest, s.host = .write a size v :: rest) ∧
    (s.status.ovr = true → t.status.ovr = false → ∃ rest, s.host = .reset :: rest)

/-! ## CRC8 (40_crc8.md) -/

/-- R120, in plain arithmetic: T_p has 256 entries, entry i what eight shift steps make of i; T_p[0] = 0 and
T_p[1] = p for every p; and T_0x07 at the rule's three entries. -/
def Obligations.CrcTableStart : Prop :=
  (∀ (p i : Byte) (c : Nat → Nat), c 0 = i.toNat →
    (∀ k < 8, c (k + 1) = if 128 ≤ c k then ((2 * c k) ^^^ p.toNat) % 256 else (2 * c k) % 256) →
    (crcEntry p i).toNat = c 8) ∧
  (∀ p : Byte, (crcTable p).length = 256 ∧ ∀ i : Byte, (crcTable p)[i.toNat]? = some (crcEntry p i)) ∧
  (∀ p : Byte, crcEntry p 0 = 0 ∧ crcEntry p 1 = p) ∧
  crcEntry 0x07 0x01 = 0x07 ∧ crcEntry 0x07 0x80 = 0x89 ∧ crcEntry 0x07 0xFF = 0xF3

/-- R121, R123 (b), (c), R208: the empty sequence has the seed as its CRC, the fold extends a byte at a time, and a sequence followed by its CRC has CRC 0, for any
seed. -/
def Obligations.CrcExtendsAndSelfChecks : Prop :=
  (∀ p seed : Byte, crc8 [] p seed = seed) ∧
  (∀ (bytes : List Byte) (b p seed : Byte),
    crc8 (bytes ++ [b]) p seed = crcEntry p (crc8 bytes p seed ^^^ b)) ∧
  (∀ (bytes : List Byte) (p seed : Byte), crc8 (bytes ++ [crc8 bytes p seed]) p seed = 0)

/-- R122: CRC8 with every entry of BB[0..BB_LEN) written. After CAPACITY, CACHE is as R273 allows it. -/
def Obligations.CrcCommand : Prop :=
  ∀ (s : State) (poly init : Byte) (bytes : List Byte),
    (s.cfg.bbCap < s.bbLen.toNat → EndsInError .capacity poly s (exec (.crc8 poly init) s)) ∧
    (s.bbLen.toNat ≤ s.cfg.bbCap → s.bbLen.toNat = bytes.length → Store.Holds s.mem.bb bytes →
      ∃ t, exec (.crc8 poly init) s = .next t ∧
        t = { s with result := t.result, cache := t.cache, eng := .idle, status := endedWell false s } ∧
        t.result = (crc8 bytes poly init).setWidth 32 ∧
        ∃ table, t.cache = some { poly := poly, table := table })

/-! ## The line coder (41_line_coder.md) -/

/-- R140: man(s) has twice the symbols, and its pair k is [1 − s[k], s[k]]. -/
def Obligations.ManchesterPairShape : Prop :=
  ∀ s : List Bool, (man s).length = 2 * s.length ∧
    ∀ (k : Nat) (b : Bool), s[k]? = some b → (man s)[2 * k]? = some (!b) ∧ (man s)[2 * k + 1]? = some b

/-- R144: dmenc(s) has twice the symbols; every symbol has its mid-symbol transition; and there is a transition
at the boundary before symbol k exactly when s[k] = 0, the level before the first being 1. -/
def Obligations.DiffManchesterBoundaryRule : Prop :=
  ∀ s : List Bool, (dmenc s).length = 2 * s.length ∧
    ∀ (k : Nat) (b : Bool), s[k]? = some b →
      ∃ f : Bool, (dmenc s)[2 * k]? = some f ∧ (dmenc s)[2 * k + 1]? = some (!f) ∧
        ∀ before : Bool, (if k = 0 then some true else (dmenc s)[2 * k - 1]?) = some before →
          (f = before ↔ b = true)

/-- R141, R145: MAN_ENC and DMAN_ENC with every entry of SB[0..SB_LEN) written: CAPACITY on the input length,
INVALID_SYMBOL, CAPACITY on the output, and otherwise the coded stream in place. -/
def Obligations.LineEncodersInPlace : Prop :=
  ∀ (i : Instr) (code : List Bool → List Bool), (i = .manEnc ∧ code = man) ∨ (i = .dmanEnc ∧ code = dmenc) →
  ∀ (s : State) (xs : List Byte) (bits : List Bool), s.cfg.Valid →
    (s.cfg.sbCap < s.sbLen.toNat → exec i s = .next (endedBadly .capacity s)) ∧
    (s.sbLen.toNat ≤ s.cfg.sbCap → s.sbLen.toNat = xs.length → Store.Holds s.mem.sb xs →
      (∃ x ∈ xs, x ≠ 0x00 ∧ x ≠ 0x01) → exec i s = .next (endedBadly .invalidSymbol s)) ∧
    (s.sbLen.toNat ≤ s.cfg.sbCap → s.sbLen.toNat = bits.length → Store.Holds s.mem.sb (symbolsOf bits) →
      s.cfg.sbCap < 2 * bits.length → exec i s = .next (endedBadly .capacity s)) ∧
    (s.sbLen.toNat = bits.length → Store.Holds s.mem.sb (symbolsOf bits) → 2 * bits.length ≤ s.cfg.sbCap →
      ∃ t, exec i s = .next t ∧
        t = { s with mem := { s.mem with sb := t.mem.sb }, sbLen := t.sbLen, eng := .idle,
                     status := endedWell false s } ∧
        t.sbLen.toNat = 2 * bits.length ∧ Store.Holds t.mem.sb (symbolsOf (code bits)) ∧
        Store.SameFrom (2 * bits.length) s.mem.sb t.mem.sb)

/-- R142, on a binary sequence: the pairs from the offset on are those of the output, the offset reached is the
first symbol not consumed, and decoding stops at the bound, at the end, or at an equal pair, which is desync. -/
def Obligations.ManchesterDecodeRule : Prop :=
  ∀ (s : List Bool) (o : Nat) (bound : Option Nat),
    ∃ d, mdec ((symbolsOf s).map some) o bound = .ok d ∧
      d.reached = o + 2 * d.out.length ∧
      (∀ (k : Nat) (b : Bool), d.out[k]? = some b → s[o + 2 * k]? = some (!b) ∧ s[o + 2 * k + 1]? = some b) ∧
      (∀ n, bound = some n → d.out.length ≤ n) ∧
      (d.desync = true →
        bound ≠ some d.out.length ∧ ∃ x, s[d.reached]? = some x ∧ s[d.reached + 1]? = some x) ∧
      (d.desync = false → bound = some d.out.length ∨ s.length < d.reached + 2)

/-- R146, on a binary sequence: either no transition follows the offset, and the output is empty with desync when
at least 2 symbols followed it; or the first transition is at p, and from there each unequal pair emits 1 exactly
when its first half differs from the one before (0 before the first), with the stops of R142. -/
def Obligations.DiffManchesterDecodeRule : Prop :=
  ∀ (s : List Bool) (o : Nat) (bound : Option Nat),
    ∃ d, dmdec ((symbolsOf s).map some) o bound = .ok d ∧
      (((∀ k, o ≤ k → k + 1 < s.length → s[k]? = s[k + 1]?) ∧ d.out = [] ∧
          d.reached = max o (s.length - 1) ∧ d.desync = decide (o + 2 ≤ s.length)) ∨
       ∃ p, o ≤ p ∧ p + 1 < s.length ∧ s[p]? ≠ s[p + 1]? ∧ (∀ k, o ≤ k → k < p → s[k]? = s[k + 1]?) ∧
          d.reached = p + 2 * d.out.length ∧
          (∀ (k : Nat) (b : Bool), d.out[k]? = some b →
            ∃ f prev : Bool, s[p + 2 * k]? = some f ∧ s[p + 2 * k + 1]? = some (!f) ∧
              (if k = 0 then some false else s[p + 2 * k - 2]?) = some prev ∧ (b = true ↔ f ≠ prev)) ∧
          (∀ n, bound = some n → d.out.length ≤ n) ∧
          (d.desync = true →
            bound ≠ some d.out.length ∧ ∃ x, s[d.reached]? = some x ∧ s[d.reached + 1]? = some x) ∧
          (d.desync = false → bound = some d.out.length ∨ s.length < d.reached + 2))

/-- R143, R147, R284 for MAN_DEC and DMAN_DEC: CAPACITY on the input length, the decoder's error or fault, or its
output in SB, its offset in RESULT and its desync outcome in STATUS; and on a written binary input they always
complete. -/
def Obligations.LineDecodersInPlace : Prop :=
  ∀ (be : Bool) (i : Instr) (dec : List (Option Byte) → Nat → Option Nat → Except Stop Decoded),
  (i = .manDec be ∧ dec = mdec) ∨ (i = .dmanDec be ∧ dec = dmdec) →
  ∀ (s : State) (bits : List Bool) (win : List (Option Byte)) (d : Decoded) (e : ErrCode) (bound : Option Nat),
    s.cfg.Valid → bound = (if be then some s.decBound.toNat else none) →
    win.length = s.sbLen.toNat → (∀ k < s.sbLen.toNat, win[k]? = some (Store.get k s.mem.sb)) →
    (s.cfg.sbCap < s.sbLen.toNat → exec i s = .next (endedBadly .capacity s)) ∧
    (s.sbLen.toNat ≤ s.cfg.sbCap → dec win s.decOff.toNat bound = .error (.error e) →
      exec i s = .next (endedBadly e s)) ∧
    (∀ f, s.sbLen.toNat ≤ s.cfg.sbCap → dec win s.decOff.toNat bound = .error (.fault f) → exec i s = .fault f) ∧
    (s.sbLen.toNat ≤ s.cfg.sbCap → dec win s.decOff.toNat bound = .ok d →
      ∃ t, exec i s = .next t ∧
        t = { s with mem := { s.mem with sb := t.mem.sb }, sbLen := t.sbLen, result := t.result, eng := .idle,
                     status := endedWell d.desync s } ∧
        t.sbLen.toNat = d.out.length ∧ t.result.toNat = d.reached ∧
        Store.Holds t.mem.sb (symbolsOf d.out) ∧ Store.SameFrom d.out.length s.mem.sb t.mem.sb) ∧
    (s.sbLen.toNat ≤ s.cfg.sbCap → s.sbLen.toNat = bits.length → Store.Holds s.mem.sb (symbolsOf bits) →
      ∃ t, exec i s = .next t ∧ t.status.err = false)

/-- R142, R146, R275, R39: behind a coded stream, a pair with a non-binary symbol raises INVALID_SYMBOL, a pair
with an unwritten entry is UNINIT at its first such entry (before INVALID_SYMBOL: the model's reading, assumption
14), and a binary equal pair ends decoding with desync whatever follows it, unwritten and non-binary entries
included. The bound is tested before a pair is read, so at the bound nothing that follows is examined. The phase
search of dmdec passes equal pairs, and raises INVALID_SYMBOL or UNINIT at a non-binary or unwritten symbol it then
meets, whatever the bound. -/
def Obligations.DecodersExamineOnlyWhatTheyConsume : Prop :=
  ∀ (bits : List Bool) (x y : Byte) (z : Bool) (u : Option Byte) (rest : List (Option Byte)),
    ((¬ (x = 0x00 ∨ x = 0x01) ∨ ¬ (y = 0x00 ∨ y = 0x01)) →
      mdec ((symbolsOf (man bits)).map some ++ some x :: some y :: rest) 0 none = .error (.error .invalidSymbol) ∧
      dmdec ((symbolsOf (dmenc bits)).map some ++ some x :: some y :: rest) 0 none =
        .error (.error .invalidSymbol)) ∧
    mdec ((symbolsOf (man bits)).map some ++ none :: u :: rest) 0 none =
      .error (.fault (.uninit .sb (2 * bits.length))) ∧
    dmdec ((symbolsOf (dmenc bits)).map some ++ none :: u :: rest) 0 none =
      .error (.fault (.uninit .sb (2 * bits.length))) ∧
    mdec ((symbolsOf (man bits)).map some ++ some x :: none :: rest) 0 none =
      .error (.fault (.uninit .sb (2 * bits.length + 1))) ∧
    dmdec ((symbolsOf (dmenc bits)).map some ++ some x :: none :: rest) 0 none =
      .error (.fault (.uninit .sb (2 * bits.length + 1))) ∧
    mdec ((symbolsOf (man bits)).map some ++ some (symbolOf z) :: some (symbolOf z) :: rest) 0 none =
      .ok { out := bits, reached := 2 * bits.length, desync := true } ∧
    (bits ≠ [] →
      dmdec ((symbolsOf (dmenc bits)).map some ++ some (symbolOf z) :: some (symbolOf z) :: rest) 0 none =
        .ok { out := bits, reached := 2 * bits.length, desync := true }) ∧
    mdec ((symbolsOf (man bits)).map some ++ rest) 0 (some bits.length) =
      .ok { out := bits, reached := 2 * bits.length, desync := false } ∧
    (bits ≠ [] →
      dmdec ((symbolsOf (dmenc bits)).map some ++ rest) 0 (some bits.length) =
        .ok { out := bits, reached := 2 * bits.length, desync := false }) ∧
    ∀ (n : Nat) (bound : Option Nat),
      (¬ (x = 0x00 ∨ x = 0x01) →
        dmdec (List.replicate (n + 1) (some (symbolOf z)) ++ some x :: rest) 0 bound =
          .error (.error .invalidSymbol)) ∧
      dmdec (List.replicate (n + 1) (some (symbolOf z)) ++ none :: rest) 0 bound =
        .error (.fault (.uninit .sb (n + 1)))

/-- R148: both line codes round trip on every binary sequence. -/
def Obligations.LineCodesRoundTrip : Prop :=
  ∀ s : List Bool,
    mdec ((symbolsOf (man s)).map some) 0 none = .ok { out := s, reached := 2 * s.length, desync := false } ∧
    dmdec ((symbolsOf (dmenc s)).map some) 0 none = .ok { out := s, reached := 2 * s.length, desync := false }

/-! ## The pulse encoder (42_pcm.md) -/

/-- R170: every pulse is at least 1, every gap but possibly the last is at least 1, the last gap is 0 exactly when
the input ends in 1, and there are at most ceil(n/2) pairs. -/
def Obligations.PulsePairShape : Prop :=
  ∀ s : List Bool,
    (∀ p ∈ pcmenc s, 1 ≤ p.1) ∧ (∀ p ∈ (pcmenc s).dropLast, 1 ≤ p.2) ∧
    (∀ p, (pcmenc s).getLast? = some p → (p.2 = 0 ↔ s.getLast? = some true)) ∧
    2 * (pcmenc s).length ≤ s.length + 1

/-- R171: PCM_ENC with every entry of SB[0..SB_LEN) written. -/
def Obligations.PcmEncodeToPulses : Prop :=
  ∀ (s : State) (xs : List Byte) (bits : List Bool), s.cfg.Valid →
    (s.cfg.sbCap < s.sbLen.toNat → exec .pcmEnc s = .next (endedBadly .capacity s)) ∧
    (s.sbLen.toNat ≤ s.cfg.sbCap → s.sbLen.toNat = xs.length → Store.Holds s.mem.sb xs →
      (∃ x ∈ xs, x ≠ 0x00 ∧ x ≠ 0x01) → exec .pcmEnc s = .next (endedBadly .invalidSymbol s)) ∧
    (s.sbLen.toNat ≤ s.cfg.sbCap → s.sbLen.toNat = bits.length → Store.Holds s.mem.sb (symbolsOf bits) →
      s.cfg.pbCap < (pcmenc bits).length → exec .pcmEnc s = .next (endedBadly .capacity s)) ∧
    (s.sbLen.toNat ≤ s.cfg.sbCap → s.sbLen.toNat = bits.length → Store.Holds s.mem.sb (symbolsOf bits) →
      (pcmenc bits).length ≤ s.cfg.pbCap →
      ∃ t, exec .pcmEnc s = .next t ∧
        t = { s with mem := { s.mem with pb := t.mem.pb }, pbLen := t.pbLen, eng := .idle,
                     status := endedWell false s } ∧
        t.pbLen.toNat = (pcmenc bits).length ∧
        (∀ (k p g : Nat), (pcmenc bits)[k]? = some (p, g) →
          (Store.get (2 * k) t.mem.pb).map BitVec.toNat = some p ∧
          (Store.get (2 * k + 1) t.mem.pb).map BitVec.toNat = some g) ∧
        Store.SameFrom (2 * (pcmenc bits).length) s.mem.pb t.mem.pb)

/-- R65, R173: the halves of a pair list are its pulses at even and its gaps at odd places; and PCM_DEC with every
half of PB[0..PB_LEN) written; the sum of widths does not wrap. -/
def Obligations.PcmDecodeToSymbols : Prop :=
  (∀ ps : List (Word × Word), (halves ps).length = 2 * ps.length ∧ ∀ (k : Nat) (a b : Word), ps[k]? = some (a, b) →
    (halves ps)[2 * k]? = some a ∧ (halves ps)[2 * k + 1]? = some b) ∧
  ∀ (s : State) (ps : List (Word × Word)), s.cfg.Valid →
    (s.cfg.pbCap < s.pbLen.toNat → exec .pcmDec s = .next (endedBadly .capacity s)) ∧
    (s.pbLen.toNat ≤ s.cfg.pbCap → s.pbLen.toNat = ps.length → Store.Holds s.mem.pb (halves ps) →
      s.cfg.sbCap < (ps.map fun p => p.1.toNat + p.2.toNat).sum →
      exec .pcmDec s = .next (endedBadly .capacity s)) ∧
    (s.pbLen.toNat ≤ s.cfg.pbCap → s.pbLen.toNat = ps.length → Store.Holds s.mem.pb (halves ps) →
      (ps.map fun p => p.1.toNat + p.2.toNat).sum ≤ s.cfg.sbCap →
      ∃ t, exec .pcmDec s = .next t ∧
        t = { s with mem := { s.mem with sb := t.mem.sb }, sbLen := t.sbLen, eng := .idle,
                     status := endedWell false s } ∧
        t.sbLen.toNat = (ps.map fun p => p.1.toNat + p.2.toNat).sum ∧
        Store.Holds t.mem.sb (ps.flatMap fun p =>
          List.replicate p.1.toNat 0x01 ++ List.replicate p.2.toNat 0x00) ∧
        Store.SameFrom t.sbLen.toNat s.mem.sb t.mem.sb)

/-- R174: pcmdec(pcmenc(s)) is s without its leading zero run, so it is s exactly when s is empty or begins
with 1; an all-zero s encodes to no pair and decodes to nothing. -/
def Obligations.PcmRoundTrip : Prop :=
  ∀ s : List Bool,
    pcmdec (pcmenc s) = s.dropWhile (fun b => !b) ∧
    (pcmdec (pcmenc s) = s ↔ (s = [] ∨ s[0]? = some true)) ∧
    ((∀ b ∈ s, b = false) → pcmenc s = [] ∧ pcmdec (pcmenc s) = [])

/-! ## Numbers (00_scope.md) -/

/-- R11: rhe is the nearest integer, and a tie goes to the even one. -/
def Obligations.RoundingIsHalfToEven : Prop :=
  ∀ (num : Int) (den : Nat), 0 < den →
    2 * |num - den * rhe num den| ≤ den ∧ (2 * |num - den * rhe num den| = den → rhe num den % 2 = 0)

/-- R12, R193, R200: which binary64 words are finite, and the exact value of every finite one, a subnormal (biased
exponent 0) included; then the rules' tables of pressure_raw, by binary64 word, and of Variant B's pressure byte. -/
def Obligations.PressureTables : Prop :=
  (∀ w : BitVec 64, f64Finite w = true ↔ w.extractLsb' 52 11 ≠ 0x7FF) ∧
  (∀ (w : BitVec 64) (e f : Nat) (sign : ℚ), f64Finite w = true →
    e = (w.extractLsb' 52 11).toNat → f = (w.extractLsb' 0 52).toNat → sign = (if w.getLsbD 63 then -1 else 1) →
    0 < (f64 w).den ∧
    ((f64 w).num : ℚ) / (f64 w).den =
      if e = 0 then sign * (f / 2 ^ 52) * (2 : ℚ) ^ (-1022 : Int)
      else sign * (1 + f / 2 ^ 52) * (2 : ℚ) ^ ((e : Int) - 1023)) ∧
  prawA (f64 0x0000000000000000) = 0 ∧ prawA (f64 0x3FD8000000000000) = 0 ∧
  prawA (f64 0x3FF2000000000000) = 2 ∧ prawA (f64 0x406B800000000000) = 293 ∧
  prawA (f64 0xBFD8000000000000) = 0 ∧ prawA (f64 0xBFF0000000000000) = -1 ∧
  prawA (f64 0x4067E80000000000) = 255 ∧ prawA (f64 0x4087FA0000000000) = 1023 ∧
  prawA (f64 0x412E848000000000) = 1333333 ∧ prawA (f64 0xBFE8000000000000) = -1 ∧
  pressureByteB 0 = 0 ∧ pressureByteB 1 = 1 ∧ pressureByteB 69 = 50 ∧ pressureByteB 138 = 100 ∧
  pressureByteB 293 = 0xD4 ∧ pressureByteB (-1) = 0xFF

/-- R6, R9, R68: a k-bit word leaves as k bits, its top bit first, and a byte sequence leaves byte by byte, each byte's
bit 7 first; bit 1 is the symbol 0x01 and bit 0 the symbol 0x00. -/
def Obligations.BitsLeaveMostSignificantFirst : Prop :=
  (∀ (n : Nat) (w : BitVec n), (bitsMSB w).length = n ∧ ∀ k < n, (bitsMSB w)[k]? = some (w.getLsbD (n - 1 - k))) ∧
  (∀ bytes : List Byte, (ser bytes).length = 8 * bytes.length ∧
    ∀ (i : Nat) (b : Byte), bytes[i]? = some b → ∀ k < 8, (ser bytes)[8 * i + k]? = some (b.getLsbD (7 - k))) ∧
  (∀ bits : List Bool, (symbolsOf bits).length = bits.length ∧
    ∀ (k : Nat) (b : Bool), bits[k]? = some b → (symbolsOf bits)[k]? = some (if b then 0x01 else 0x00))

/-! ## The frame builder (43_frame_builder.md) -/

/-- R195 to R198: ENC_A. After INVALID_NUMERIC, CACHE is as R273 allows it. -/
def Obligations.VariantAFrame : Prop :=
  ∀ (s : State) (df de : Bool) (praw : Int) (fl : Byte) (ex : BitVec 16) (data frame : List Byte),
    s.cfg.Valid →
    praw = rhe (4 * (f64 (s.pressHi ++ s.pressLo)).num) (3 * (f64 (s.pressHi ++ s.pressLo)).den) →
    fl = (if df then 54 else s.flags) → ex = (if de then 48153 else s.extra) →
    data = [(fl <<< 2) ||| (BitVec.ofInt 8 (praw / 256) &&& 3), BitVec.ofInt 8 praw,
      BitVec.ofInt 8 (s.temp.toInt + 30),
      s.sensorId.extractLsb' 0 8, s.sensorId.extractLsb' 8 8, s.sensorId.extractLsb' 16 8,
      ex.extractLsb' 0 8, ex.extractLsb' 8 8] →
    frame = data ++ [crc8 data 0x07 0x00] →
    (f64Finite (s.pressHi ++ s.pressLo) = false →
      EndsInError .invalidNumeric 0x07 s (exec (.encA df de) s)) ∧
    (f64Finite (s.pressHi ++ s.pressLo) = true →
      ∃ t, exec (.encA df de) s = .next t ∧
        t = { s with mem := { s.mem with fb := t.mem.fb, sb := t.mem.sb }, fbLen := 9, sbLen := 176,
                     cache := t.cache, eng := .idle, status := endedWell false s } ∧
        (∃ table, t.cache = some { poly := 0x07, table := table }) ∧
        Store.Holds t.mem.fb frame ∧ Store.SameFrom 9 s.mem.fb t.mem.fb ∧
        Store.Holds t.mem.sb (symbolsOf (bitsMSB s.cfg.preA ++ (man (ser frame)).map fun b => !b)) ∧
        Store.SameFrom 176 s.mem.sb t.mem.sb)

/-- R201 to R204: ENC_B, for whichever reading of pressure_raw the configuration has (R5, R193), the default among them
spelled out. It does not touch CACHE (R202), and its checksum is the XOR of the bytes before it. That another reading
is a function of the exact rational, so that -0.0 and +0.0 are alike, is the model's choice (log entry 10, DEDUCED). -/
def Obligations.VariantBFrame : Prop :=
  ∀ (s : State) (df de : Bool) (raw : Int) (fl unk : Byte) (data frame : List Byte),
    s.cfg.Valid →
    raw = praw s.cfg.prawB (f64 (s.pressHi ++ s.pressLo)) →
    fl = (if df then 80 else s.flags) → unk = (if de then 1 else s.extra.extractLsb' 0 8) →
    data = [s.sensorId.extractLsb' 24 8, s.sensorId.extractLsb' 16 8, s.sensorId.extractLsb' 8 8,
      s.sensorId.extractLsb' 0 8, fl, BitVec.ofInt 8 (rhe (100 * raw) 138),
      BitVec.ofInt 8 (s.temp.toInt + 50), unk] →
    frame = data ++ [xorAll data] →
    (s.cfg.prawB = .prawA →
      raw = rhe (4 * (f64 (s.pressHi ++ s.pressLo)).num) (3 * (f64 (s.pressHi ++ s.pressLo)).den)) ∧
    (∀ k, s.cfg.prawB = .other k →
      raw = Config.prawOther k (f64 (s.pressHi ++ s.pressLo)).num (f64 (s.pressHi ++ s.pressLo)).den) ∧
    (xorAll [] = 0 ∧ ∀ (xs : List Byte) (x : Byte), xorAll (xs ++ [x]) = xorAll xs ^^^ x) ∧
    (f64Finite (s.pressHi ++ s.pressLo) = false → exec (.encB df de) s = .next (endedBadly .invalidNumeric s)) ∧
    (f64Finite (s.pressHi ++ s.pressLo) = true →
      ∃ t, exec (.encB df de) s = .next t ∧
        t = { s with mem := { s.mem with fb := t.mem.fb, sb := t.mem.sb }, fbLen := 9, sbLen := 168,
                     eng := .idle, status := endedWell false s } ∧
        Store.Holds t.mem.fb frame ∧ Store.SameFrom 9 s.mem.fb t.mem.fb ∧
        Store.Holds t.mem.sb (symbolsOf (bitsMSB s.cfg.preB ++ (man (ser frame)).map fun b => !b)) ∧
        Store.SameFrom 168 s.mem.sb t.mem.sb)

/-- R205 to R210: ENC_C, for whichever reading of pressure_raw the configuration has (R5, R193), the default among them
spelled out. After INVALID_NUMERIC, CACHE is as R273 allows it. That another reading is a function of the exact
rational, so that -0.0 and +0.0 are alike, is the model's choice (log entry 10, DEDUCED). -/
def Obligations.VariantCFrame : Prop :=
  ∀ (s : State) (raw traw : Int) (data frame : List Byte),
    s.cfg.Valid →
    raw = praw s.cfg.prawC (f64 (s.pressHi ++ s.pressLo)) → traw = s.temp.toInt + 40 →
    data = [s.sensorId.extractLsb' 24 8, s.sensorId.extractLsb' 16 8, s.sensorId.extractLsb' 8 8,
      s.sensorId.extractLsb' 0 8, 0x80 ||| (BitVec.ofInt 8 (raw / 2) &&& 0x7F),
      ((BitVec.ofInt 8 raw &&& 1) <<< 7) ||| (BitVec.ofInt 8 (traw / 2) &&& 0x7F),
      ((BitVec.ofInt 8 traw &&& 1) <<< 7) ||| s.flags, BitVec.ofInt 8 raw ^^^ 0xFF] →
    frame = data ++ [crc8 data 0x07 0x80] →
    (s.cfg.prawC = .prawA →
      raw = rhe (4 * (f64 (s.pressHi ++ s.pressLo)).num) (3 * (f64 (s.pressHi ++ s.pressLo)).den)) ∧
    (∀ k, s.cfg.prawC = .other k →
      raw = Config.prawOther k (f64 (s.pressHi ++ s.pressLo)).num (f64 (s.pressHi ++ s.pressLo)).den) ∧
    (f64Finite (s.pressHi ++ s.pressLo) = false →
      EndsInError .invalidNumeric 0x07 s (exec .encC s)) ∧
    (f64Finite (s.pressHi ++ s.pressLo) = true →
      ∃ t, exec .encC s = .next t ∧
        t = { s with mem := { s.mem with fb := t.mem.fb, sb := t.mem.sb }, fbLen := 9, sbLen := 162,
                     cache := t.cache, eng := .idle, status := endedWell false s } ∧
        (∃ table, t.cache = some { poly := 0x07, table := table }) ∧
        Store.Holds t.mem.fb frame ∧ Store.SameFrom 9 s.mem.fb t.mem.fb ∧
        Store.Holds t.mem.sb (symbolsOf (bitsMSB s.cfg.preC ++ bitsMSB s.cfg.smC ++ dmenc (ser frame))) ∧
        Store.SameFrom 162 s.mem.sb t.mem.sb)

/-- R211 to R216: ENC_AX where no check fails. Pad byte i of the frame is as R212 gives it; the custom list needs
only its first min(BB_LEN, L − 9) entries written. -/
def Obligations.ExtendedFrame : Prop :=
  ∀ (s : State) (l : Nat) (pol : PadPolicy) (df de : Bool) (list : List Byte) (praw : Int) (fl : Byte)
    (ex : BitVec 16),
    praw = rhe (4 * (f64 (s.pressHi ++ s.pressLo)).num) (3 * (f64 (s.pressHi ++ s.pressLo)).den) →
    fl = (if df then 54 else s.flags) → ex = (if de then 48153 else s.extra) →
    s.cfg.Valid → 9 ≤ l → l ≤ s.cfg.fbCap → 32 + 16 * l ≤ s.cfg.sbCap →
    f64Finite (s.pressHi ++ s.pressLo) = true →
    (pol = .custom → 1 ≤ s.bbLen.toNat ∧ s.bbLen.toNat ≤ s.cfg.bbCap ∧
      list.length = min s.bbLen.toNat (l - 9) ∧ Store.Holds s.mem.bb list) →
    ∃ t body frame, exec (.encAx l pol df de) s = .next t ∧
      t = { s with mem := { s.mem with fb := t.mem.fb, sb := t.mem.sb }, fbLen := t.fbLen, sbLen := t.sbLen,
                   cache := t.cache, eng := .idle, status := endedWell false s } ∧
      t.fbLen.toNat = l ∧ t.sbLen.toNat = 32 + 16 * l ∧
      (∃ table, t.cache = some { poly := 0x07, table := table }) ∧
      body.length = l - 1 ∧ frame = body ++ [crc8 body 0x07 0x00] ∧
      body.take 8 = [(fl <<< 2) ||| (BitVec.ofInt 8 (praw / 256) &&& 3), BitVec.ofInt 8 praw,
        BitVec.ofInt 8 (s.temp.toInt + 30),
        s.sensorId.extractLsb' 0 8, s.sensorId.extractLsb' 8 8, s.sensorId.extractLsb' 16 8,
        ex.extractLsb' 0 8, ex.extractLsb' 8 8] ∧
      (∀ i, 8 ≤ i → i < l - 1 → body[i]? =
        match pol with
        | .repeatData => body[i % 8]?
        | .zero => some 0x00
        | .random => some (Config.padPrng s.sensorId (i - 8))
        | .custom => list[(i - 8) % s.bbLen.toNat]?) ∧
      Store.Holds t.mem.fb frame ∧ Store.SameFrom l s.mem.fb t.mem.fb ∧
      Store.Holds t.mem.sb (symbolsOf (bitsMSB s.cfg.preA ++ (man (ser frame)).map fun b => !b)) ∧
      Store.SameFrom (32 + 16 * l) s.mem.sb t.mem.sb

/-- R216, R278: the errors of ENC_AX, each where no earlier check of the order fails; CACHE is as R273 allows it. -/
def Obligations.ExtendedFrameErrorOrder : Prop :=
  ∀ (s : State) (l : Nat) (pol : PadPolicy) (df de : Bool),
    (pol = .custom → s.cfg.bbCap < s.bbLen.toNat →
      EndsInError .capacity 0x07 s (exec (.encAx l pol df de) s)) ∧
    ((pol = .custom → s.bbLen.toNat ≤ s.cfg.bbCap) →
      (l < 9 → EndsInError .frameTooShort 0x07 s (exec (.encAx l pol df de) s)) ∧
      (9 ≤ l → pol = .custom → s.bbLen.toNat = 0 →
        EndsInError .emptyPadList 0x07 s (exec (.encAx l pol df de) s)) ∧
      (9 ≤ l → (pol = .custom → s.bbLen.toNat ≠ 0) →
        (f64Finite (s.pressHi ++ s.pressLo) = false →
          EndsInError .invalidNumeric 0x07 s (exec (.encAx l pol df de) s)) ∧
        (f64Finite (s.pressHi ++ s.pressLo) = true → (s.cfg.fbCap < l ∨ s.cfg.sbCap < 32 + 16 * l) →
          EndsInError .capacity 0x07 s (exec (.encAx l pol df de) s))))

/-- R215: with L = 9 and any policy (the custom list not empty and within BB) ENC_AX is ENC_A. That their CACHE is
the same after INVALID_NUMERIC too is the model's choice (assumption 15). -/
def Obligations.NineByteExtendedFrameIsVariantA : Prop :=
  ∀ (s : State) (pol : PadPolicy) (df de : Bool), s.cfg.Valid →
    (pol = .custom → 1 ≤ s.bbLen.toNat ∧ s.bbLen.toNat ≤ s.cfg.bbCap) →
    exec (.encAx 9 pol df de) s = exec (.encA df de) s

/-- R196, R202, R208, R214: after a frame command without error, FB[0..FB_LEN) has CRC 0 with polynomial 0x07 and
init 0x00 (Variant A), XOR 0 (Variant B), CRC 0 with init 0x80 (Variant C). -/
def Obligations.FramesCarryTheirChecksum : Prop :=
  ∀ (s t : State) (i : Instr), s.cfg.Valid → writesFrame i = true → exec i s = .next t →
    t.status.err = false →
    ∃ frame, Store.Holds t.mem.fb frame ∧ t.fbLen.toNat = frame.length ∧ 9 ≤ frame.length ∧
      match i with
      | .encB _ _ => xorAll frame = 0
      | .encC => crc8 frame 0x07 0x80 = 0
      | _ => crc8 frame 0x07 0x00 = 0

/-- R199, R282: a finite pressure never makes a baseline frame command fail; a change of TEMP by a multiple of 256
changes nothing that any frame command does; and SENSOR_ID[31:24] changes nothing that ENC_A does, nor ENC_AX but with
the random policy, whose seed is the whole SENSOR_ID (R213). That the CACHE of the two outcomes is the same after an
error too is the model's choice (assumption 15). -/
def Obligations.FrameFieldsWrapSilently : Prop :=
  ∀ (s : State) (temp' sid' : Word),
    (f64Finite (s.pressHi ++ s.pressLo) = true → ∀ (df de : Bool) (i : Instr),
      i = .encA df de ∨ i = .encB df de ∨ i = .encC → ∃ t, exec i s = .next t ∧ t.status.err = false) ∧
    (temp'.toNat % 256 = s.temp.toNat % 256 → ∀ i, writesFrame i = true →
      (∀ t, exec i s = .next t → exec i { s with temp := temp' } = .next { t with temp := temp' }) ∧
      (∀ f, exec i s = .fault f → exec i { s with temp := temp' } = .fault f)) ∧
    (sid'.extractLsb' 0 24 = s.sensorId.extractLsb' 0 24 → ∀ (df de : Bool) (l : Nat) (pol : PadPolicy) (i : Instr),
      i = .encA df de ∨ (i = .encAx l pol df de ∧ pol ≠ .random) →
      (∀ t, exec i s = .next t → exec i { s with sensorId := sid' } = .next { t with sensorId := sid' }) ∧
      (∀ f, exec i s = .fault f → exec i { s with sensorId := sid' } = .fault f))

/-- R217, R218: FIT. It reads only the entries it keeps, and no symbol check is made. -/
def Obligations.FitInPlace : Prop :=
  ∀ (s : State) (ps : Bool) (kept : List Byte), s.cfg.Valid →
    (s.cfg.sbCap < s.sbLen.toNat → exec (.fit ps) s = .next (endedBadly .capacity s)) ∧
    (s.cfg.sbCap < s.fitLen.toNat → exec (.fit ps) s = .next (endedBadly .capacity s)) ∧
    (s.sbLen.toNat ≤ s.cfg.sbCap → s.fitLen.toNat ≤ s.cfg.sbCap →
      kept.length = min s.sbLen.toNat s.fitLen.toNat → Store.Holds s.mem.sb kept →
      ∃ t, exec (.fit ps) s = .next t ∧
        t = { s with mem := { s.mem with sb := t.mem.sb }, sbLen := s.fitLen, eng := .idle,
                     status := endedWell false s } ∧
        Store.Holds t.mem.sb
          (kept ++ List.replicate (s.fitLen.toNat - s.sbLen.toNat) (if ps then 0x01 else 0x00)) ∧
        Store.SameFrom s.fitLen.toNat s.mem.sb t.mem.sb)

/-! ## The FSK synthesiser (44_fsk.md) -/

/-- R240: the rule's table of samples per symbol. -/
def Obligations.SampleCountTable : Prop :=
  countOf 250000 52 = 13 ∧ countOf 1000000 52 = 52 ∧ countOf 2000000 26 = 52 ∧ countOf 48000 52 = 2 ∧
  countOf 1000 1500 = 2 ∧ countOf 1000 2500 = 2 ∧ countOf 1000 500 = 0 ∧ countOf 1000 499 = 0

/-- R241: a tone sample has modulus 1, and the first of a segment is 1. -/
def Obligations.TonesHaveUnitModulus : Prop :=
  ∀ (fs : Nat) (t : ToneSample) (c : ℂ), isTone fs t c → ‖c‖ = 1 ∧ (t.k = 0 → c = 1)

/-- R241, R243, R13: exactly one complex number is the shaped sample y[i], so SAMPLE_Q is applied to that number,
and it is Σ_{j=0}^{100} h[j]·v[i + 50 − j], where v[k] is cos θ + j·sin θ with θ = 2π·f·k'/FS for the unshaped sample
x[k] of frequency f and index k' in its segment, and 0 for k < 0 and k ≥ N. -/
def Obligations.ShapedSamplesAreDetermined : Prop :=
  ∀ (fs : Nat) (x : List ToneSample) (i : Nat),
    (∃! c : ℂ, isShaped fs x i c) ∧
    ∀ v : Int → ℂ,
      (∀ (k : Nat) (t : ToneSample), x[k]? = some t →
        v k = ⟨Real.cos (2 * Real.pi * t.freq * t.k / fs), Real.sin (2 * Real.pi * t.freq * t.k / fs)⟩) →
      (∀ k : Int, k < 0 ∨ (x.length : Int) ≤ k → v k = 0) →
      ∀ c : ℂ, isShaped fs x i c ↔ c = ∑ j : Fin 101, (Config.rcTaps j : ℂ) * v ((i : Int) + 50 - (j : Nat))

/-- R242 to R245: FSK_GEN with every half of PB[0..PB_LEN) written. Entry i of QB is SAMPLE_Q of y[i] below N and
(0, 0) from N on, whatever RC_TAPS and SAMPLE_Q are. -/
def Obligations.FskSynthesis : Prop :=
  ∀ (s : State) (ps : List (Word × Word)) (sps npad n : Nat), s.cfg.Valid →
    sps = (rhe (s.fsHz.toNat * s.symUs.toNat : Nat) 1000000).toNat →
    npad = (rhe (s.fsHz.toNat * s.padUs.toNat : Nat) 1000000).toNat →
    n = sps * (ps.map fun p => p.1.toNat + p.2.toNat).sum →
    (s.cfg.pbCap < s.pbLen.toNat → exec .fskGen s = .next (endedBadly .capacity s)) ∧
    (s.pbLen.toNat ≤ s.cfg.pbCap → s.fsHz = 0 → exec .fskGen s = .next (endedBadly .invalidNumeric s)) ∧
    (s.pbLen.toNat ≤ s.cfg.pbCap → s.fsHz ≠ 0 → s.pbLen.toNat = ps.length →
      Store.Holds s.mem.pb (halves ps) → s.cfg.qbCap < n + npad →
      exec .fskGen s = .next (endedBadly .capacity s)) ∧
    (s.pbLen.toNat ≤ s.cfg.pbCap → s.fsHz ≠ 0 → s.pbLen.toNat = ps.length →
      Store.Holds s.mem.pb (halves ps) → n + npad ≤ s.cfg.qbCap →
      ∃ t x, exec .fskGen s = .next t ∧
        t = { s with mem := { s.mem with qb := t.mem.qb }, qbLen := t.qbLen, eng := .idle,
                     status := endedWell false s } ∧
        t.qbLen.toNat = n + npad ∧
        x = (ps.flatMap fun p =>
          (List.range (p.1.toNat * sps)).map (ToneSample.mk s.markHz.toInt) ++
          (List.range (p.2.toNat * sps)).map (ToneSample.mk s.spaceHz.toInt)) ∧
        (∀ i < n, Store.get (2 * i) t.mem.qb = some (Config.sampleQ (isShaped s.fsHz.toNat x i)).1 ∧
          Store.get (2 * i + 1) t.mem.qb = some (Config.sampleQ (isShaped s.fsHz.toNat x i)).2) ∧
        (∀ i, n ≤ i → i < n + npad →
          Store.get (2 * i) t.mem.qb = some 0 ∧ Store.get (2 * i + 1) t.mem.qb = some 0) ∧
        Store.SameFrom (2 * (n + npad)) s.mem.qb t.mem.qb)

/-- R246: after an FSK_GEN without error, QB_LEN is SPS·Σ(pulse + gap) + NPAD, the last NPAD entries are (0, 0), and
the count does not depend on MARK_HZ or SPACE_HZ. -/
def Obligations.FskLengthLaw : Prop :=
  ∀ (s t : State) (mark space : Word), s.cfg.Valid → exec .fskGen s = .next t → t.status.err = false →
    (∃ ps, pulsePairs s s.pbLen.toNat = .ok ps ∧
      t.qbLen.toNat = countOf s.fsHz s.symUs * totalWidth ps + countOf s.fsHz s.padUs) ∧
    (∀ i, t.qbLen.toNat - countOf s.fsHz s.padUs ≤ i → i < t.qbLen.toNat →
      Store.get (2 * i) t.mem.qb = some 0 ∧ Store.get (2 * i + 1) t.mem.qb = some 0) ∧
    ∃ u, exec .fskGen { s with markHz := mark, spaceHz := space } = .next u ∧ u.status.err = false ∧
      u.qbLen = t.qbLen

/-! ## The whole machine -/

/-- R272, R273: a command that ends in error leaves every register but STATUS, every buffer entry and every written
mark as at acceptance. That it leaves CACHE too is the model's choice (assumption 15, DESIGN CHOICE): R273 allows
CACHE to hold T_p or its old content. -/
def Obligations.ErrorsAreAllOrNothing : Prop :=
  ∀ (i : Instr) (s t : State), exec i s = .next t → t.status.err = true →
    ∃ e, e ≠ .none ∧ t = endedBadly e s

/-- R22, last column, and R25, R27, R34: each command writes only its own outputs. Every operand register, BB, the
host's side and OVR are as they were, and no entry at or beyond a new length changes. -/
def Obligations.CommandsWriteOnlyTheirOutputs : Prop :=
  ∀ (i : Instr) (s t : State), s.cfg.Valid → exec i s = .next t →
    t = { s with result := t.result, sbLen := t.sbLen, pbLen := t.pbLen, fbLen := t.fbLen, qbLen := t.qbLen,
                 mem := { t.mem with bb := s.mem.bb }, cache := t.cache, eng := .idle, status := t.status } ∧
    t.status.ovr = s.status.ovr ∧ t.status.done = true ∧
    (writesResult i = false → t.result = s.result) ∧
    (writesSymbols i = false → t.sbLen = s.sbLen ∧ t.mem.sb = s.mem.sb) ∧
    (writesFrame i = false → t.fbLen = s.fbLen ∧ t.mem.fb = s.mem.fb) ∧
    (i ≠ .pcmEnc → t.pbLen = s.pbLen ∧ t.mem.pb = s.mem.pb) ∧
    (i ≠ .fskGen → t.qbLen = s.qbLen ∧ t.mem.qb = s.mem.qb) ∧
    Store.SameFrom t.sbLen.toNat s.mem.sb t.mem.sb ∧ Store.SameFrom t.fbLen.toNat s.mem.fb t.mem.fb ∧
    Store.SameFrom (2 * t.pbLen.toNat) s.mem.pb t.mem.pb ∧ Store.SameFrom (2 * t.qbLen.toNat) s.mem.qb t.mem.qb

/-- 93_implementation_defined.md, R93, R94: every command word has a meaning, so no step is refused. -/
def Obligations.StepsAreNeverRefused : Prop :=
  ∀ (s : State) (x : Refusal), step s ≠ .refused x

/-- R39, R284: a command faults only with UNINIT, and only where that entry was never written. -/
def Obligations.FaultsOnlyOnUnwrittenInput : Prop :=
  ∀ (i : Instr) (s : State) (f : Fault), exec i s = .fault f →
    ∃ k, (f = .uninit .bb k ∧ Store.get k s.mem.bb = none) ∨
      (f = .uninit .sb k ∧ Store.get k s.mem.sb = none) ∨
      (f = .uninit .pb k ∧ Store.get k s.mem.pb = none)

/-- R39, R284, R142, R146, R216, R218, R245: a command that reads an unwritten entry is UNINIT, at the first such
entry it reads. For the decoders that is entry k of the pair behind a coded stream that begins at DEC_OFF, the bound
allowing one more bit. -/
def Obligations.UnwrittenInputIsUninit : Prop :=
  ∀ (s : State) (k : Nat),
    (s.bbLen.toNat ≤ s.cfg.bbCap → k < s.bbLen.toNat → Store.get k s.mem.bb = none →
      (∀ j < k, Store.get j s.mem.bb ≠ none) →
      ∀ poly init, exec (.crc8 poly init) s = .fault (.uninit .bb k)) ∧
    (s.sbLen.toNat ≤ s.cfg.sbCap → k < s.sbLen.toNat → Store.get k s.mem.sb = none →
      (∀ j < k, Store.get j s.mem.sb ≠ none) →
      (∀ i, i = .manEnc ∨ i = .dmanEnc ∨ i = .pcmEnc → exec i s = .fault (.uninit .sb k)) ∧
      (s.fitLen.toNat ≤ s.cfg.sbCap → k < s.fitLen.toNat → ∀ ps, exec (.fit ps) s = .fault (.uninit .sb k))) ∧
    (s.pbLen.toNat ≤ s.cfg.pbCap → k < 2 * s.pbLen.toNat → Store.get k s.mem.pb = none →
      (∀ j < k, Store.get j s.mem.pb ≠ none) →
      exec .pcmDec s = .fault (.uninit .pb k) ∧ (s.fsHz ≠ 0 → exec .fskGen s = .fault (.uninit .pb k))) ∧
    (∀ (be : Bool) (bits stream : List Bool) (q : Nat) (i : Instr),
      (i = .manDec be ∧ stream = man bits) ∨ (i = .dmanDec be ∧ stream = dmenc bits) →
      q = s.decOff.toNat + 2 * bits.length → q + 2 ≤ s.sbLen.toNat → s.sbLen.toNat ≤ s.cfg.sbCap →
      (∀ j < stream.length, Store.get (s.decOff.toNat + j) s.mem.sb = (symbolsOf stream)[j]?) →
      (be = true → bits.length < s.decBound.toNat) → Store.get k s.mem.sb = none →
      (k = q ∨ (k = q + 1 ∧ Store.get q s.mem.sb ≠ none)) → exec i s = .fault (.uninit .sb k)) ∧
    (∀ (l : Nat) (df de : Bool), s.bbLen.toNat ≤ s.cfg.bbCap → k < min s.bbLen.toNat (l - 9) →
      l ≤ s.cfg.fbCap → 32 + 16 * l ≤ s.cfg.sbCap → f64Finite (s.pressHi ++ s.pressLo) = true →
      Store.get k s.mem.bb = none → (∀ j < k, Store.get j s.mem.bb ≠ none) →
      exec (.encAx l .custom df de) s = .fault (.uninit .bb k))

/-- R301, R302 and the model's choice of configuration (assumption 2): the invariant holds at reset. -/
def Obligations.InvariantHoldsAtReset : Prop := Inv State.reset

/-- R24, R35, R41, R61, R77: every step keeps the invariant, from every state that has it. -/
def Obligations.StepKeepsTheInvariant : Prop :=
  ∀ s t : State, Inv s → step s = .next t → Inv t

/-- R41, R123 (d), R303: the content of CACHE changes no step but in CACHE itself. -/
def Obligations.CacheIsUnobservable : Prop :=
  ∀ (s : State) (c : Option CrcCache),
    (∀ t, step s = .next t → ∃ c', step { s with cache := c } = .next { t with cache := c' }) ∧
    (∀ f, step s = .fault f → step { s with cache := c } = .fault f)
end

