-- ==== Sys2Proof/Laws/State.lean ====
section
/-! SUPPORT. What each named update of the state does to each field, true by rfl. -/

namespace Sys2Proof.Machine

/-! ## State.finish -/

@[simp] theorem State.finish_cfg (s : State) (d : Bool) :
    (s.finish d).cfg = s.cfg := rfl
@[simp] theorem State.finish_status (s : State) (d : Bool) :
    (s.finish d).status = s.status.succeeded d := rfl
@[simp] theorem State.finish_result (s : State) (d : Bool) :
    (s.finish d).result = s.result := rfl
@[simp] theorem State.finish_bbLen (s : State) (d : Bool) :
    (s.finish d).bbLen = s.bbLen := rfl
@[simp] theorem State.finish_sbLen (s : State) (d : Bool) :
    (s.finish d).sbLen = s.sbLen := rfl
@[simp] theorem State.finish_pbLen (s : State) (d : Bool) :
    (s.finish d).pbLen = s.pbLen := rfl
@[simp] theorem State.finish_fbLen (s : State) (d : Bool) :
    (s.finish d).fbLen = s.fbLen := rfl
@[simp] theorem State.finish_qbLen (s : State) (d : Bool) :
    (s.finish d).qbLen = s.qbLen := rfl
@[simp] theorem State.finish_decOff (s : State) (d : Bool) :
    (s.finish d).decOff = s.decOff := rfl
@[simp] theorem State.finish_decBound (s : State) (d : Bool) :
    (s.finish d).decBound = s.decBound := rfl
@[simp] theorem State.finish_fitLen (s : State) (d : Bool) :
    (s.finish d).fitLen = s.fitLen := rfl
@[simp] theorem State.finish_sensorId (s : State) (d : Bool) :
    (s.finish d).sensorId = s.sensorId := rfl
@[simp] theorem State.finish_pressLo (s : State) (d : Bool) :
    (s.finish d).pressLo = s.pressLo := rfl
@[simp] theorem State.finish_pressHi (s : State) (d : Bool) :
    (s.finish d).pressHi = s.pressHi := rfl
@[simp] theorem State.finish_temp (s : State) (d : Bool) :
    (s.finish d).temp = s.temp := rfl
@[simp] theorem State.finish_flags (s : State) (d : Bool) :
    (s.finish d).flags = s.flags := rfl
@[simp] theorem State.finish_extra (s : State) (d : Bool) :
    (s.finish d).extra = s.extra := rfl
@[simp] theorem State.finish_markHz (s : State) (d : Bool) :
    (s.finish d).markHz = s.markHz := rfl
@[simp] theorem State.finish_spaceHz (s : State) (d : Bool) :
    (s.finish d).spaceHz = s.spaceHz := rfl
@[simp] theorem State.finish_fsHz (s : State) (d : Bool) :
    (s.finish d).fsHz = s.fsHz := rfl
@[simp] theorem State.finish_symUs (s : State) (d : Bool) :
    (s.finish d).symUs = s.symUs := rfl
@[simp] theorem State.finish_padUs (s : State) (d : Bool) :
    (s.finish d).padUs = s.padUs := rfl
@[simp] theorem State.finish_mem (s : State) (d : Bool) :
    (s.finish d).mem = s.mem := rfl
@[simp] theorem State.finish_eng (s : State) (d : Bool) :
    (s.finish d).eng = .idle := rfl
@[simp] theorem State.finish_cache (s : State) (d : Bool) :
    (s.finish d).cache = s.cache := rfl
@[simp] theorem State.finish_host (s : State) (d : Bool) :
    (s.finish d).host = s.host := rfl
@[simp] theorem State.finish_reads (s : State) (d : Bool) :
    (s.finish d).reads = s.reads := rfl
@[simp] theorem State.finish_lag (s : State) (d : Bool) :
    (s.finish d).lag = s.lag := rfl
@[simp] theorem State.finish_draws (s : State) (d : Bool) :
    (s.finish d).draws = s.draws := rfl

/-! ## State.fail -/

@[simp] theorem State.fail_cfg (s : State) (e : ErrCode) :
    (s.fail e).cfg = s.cfg := rfl
@[simp] theorem State.fail_status (s : State) (e : ErrCode) :
    (s.fail e).status = s.status.failed e := rfl
@[simp] theorem State.fail_result (s : State) (e : ErrCode) :
    (s.fail e).result = s.result := rfl
@[simp] theorem State.fail_bbLen (s : State) (e : ErrCode) :
    (s.fail e).bbLen = s.bbLen := rfl
@[simp] theorem State.fail_sbLen (s : State) (e : ErrCode) :
    (s.fail e).sbLen = s.sbLen := rfl
@[simp] theorem State.fail_pbLen (s : State) (e : ErrCode) :
    (s.fail e).pbLen = s.pbLen := rfl
@[simp] theorem State.fail_fbLen (s : State) (e : ErrCode) :
    (s.fail e).fbLen = s.fbLen := rfl
@[simp] theorem State.fail_qbLen (s : State) (e : ErrCode) :
    (s.fail e).qbLen = s.qbLen := rfl
@[simp] theorem State.fail_decOff (s : State) (e : ErrCode) :
    (s.fail e).decOff = s.decOff := rfl
@[simp] theorem State.fail_decBound (s : State) (e : ErrCode) :
    (s.fail e).decBound = s.decBound := rfl
@[simp] theorem State.fail_fitLen (s : State) (e : ErrCode) :
    (s.fail e).fitLen = s.fitLen := rfl
@[simp] theorem State.fail_sensorId (s : State) (e : ErrCode) :
    (s.fail e).sensorId = s.sensorId := rfl
@[simp] theorem State.fail_pressLo (s : State) (e : ErrCode) :
    (s.fail e).pressLo = s.pressLo := rfl
@[simp] theorem State.fail_pressHi (s : State) (e : ErrCode) :
    (s.fail e).pressHi = s.pressHi := rfl
@[simp] theorem State.fail_temp (s : State) (e : ErrCode) :
    (s.fail e).temp = s.temp := rfl
@[simp] theorem State.fail_flags (s : State) (e : ErrCode) :
    (s.fail e).flags = s.flags := rfl
@[simp] theorem State.fail_extra (s : State) (e : ErrCode) :
    (s.fail e).extra = s.extra := rfl
@[simp] theorem State.fail_markHz (s : State) (e : ErrCode) :
    (s.fail e).markHz = s.markHz := rfl
@[simp] theorem State.fail_spaceHz (s : State) (e : ErrCode) :
    (s.fail e).spaceHz = s.spaceHz := rfl
@[simp] theorem State.fail_fsHz (s : State) (e : ErrCode) :
    (s.fail e).fsHz = s.fsHz := rfl
@[simp] theorem State.fail_symUs (s : State) (e : ErrCode) :
    (s.fail e).symUs = s.symUs := rfl
@[simp] theorem State.fail_padUs (s : State) (e : ErrCode) :
    (s.fail e).padUs = s.padUs := rfl
@[simp] theorem State.fail_mem (s : State) (e : ErrCode) :
    (s.fail e).mem = s.mem := rfl
@[simp] theorem State.fail_eng (s : State) (e : ErrCode) :
    (s.fail e).eng = .idle := rfl
@[simp] theorem State.fail_cache (s : State) (e : ErrCode) :
    (s.fail e).cache = s.cache := rfl
@[simp] theorem State.fail_host (s : State) (e : ErrCode) :
    (s.fail e).host = s.host := rfl
@[simp] theorem State.fail_reads (s : State) (e : ErrCode) :
    (s.fail e).reads = s.reads := rfl
@[simp] theorem State.fail_lag (s : State) (e : ErrCode) :
    (s.fail e).lag = s.lag := rfl
@[simp] theorem State.fail_draws (s : State) (e : ErrCode) :
    (s.fail e).draws = s.draws := rfl

/-! ## State.latch -/

@[simp] theorem State.latch_cfg (s : State) (w : Word) (n : Nat) :
    (s.latch w n).cfg = s.cfg := rfl
@[simp] theorem State.latch_status (s : State) (w : Word) (n : Nat) :
    (s.latch w n).status = s.status.accepted := rfl
@[simp] theorem State.latch_result (s : State) (w : Word) (n : Nat) :
    (s.latch w n).result = s.result := rfl
@[simp] theorem State.latch_bbLen (s : State) (w : Word) (n : Nat) :
    (s.latch w n).bbLen = s.bbLen := rfl
@[simp] theorem State.latch_sbLen (s : State) (w : Word) (n : Nat) :
    (s.latch w n).sbLen = s.sbLen := rfl
@[simp] theorem State.latch_pbLen (s : State) (w : Word) (n : Nat) :
    (s.latch w n).pbLen = s.pbLen := rfl
@[simp] theorem State.latch_fbLen (s : State) (w : Word) (n : Nat) :
    (s.latch w n).fbLen = s.fbLen := rfl
@[simp] theorem State.latch_qbLen (s : State) (w : Word) (n : Nat) :
    (s.latch w n).qbLen = s.qbLen := rfl
@[simp] theorem State.latch_decOff (s : State) (w : Word) (n : Nat) :
    (s.latch w n).decOff = s.decOff := rfl
@[simp] theorem State.latch_decBound (s : State) (w : Word) (n : Nat) :
    (s.latch w n).decBound = s.decBound := rfl
@[simp] theorem State.latch_fitLen (s : State) (w : Word) (n : Nat) :
    (s.latch w n).fitLen = s.fitLen := rfl
@[simp] theorem State.latch_sensorId (s : State) (w : Word) (n : Nat) :
    (s.latch w n).sensorId = s.sensorId := rfl
@[simp] theorem State.latch_pressLo (s : State) (w : Word) (n : Nat) :
    (s.latch w n).pressLo = s.pressLo := rfl
@[simp] theorem State.latch_pressHi (s : State) (w : Word) (n : Nat) :
    (s.latch w n).pressHi = s.pressHi := rfl
@[simp] theorem State.latch_temp (s : State) (w : Word) (n : Nat) :
    (s.latch w n).temp = s.temp := rfl
@[simp] theorem State.latch_flags (s : State) (w : Word) (n : Nat) :
    (s.latch w n).flags = s.flags := rfl
@[simp] theorem State.latch_extra (s : State) (w : Word) (n : Nat) :
    (s.latch w n).extra = s.extra := rfl
@[simp] theorem State.latch_markHz (s : State) (w : Word) (n : Nat) :
    (s.latch w n).markHz = s.markHz := rfl
@[simp] theorem State.latch_spaceHz (s : State) (w : Word) (n : Nat) :
    (s.latch w n).spaceHz = s.spaceHz := rfl
@[simp] theorem State.latch_fsHz (s : State) (w : Word) (n : Nat) :
    (s.latch w n).fsHz = s.fsHz := rfl
@[simp] theorem State.latch_symUs (s : State) (w : Word) (n : Nat) :
    (s.latch w n).symUs = s.symUs := rfl
@[simp] theorem State.latch_padUs (s : State) (w : Word) (n : Nat) :
    (s.latch w n).padUs = s.padUs := rfl
@[simp] theorem State.latch_mem (s : State) (w : Word) (n : Nat) :
    (s.latch w n).mem = s.mem := rfl
@[simp] theorem State.latch_eng (s : State) (w : Word) (n : Nat) :
    (s.latch w n).eng = .busy w := rfl
@[simp] theorem State.latch_cache (s : State) (w : Word) (n : Nat) :
    (s.latch w n).cache = s.cache := rfl
@[simp] theorem State.latch_host (s : State) (w : Word) (n : Nat) :
    (s.latch w n).host = s.host := rfl
@[simp] theorem State.latch_reads (s : State) (w : Word) (n : Nat) :
    (s.latch w n).reads = s.reads := rfl
@[simp] theorem State.latch_lag (s : State) (w : Word) (n : Nat) :
    (s.latch w n).lag = n := rfl
@[simp] theorem State.latch_draws (s : State) (w : Word) (n : Nat) :
    (s.latch w n).draws = s.draws := rfl

/-! ## State.accept -/

@[simp] theorem State.accept_cfg (s : State) (w : Word) :
    (s.accept w).cfg = s.cfg := rfl
@[simp] theorem State.accept_status (s : State) (w : Word) :
    (s.accept w).status = s.status.accepted := rfl
@[simp] theorem State.accept_result (s : State) (w : Word) :
    (s.accept w).result = s.result := rfl
@[simp] theorem State.accept_bbLen (s : State) (w : Word) :
    (s.accept w).bbLen = s.bbLen := rfl
@[simp] theorem State.accept_sbLen (s : State) (w : Word) :
    (s.accept w).sbLen = s.sbLen := rfl
@[simp] theorem State.accept_pbLen (s : State) (w : Word) :
    (s.accept w).pbLen = s.pbLen := rfl
@[simp] theorem State.accept_fbLen (s : State) (w : Word) :
    (s.accept w).fbLen = s.fbLen := rfl
@[simp] theorem State.accept_qbLen (s : State) (w : Word) :
    (s.accept w).qbLen = s.qbLen := rfl
@[simp] theorem State.accept_decOff (s : State) (w : Word) :
    (s.accept w).decOff = s.decOff := rfl
@[simp] theorem State.accept_decBound (s : State) (w : Word) :
    (s.accept w).decBound = s.decBound := rfl
@[simp] theorem State.accept_fitLen (s : State) (w : Word) :
    (s.accept w).fitLen = s.fitLen := rfl
@[simp] theorem State.accept_sensorId (s : State) (w : Word) :
    (s.accept w).sensorId = s.sensorId := rfl
@[simp] theorem State.accept_pressLo (s : State) (w : Word) :
    (s.accept w).pressLo = s.pressLo := rfl
@[simp] theorem State.accept_pressHi (s : State) (w : Word) :
    (s.accept w).pressHi = s.pressHi := rfl
@[simp] theorem State.accept_temp (s : State) (w : Word) :
    (s.accept w).temp = s.temp := rfl
@[simp] theorem State.accept_flags (s : State) (w : Word) :
    (s.accept w).flags = s.flags := rfl
@[simp] theorem State.accept_extra (s : State) (w : Word) :
    (s.accept w).extra = s.extra := rfl
@[simp] theorem State.accept_markHz (s : State) (w : Word) :
    (s.accept w).markHz = s.markHz := rfl
@[simp] theorem State.accept_spaceHz (s : State) (w : Word) :
    (s.accept w).spaceHz = s.spaceHz := rfl
@[simp] theorem State.accept_fsHz (s : State) (w : Word) :
    (s.accept w).fsHz = s.fsHz := rfl
@[simp] theorem State.accept_symUs (s : State) (w : Word) :
    (s.accept w).symUs = s.symUs := rfl
@[simp] theorem State.accept_padUs (s : State) (w : Word) :
    (s.accept w).padUs = s.padUs := rfl
@[simp] theorem State.accept_mem (s : State) (w : Word) :
    (s.accept w).mem = s.mem := rfl
@[simp] theorem State.accept_eng (s : State) (w : Word) :
    (s.accept w).eng = .busy w := rfl
@[simp] theorem State.accept_cache (s : State) (w : Word) :
    (s.accept w).cache = s.cache := rfl
@[simp] theorem State.accept_host (s : State) (w : Word) :
    (s.accept w).host = s.host := rfl
@[simp] theorem State.accept_reads (s : State) (w : Word) :
    (s.accept w).reads = s.reads := rfl
@[simp] theorem State.accept_lag (s : State) (w : Word) :
    (s.accept w).lag = Config.latency s.draws := rfl
@[simp] theorem State.accept_draws (s : State) (w : Word) :
    (s.accept w).draws = s.draws + 1 := rfl

/-! ## State.usedCrc -/

@[simp] theorem State.usedCrc_cfg (s : State) (p : Byte) :
    (s.usedCrc p).cfg = s.cfg := rfl
@[simp] theorem State.usedCrc_status (s : State) (p : Byte) :
    (s.usedCrc p).status = s.status := rfl
@[simp] theorem State.usedCrc_result (s : State) (p : Byte) :
    (s.usedCrc p).result = s.result := rfl
@[simp] theorem State.usedCrc_bbLen (s : State) (p : Byte) :
    (s.usedCrc p).bbLen = s.bbLen := rfl
@[simp] theorem State.usedCrc_sbLen (s : State) (p : Byte) :
    (s.usedCrc p).sbLen = s.sbLen := rfl
@[simp] theorem State.usedCrc_pbLen (s : State) (p : Byte) :
    (s.usedCrc p).pbLen = s.pbLen := rfl
@[simp] theorem State.usedCrc_fbLen (s : State) (p : Byte) :
    (s.usedCrc p).fbLen = s.fbLen := rfl
@[simp] theorem State.usedCrc_qbLen (s : State) (p : Byte) :
    (s.usedCrc p).qbLen = s.qbLen := rfl
@[simp] theorem State.usedCrc_decOff (s : State) (p : Byte) :
    (s.usedCrc p).decOff = s.decOff := rfl
@[simp] theorem State.usedCrc_decBound (s : State) (p : Byte) :
    (s.usedCrc p).decBound = s.decBound := rfl
@[simp] theorem State.usedCrc_fitLen (s : State) (p : Byte) :
    (s.usedCrc p).fitLen = s.fitLen := rfl
@[simp] theorem State.usedCrc_sensorId (s : State) (p : Byte) :
    (s.usedCrc p).sensorId = s.sensorId := rfl
@[simp] theorem State.usedCrc_pressLo (s : State) (p : Byte) :
    (s.usedCrc p).pressLo = s.pressLo := rfl
@[simp] theorem State.usedCrc_pressHi (s : State) (p : Byte) :
    (s.usedCrc p).pressHi = s.pressHi := rfl
@[simp] theorem State.usedCrc_temp (s : State) (p : Byte) :
    (s.usedCrc p).temp = s.temp := rfl
@[simp] theorem State.usedCrc_flags (s : State) (p : Byte) :
    (s.usedCrc p).flags = s.flags := rfl
@[simp] theorem State.usedCrc_extra (s : State) (p : Byte) :
    (s.usedCrc p).extra = s.extra := rfl
@[simp] theorem State.usedCrc_markHz (s : State) (p : Byte) :
    (s.usedCrc p).markHz = s.markHz := rfl
@[simp] theorem State.usedCrc_spaceHz (s : State) (p : Byte) :
    (s.usedCrc p).spaceHz = s.spaceHz := rfl
@[simp] theorem State.usedCrc_fsHz (s : State) (p : Byte) :
    (s.usedCrc p).fsHz = s.fsHz := rfl
@[simp] theorem State.usedCrc_symUs (s : State) (p : Byte) :
    (s.usedCrc p).symUs = s.symUs := rfl
@[simp] theorem State.usedCrc_padUs (s : State) (p : Byte) :
    (s.usedCrc p).padUs = s.padUs := rfl
@[simp] theorem State.usedCrc_mem (s : State) (p : Byte) :
    (s.usedCrc p).mem = s.mem := rfl
@[simp] theorem State.usedCrc_eng (s : State) (p : Byte) :
    (s.usedCrc p).eng = s.eng := rfl
@[simp] theorem State.usedCrc_cache (s : State) (p : Byte) :
    (s.usedCrc p).cache = fillCache p s.cache := rfl
@[simp] theorem State.usedCrc_host (s : State) (p : Byte) :
    (s.usedCrc p).host = s.host := rfl
@[simp] theorem State.usedCrc_reads (s : State) (p : Byte) :
    (s.usedCrc p).reads = s.reads := rfl
@[simp] theorem State.usedCrc_lag (s : State) (p : Byte) :
    (s.usedCrc p).lag = s.lag := rfl
@[simp] theorem State.usedCrc_draws (s : State) (p : Byte) :
    (s.usedCrc p).draws = s.draws := rfl

/-! ## State.putFrame -/

@[simp] theorem State.putFrame_cfg (s : State) (f o : List Byte) :
    (s.putFrame f o).cfg = s.cfg := rfl
@[simp] theorem State.putFrame_status (s : State) (f o : List Byte) :
    (s.putFrame f o).status = s.status := rfl
@[simp] theorem State.putFrame_result (s : State) (f o : List Byte) :
    (s.putFrame f o).result = s.result := rfl
@[simp] theorem State.putFrame_bbLen (s : State) (f o : List Byte) :
    (s.putFrame f o).bbLen = s.bbLen := rfl
@[simp] theorem State.putFrame_sbLen (s : State) (f o : List Byte) :
    (s.putFrame f o).sbLen = BitVec.ofNat 32 o.length := rfl
@[simp] theorem State.putFrame_pbLen (s : State) (f o : List Byte) :
    (s.putFrame f o).pbLen = s.pbLen := rfl
@[simp] theorem State.putFrame_fbLen (s : State) (f o : List Byte) :
    (s.putFrame f o).fbLen = BitVec.ofNat 32 f.length := rfl
@[simp] theorem State.putFrame_qbLen (s : State) (f o : List Byte) :
    (s.putFrame f o).qbLen = s.qbLen := rfl
@[simp] theorem State.putFrame_decOff (s : State) (f o : List Byte) :
    (s.putFrame f o).decOff = s.decOff := rfl
@[simp] theorem State.putFrame_decBound (s : State) (f o : List Byte) :
    (s.putFrame f o).decBound = s.decBound := rfl
@[simp] theorem State.putFrame_fitLen (s : State) (f o : List Byte) :
    (s.putFrame f o).fitLen = s.fitLen := rfl
@[simp] theorem State.putFrame_sensorId (s : State) (f o : List Byte) :
    (s.putFrame f o).sensorId = s.sensorId := rfl
@[simp] theorem State.putFrame_pressLo (s : State) (f o : List Byte) :
    (s.putFrame f o).pressLo = s.pressLo := rfl
@[simp] theorem State.putFrame_pressHi (s : State) (f o : List Byte) :
    (s.putFrame f o).pressHi = s.pressHi := rfl
@[simp] theorem State.putFrame_temp (s : State) (f o : List Byte) :
    (s.putFrame f o).temp = s.temp := rfl
@[simp] theorem State.putFrame_flags (s : State) (f o : List Byte) :
    (s.putFrame f o).flags = s.flags := rfl
@[simp] theorem State.putFrame_extra (s : State) (f o : List Byte) :
    (s.putFrame f o).extra = s.extra := rfl
@[simp] theorem State.putFrame_markHz (s : State) (f o : List Byte) :
    (s.putFrame f o).markHz = s.markHz := rfl
@[simp] theorem State.putFrame_spaceHz (s : State) (f o : List Byte) :
    (s.putFrame f o).spaceHz = s.spaceHz := rfl
@[simp] theorem State.putFrame_fsHz (s : State) (f o : List Byte) :
    (s.putFrame f o).fsHz = s.fsHz := rfl
@[simp] theorem State.putFrame_symUs (s : State) (f o : List Byte) :
    (s.putFrame f o).symUs = s.symUs := rfl
@[simp] theorem State.putFrame_padUs (s : State) (f o : List Byte) :
    (s.putFrame f o).padUs = s.padUs := rfl
@[simp] theorem State.putFrame_mem (s : State) (f o : List Byte) :
    (s.putFrame f o).mem = { s.mem with fb := Store.blit f s.mem.fb, sb := Store.blit o s.mem.sb } := rfl
@[simp] theorem State.putFrame_eng (s : State) (f o : List Byte) :
    (s.putFrame f o).eng = s.eng := rfl
@[simp] theorem State.putFrame_cache (s : State) (f o : List Byte) :
    (s.putFrame f o).cache = s.cache := rfl
@[simp] theorem State.putFrame_host (s : State) (f o : List Byte) :
    (s.putFrame f o).host = s.host := rfl
@[simp] theorem State.putFrame_reads (s : State) (f o : List Byte) :
    (s.putFrame f o).reads = s.reads := rfl
@[simp] theorem State.putFrame_lag (s : State) (f o : List Byte) :
    (s.putFrame f o).lag = s.lag := rfl
@[simp] theorem State.putFrame_draws (s : State) (f o : List Byte) :
    (s.putFrame f o).draws = s.draws := rfl

/-! ## State.putSymbols -/

@[simp] theorem State.putSymbols_cfg (s : State) (o : List Byte) :
    (s.putSymbols o).cfg = s.cfg := rfl
@[simp] theorem State.putSymbols_status (s : State) (o : List Byte) :
    (s.putSymbols o).status = s.status := rfl
@[simp] theorem State.putSymbols_result (s : State) (o : List Byte) :
    (s.putSymbols o).result = s.result := rfl
@[simp] theorem State.putSymbols_bbLen (s : State) (o : List Byte) :
    (s.putSymbols o).bbLen = s.bbLen := rfl
@[simp] theorem State.putSymbols_sbLen (s : State) (o : List Byte) :
    (s.putSymbols o).sbLen = BitVec.ofNat 32 o.length := rfl
@[simp] theorem State.putSymbols_pbLen (s : State) (o : List Byte) :
    (s.putSymbols o).pbLen = s.pbLen := rfl
@[simp] theorem State.putSymbols_fbLen (s : State) (o : List Byte) :
    (s.putSymbols o).fbLen = s.fbLen := rfl
@[simp] theorem State.putSymbols_qbLen (s : State) (o : List Byte) :
    (s.putSymbols o).qbLen = s.qbLen := rfl
@[simp] theorem State.putSymbols_decOff (s : State) (o : List Byte) :
    (s.putSymbols o).decOff = s.decOff := rfl
@[simp] theorem State.putSymbols_decBound (s : State) (o : List Byte) :
    (s.putSymbols o).decBound = s.decBound := rfl
@[simp] theorem State.putSymbols_fitLen (s : State) (o : List Byte) :
    (s.putSymbols o).fitLen = s.fitLen := rfl
@[simp] theorem State.putSymbols_sensorId (s : State) (o : List Byte) :
    (s.putSymbols o).sensorId = s.sensorId := rfl
@[simp] theorem State.putSymbols_pressLo (s : State) (o : List Byte) :
    (s.putSymbols o).pressLo = s.pressLo := rfl
@[simp] theorem State.putSymbols_pressHi (s : State) (o : List Byte) :
    (s.putSymbols o).pressHi = s.pressHi := rfl
@[simp] theorem State.putSymbols_temp (s : State) (o : List Byte) :
    (s.putSymbols o).temp = s.temp := rfl
@[simp] theorem State.putSymbols_flags (s : State) (o : List Byte) :
    (s.putSymbols o).flags = s.flags := rfl
@[simp] theorem State.putSymbols_extra (s : State) (o : List Byte) :
    (s.putSymbols o).extra = s.extra := rfl
@[simp] theorem State.putSymbols_markHz (s : State) (o : List Byte) :
    (s.putSymbols o).markHz = s.markHz := rfl
@[simp] theorem State.putSymbols_spaceHz (s : State) (o : List Byte) :
    (s.putSymbols o).spaceHz = s.spaceHz := rfl
@[simp] theorem State.putSymbols_fsHz (s : State) (o : List Byte) :
    (s.putSymbols o).fsHz = s.fsHz := rfl
@[simp] theorem State.putSymbols_symUs (s : State) (o : List Byte) :
    (s.putSymbols o).symUs = s.symUs := rfl
@[simp] theorem State.putSymbols_padUs (s : State) (o : List Byte) :
    (s.putSymbols o).padUs = s.padUs := rfl
@[simp] theorem State.putSymbols_mem (s : State) (o : List Byte) :
    (s.putSymbols o).mem = { s.mem with sb := Store.blit o s.mem.sb } := rfl
@[simp] theorem State.putSymbols_eng (s : State) (o : List Byte) :
    (s.putSymbols o).eng = s.eng := rfl
@[simp] theorem State.putSymbols_cache (s : State) (o : List Byte) :
    (s.putSymbols o).cache = s.cache := rfl
@[simp] theorem State.putSymbols_host (s : State) (o : List Byte) :
    (s.putSymbols o).host = s.host := rfl
@[simp] theorem State.putSymbols_reads (s : State) (o : List Byte) :
    (s.putSymbols o).reads = s.reads := rfl
@[simp] theorem State.putSymbols_lag (s : State) (o : List Byte) :
    (s.putSymbols o).lag = s.lag := rfl
@[simp] theorem State.putSymbols_draws (s : State) (o : List Byte) :
    (s.putSymbols o).draws = s.draws := rfl

/-! ## State.putPulses -/

@[simp] theorem State.putPulses_cfg (s : State) (ps : List (Word × Word)) :
    (s.putPulses ps).cfg = s.cfg := rfl
@[simp] theorem State.putPulses_status (s : State) (ps : List (Word × Word)) :
    (s.putPulses ps).status = s.status := rfl
@[simp] theorem State.putPulses_result (s : State) (ps : List (Word × Word)) :
    (s.putPulses ps).result = s.result := rfl
@[simp] theorem State.putPulses_bbLen (s : State) (ps : List (Word × Word)) :
    (s.putPulses ps).bbLen = s.bbLen := rfl
@[simp] theorem State.putPulses_sbLen (s : State) (ps : List (Word × Word)) :
    (s.putPulses ps).sbLen = s.sbLen := rfl
@[simp] theorem State.putPulses_pbLen (s : State) (ps : List (Word × Word)) :
    (s.putPulses ps).pbLen = BitVec.ofNat 32 ps.length := rfl
@[simp] theorem State.putPulses_fbLen (s : State) (ps : List (Word × Word)) :
    (s.putPulses ps).fbLen = s.fbLen := rfl
@[simp] theorem State.putPulses_qbLen (s : State) (ps : List (Word × Word)) :
    (s.putPulses ps).qbLen = s.qbLen := rfl
@[simp] theorem State.putPulses_decOff (s : State) (ps : List (Word × Word)) :
    (s.putPulses ps).decOff = s.decOff := rfl
@[simp] theorem State.putPulses_decBound (s : State) (ps : List (Word × Word)) :
    (s.putPulses ps).decBound = s.decBound := rfl
@[simp] theorem State.putPulses_fitLen (s : State) (ps : List (Word × Word)) :
    (s.putPulses ps).fitLen = s.fitLen := rfl
@[simp] theorem State.putPulses_sensorId (s : State) (ps : List (Word × Word)) :
    (s.putPulses ps).sensorId = s.sensorId := rfl
@[simp] theorem State.putPulses_pressLo (s : State) (ps : List (Word × Word)) :
    (s.putPulses ps).pressLo = s.pressLo := rfl
@[simp] theorem State.putPulses_pressHi (s : State) (ps : List (Word × Word)) :
    (s.putPulses ps).pressHi = s.pressHi := rfl
@[simp] theorem State.putPulses_temp (s : State) (ps : List (Word × Word)) :
    (s.putPulses ps).temp = s.temp := rfl
@[simp] theorem State.putPulses_flags (s : State) (ps : List (Word × Word)) :
    (s.putPulses ps).flags = s.flags := rfl
@[simp] theorem State.putPulses_extra (s : State) (ps : List (Word × Word)) :
    (s.putPulses ps).extra = s.extra := rfl
@[simp] theorem State.putPulses_markHz (s : State) (ps : List (Word × Word)) :
    (s.putPulses ps).markHz = s.markHz := rfl
@[simp] theorem State.putPulses_spaceHz (s : State) (ps : List (Word × Word)) :
    (s.putPulses ps).spaceHz = s.spaceHz := rfl
@[simp] theorem State.putPulses_fsHz (s : State) (ps : List (Word × Word)) :
    (s.putPulses ps).fsHz = s.fsHz := rfl
@[simp] theorem State.putPulses_symUs (s : State) (ps : List (Word × Word)) :
    (s.putPulses ps).symUs = s.symUs := rfl
@[simp] theorem State.putPulses_padUs (s : State) (ps : List (Word × Word)) :
    (s.putPulses ps).padUs = s.padUs := rfl
@[simp] theorem State.putPulses_mem (s : State) (ps : List (Word × Word)) :
    (s.putPulses ps).mem = { s.mem with pb := Store.blit (halves ps) s.mem.pb } := rfl
@[simp] theorem State.putPulses_eng (s : State) (ps : List (Word × Word)) :
    (s.putPulses ps).eng = s.eng := rfl
@[simp] theorem State.putPulses_cache (s : State) (ps : List (Word × Word)) :
    (s.putPulses ps).cache = s.cache := rfl
@[simp] theorem State.putPulses_host (s : State) (ps : List (Word × Word)) :
    (s.putPulses ps).host = s.host := rfl
@[simp] theorem State.putPulses_reads (s : State) (ps : List (Word × Word)) :
    (s.putPulses ps).reads = s.reads := rfl
@[simp] theorem State.putPulses_lag (s : State) (ps : List (Word × Word)) :
    (s.putPulses ps).lag = s.lag := rfl
@[simp] theorem State.putPulses_draws (s : State) (ps : List (Word × Word)) :
    (s.putPulses ps).draws = s.draws := rfl

/-! ## State.putSamples -/

@[simp] theorem State.putSamples_cfg (s : State) (zs : List (Word × Word)) :
    (s.putSamples zs).cfg = s.cfg := rfl
@[simp] theorem State.putSamples_status (s : State) (zs : List (Word × Word)) :
    (s.putSamples zs).status = s.status := rfl
@[simp] theorem State.putSamples_result (s : State) (zs : List (Word × Word)) :
    (s.putSamples zs).result = s.result := rfl
@[simp] theorem State.putSamples_bbLen (s : State) (zs : List (Word × Word)) :
    (s.putSamples zs).bbLen = s.bbLen := rfl
@[simp] theorem State.putSamples_sbLen (s : State) (zs : List (Word × Word)) :
    (s.putSamples zs).sbLen = s.sbLen := rfl
@[simp] theorem State.putSamples_pbLen (s : State) (zs : List (Word × Word)) :
    (s.putSamples zs).pbLen = s.pbLen := rfl
@[simp] theorem State.putSamples_fbLen (s : State) (zs : List (Word × Word)) :
    (s.putSamples zs).fbLen = s.fbLen := rfl
@[simp] theorem State.putSamples_qbLen (s : State) (zs : List (Word × Word)) :
    (s.putSamples zs).qbLen = BitVec.ofNat 32 zs.length := rfl
@[simp] theorem State.putSamples_decOff (s : State) (zs : List (Word × Word)) :
    (s.putSamples zs).decOff = s.decOff := rfl
@[simp] theorem State.putSamples_decBound (s : State) (zs : List (Word × Word)) :
    (s.putSamples zs).decBound = s.decBound := rfl
@[simp] theorem State.putSamples_fitLen (s : State) (zs : List (Word × Word)) :
    (s.putSamples zs).fitLen = s.fitLen := rfl
@[simp] theorem State.putSamples_sensorId (s : State) (zs : List (Word × Word)) :
    (s.putSamples zs).sensorId = s.sensorId := rfl
@[simp] theorem State.putSamples_pressLo (s : State) (zs : List (Word × Word)) :
    (s.putSamples zs).pressLo = s.pressLo := rfl
@[simp] theorem State.putSamples_pressHi (s : State) (zs : List (Word × Word)) :
    (s.putSamples zs).pressHi = s.pressHi := rfl
@[simp] theorem State.putSamples_temp (s : State) (zs : List (Word × Word)) :
    (s.putSamples zs).temp = s.temp := rfl
@[simp] theorem State.putSamples_flags (s : State) (zs : List (Word × Word)) :
    (s.putSamples zs).flags = s.flags := rfl
@[simp] theorem State.putSamples_extra (s : State) (zs : List (Word × Word)) :
    (s.putSamples zs).extra = s.extra := rfl
@[simp] theorem State.putSamples_markHz (s : State) (zs : List (Word × Word)) :
    (s.putSamples zs).markHz = s.markHz := rfl
@[simp] theorem State.putSamples_spaceHz (s : State) (zs : List (Word × Word)) :
    (s.putSamples zs).spaceHz = s.spaceHz := rfl
@[simp] theorem State.putSamples_fsHz (s : State) (zs : List (Word × Word)) :
    (s.putSamples zs).fsHz = s.fsHz := rfl
@[simp] theorem State.putSamples_symUs (s : State) (zs : List (Word × Word)) :
    (s.putSamples zs).symUs = s.symUs := rfl
@[simp] theorem State.putSamples_padUs (s : State) (zs : List (Word × Word)) :
    (s.putSamples zs).padUs = s.padUs := rfl
@[simp] theorem State.putSamples_mem (s : State) (zs : List (Word × Word)) :
    (s.putSamples zs).mem = { s.mem with qb := Store.blit (halves zs) s.mem.qb } := rfl
@[simp] theorem State.putSamples_eng (s : State) (zs : List (Word × Word)) :
    (s.putSamples zs).eng = s.eng := rfl
@[simp] theorem State.putSamples_cache (s : State) (zs : List (Word × Word)) :
    (s.putSamples zs).cache = s.cache := rfl
@[simp] theorem State.putSamples_host (s : State) (zs : List (Word × Word)) :
    (s.putSamples zs).host = s.host := rfl
@[simp] theorem State.putSamples_reads (s : State) (zs : List (Word × Word)) :
    (s.putSamples zs).reads = s.reads := rfl
@[simp] theorem State.putSamples_lag (s : State) (zs : List (Word × Word)) :
    (s.putSamples zs).lag = s.lag := rfl
@[simp] theorem State.putSamples_draws (s : State) (zs : List (Word × Word)) :
    (s.putSamples zs).draws = s.draws := rfl

/-! ## State.powerOn -/

@[simp] theorem State.powerOn_cfg (s : State) :
    (s.powerOn).cfg = s.cfg := rfl
@[simp] theorem State.powerOn_status (s : State) :
    (s.powerOn).status = { done := false, desync := false, err := false, ovr := false, ecode := .none } := rfl
@[simp] theorem State.powerOn_result (s : State) :
    (s.powerOn).result = 0 := rfl
@[simp] theorem State.powerOn_bbLen (s : State) :
    (s.powerOn).bbLen = 0 := rfl
@[simp] theorem State.powerOn_sbLen (s : State) :
    (s.powerOn).sbLen = 0 := rfl
@[simp] theorem State.powerOn_pbLen (s : State) :
    (s.powerOn).pbLen = 0 := rfl
@[simp] theorem State.powerOn_fbLen (s : State) :
    (s.powerOn).fbLen = 0 := rfl
@[simp] theorem State.powerOn_qbLen (s : State) :
    (s.powerOn).qbLen = 0 := rfl
@[simp] theorem State.powerOn_decOff (s : State) :
    (s.powerOn).decOff = 0 := rfl
@[simp] theorem State.powerOn_decBound (s : State) :
    (s.powerOn).decBound = 0 := rfl
@[simp] theorem State.powerOn_fitLen (s : State) :
    (s.powerOn).fitLen = 0 := rfl
@[simp] theorem State.powerOn_sensorId (s : State) :
    (s.powerOn).sensorId = 0 := rfl
@[simp] theorem State.powerOn_pressLo (s : State) :
    (s.powerOn).pressLo = 0 := rfl
@[simp] theorem State.powerOn_pressHi (s : State) :
    (s.powerOn).pressHi = 0 := rfl
@[simp] theorem State.powerOn_temp (s : State) :
    (s.powerOn).temp = 0 := rfl
@[simp] theorem State.powerOn_flags (s : State) :
    (s.powerOn).flags = 0 := rfl
@[simp] theorem State.powerOn_extra (s : State) :
    (s.powerOn).extra = 0 := rfl
@[simp] theorem State.powerOn_markHz (s : State) :
    (s.powerOn).markHz = 0 := rfl
@[simp] theorem State.powerOn_spaceHz (s : State) :
    (s.powerOn).spaceHz = 0 := rfl
@[simp] theorem State.powerOn_fsHz (s : State) :
    (s.powerOn).fsHz = 0 := rfl
@[simp] theorem State.powerOn_symUs (s : State) :
    (s.powerOn).symUs = 0 := rfl
@[simp] theorem State.powerOn_padUs (s : State) :
    (s.powerOn).padUs = 0 := rfl
@[simp] theorem State.powerOn_mem (s : State) :
    (s.powerOn).mem = { bb := [], sb := [], pb := [], fb := [], qb := [] } := rfl
@[simp] theorem State.powerOn_eng (s : State) :
    (s.powerOn).eng = .idle := rfl
@[simp] theorem State.powerOn_cache (s : State) :
    (s.powerOn).cache = none := rfl
@[simp] theorem State.powerOn_host (s : State) :
    (s.powerOn).host = s.host := rfl
@[simp] theorem State.powerOn_reads (s : State) :
    (s.powerOn).reads = s.reads := rfl
@[simp] theorem State.powerOn_lag (s : State) :
    (s.powerOn).lag = 0 := rfl
@[simp] theorem State.powerOn_draws (s : State) :
    (s.powerOn).draws = s.draws := rfl

/-! ## Status.accepted -/

@[simp] theorem Status.accepted_done (f : Status) : (f.accepted).done = false := rfl
@[simp] theorem Status.accepted_desync (f : Status) : (f.accepted).desync = false := rfl
@[simp] theorem Status.accepted_err (f : Status) : (f.accepted).err = false := rfl
@[simp] theorem Status.accepted_ovr (f : Status) : (f.accepted).ovr = f.ovr := rfl
@[simp] theorem Status.accepted_ecode (f : Status) : (f.accepted).ecode = .none := rfl

/-! ## Status.succeeded -/

@[simp] theorem Status.succeeded_done (f : Status) (d : Bool) : (f.succeeded d).done = true := rfl
@[simp] theorem Status.succeeded_desync (f : Status) (d : Bool) : (f.succeeded d).desync = d := rfl
@[simp] theorem Status.succeeded_err (f : Status) (d : Bool) : (f.succeeded d).err = false := rfl
@[simp] theorem Status.succeeded_ovr (f : Status) (d : Bool) : (f.succeeded d).ovr = f.ovr := rfl
@[simp] theorem Status.succeeded_ecode (f : Status) (d : Bool) : (f.succeeded d).ecode = .none := rfl

/-! ## Status.failed -/

@[simp] theorem Status.failed_done (f : Status) (e : ErrCode) : (f.failed e).done = true := rfl
@[simp] theorem Status.failed_desync (f : Status) (e : ErrCode) : (f.failed e).desync = false := rfl
@[simp] theorem Status.failed_err (f : Status) (e : ErrCode) : (f.failed e).err = true := rfl
@[simp] theorem Status.failed_ovr (f : Status) (e : ErrCode) : (f.failed e).ovr = f.ovr := rfl
@[simp] theorem Status.failed_ecode (f : Status) (e : ErrCode) : (f.failed e).ecode = e := rfl

/-! ## Status.overrun -/

@[simp] theorem Status.overrun_done (f : Status) : (f.overrun).done = f.done := rfl
@[simp] theorem Status.overrun_desync (f : Status) : (f.overrun).desync = f.desync := rfl
@[simp] theorem Status.overrun_err (f : Status) : (f.overrun).err = f.err := rfl
@[simp] theorem Status.overrun_ovr (f : Status) : (f.overrun).ovr = true := rfl
@[simp] theorem Status.overrun_ecode (f : Status) : (f.overrun).ecode = f.ecode := rfl

@[simp] theorem Engine.isBusy_idle : Engine.idle.isBusy = false := rfl
@[simp] theorem Engine.isBusy_busy (w : Word) : (Engine.busy w).isBusy = true := rfl

/-- `endedWell` is what a completion without error leaves in STATUS. -/
theorem succeeded_eq_endedWell (d : Bool) (s : State) : s.status.succeeded d = endedWell d s := rfl

/-- `endedBadly` is what the error operation leaves. -/
theorem fail_eq_endedBadly (e : ErrCode) (s : State) : s.fail e = endedBadly e s := rfl

end Sys2Proof.Machine
end

