-- ==== Sys2Proof/Laws/Store.lean ====
section
/-! SUPPORT. The laws of the buffer stores: read after write, canonical form, bounds, and reading a window. -/

namespace Sys2Proof.Machine

variable {width : Nat}

/-! ## Reading one entry -/

@[simp] theorem Store.get_nil (k : Nat) : Store.get k ([] : Store width) = none := rfl

theorem Store.get_cons (k j : Nat) (x : BitVec width) (m : Store width) :
    Store.get k ((j, x) :: m) = if j = k then some x else Store.get k m := rfl

theorem Store.get_append (k : Nat) (m n : Store width) :
    Store.get k (m ++ n) = (Store.get k m).or (Store.get k n) := by
  induction m with
  | nil => simp
  | cons c m ih =>
    obtain ⟨j, x⟩ := c
    simp only [List.cons_append, Store.get_cons, ih]
    split <;> simp

/-- An entry is read only where it is listed. -/
theorem Store.mem_of_get {k : Nat} {x : BitVec width} {m : Store width} (h : Store.get k m = some x) :
    (k, x) ∈ m := by
  induction m with
  | nil => simp at h
  | cons c m ih =>
    obtain ⟨j, y⟩ := c
    rw [Store.get_cons] at h
    split at h
    · rename_i hj
      simp_all
    · exact List.mem_cons_of_mem _ (ih h)

/-- Nothing is read at an index no entry has. -/
theorem Store.get_none_of {k : Nat} {m : Store width} (h : ∀ c ∈ m, c.1 ≠ k) : Store.get k m = none := by
  cases hg : Store.get k m with
  | none => rfl
  | some x => exact absurd rfl (h _ (Store.mem_of_get hg))

/-! ## Writing one entry -/

/-- Read after write: the entry written has the value, every other entry is as it was. -/
theorem Store.get_set (k j : Nat) (v : BitVec width) (m : Store width) :
    Store.get k (Store.set j v m) = if j = k then some v else Store.get k m := by
  induction m with
  | nil => rfl
  | cons c m ih =>
    obtain ⟨i, x⟩ := c
    simp only [Store.set]
    split
    · rfl
    · split
      · subst_vars
        simp only [Store.get_cons]
        split <;> simp
      · simp only [Store.get_cons, ih]
        split_ifs <;> simp_all

@[simp] theorem Store.get_set_self (k : Nat) (v : BitVec width) (m : Store width) :
    Store.get k (Store.set k v m) = some v := by simp [Store.get_set]

theorem Store.mem_set {c : Nat × BitVec width} {k : Nat} {v : BitVec width} {m : Store width}
    (h : c ∈ Store.set k v m) : c = (k, v) ∨ c ∈ m := by
  induction m with
  | nil => simpa [Store.set] using h
  | cons d m ih =>
    obtain ⟨j, x⟩ := d
    simp only [Store.set] at h
    split at h
    · simpa using h
    · split at h
      · rcases List.mem_cons.1 h with h | h
        · exact .inl h
        · exact .inr (List.mem_cons_of_mem _ h)
      · rcases List.mem_cons.1 h with h | h
        · exact .inr (by simp [h])
        · exact (ih h).imp_right (List.mem_cons_of_mem _)

/-- A write keeps the canonical form. -/
theorem Store.wf_set {m : Store width} (h : Store.wf m) (k : Nat) (v : BitVec width) :
    Store.wf (Store.set k v m) := by
  induction m with
  | nil => simp [Store.set, Store.wf]
  | cons c m ih =>
    obtain ⟨j, x⟩ := c
    rw [Store.wf, List.pairwise_cons] at h
    simp only [Store.set]
    split
    · rename_i hkj
      rw [Store.wf, List.pairwise_cons, List.pairwise_cons]
      refine ⟨?_, h⟩
      intro d hd
      rcases List.mem_cons.1 hd with rfl | hd
      · exact hkj
      · exact Nat.lt_trans hkj (h.1 d hd)
    · split
      · subst_vars
        exact List.pairwise_cons.2 h
      · refine List.pairwise_cons.2 ⟨?_, ih h.2⟩
        intro d hd
        rcases Store.mem_set hd with rfl | hd
        · show j < k
          omega
        · exact h.1 d hd

theorem Store.below_set {m : Store width} {n : Nat} (h : Store.below n m) {k : Nat} (hk : k < n)
    (v : BitVec width) : Store.below n (Store.set k v m) := by
  intro c hc
  rcases Store.mem_set hc with rfl | hc
  · exact hk
  · exact h c hc

/-- Writing a value over itself changes nothing. -/
theorem Store.set_set (k : Nat) (v : BitVec width) (m : Store width) :
    Store.set k v (Store.set k v m) = Store.set k v m := by
  induction m with
  | nil => simp [Store.set]
  | cons c m ih =>
    obtain ⟨j, x⟩ := c
    by_cases h1 : k < j
    · simp [Store.set, h1]
    · by_cases h2 : k = j
      · simp [Store.set, h2]
      · simp [Store.set, h1, h2, ih]

/-! ## Writing a command's output -/

theorem Store.get_listed (k i : Nat) (xs : List (BitVec width)) :
    Store.get k (Store.listed i xs) = if i ≤ k then xs[k - i]? else none := by
  induction xs generalizing i with
  | nil => simp [Store.listed]
  | cons x xs ih =>
    simp only [Store.listed, Store.get_cons, ih]
    split
    · subst_vars; simp
    · split_ifs with h1 h2 h2
      · have : k - i = (k - (i + 1)) + 1 := by omega
        rw [this, List.getElem?_cons_succ]
      · omega
      · omega
      · rfl

theorem Store.get_filter_ge (k n : Nat) (m : Store width) :
    Store.get k (m.filter fun c => decide (n ≤ c.1)) = if n ≤ k then Store.get k m else none := by
  induction m with
  | nil => simp
  | cons c m ih =>
    obtain ⟨j, x⟩ := c
    simp only [List.filter_cons, Store.get_cons]
    split
    · rename_i hj
      simp only [decide_eq_true_eq] at hj
      simp only [Store.get_cons, ih]
      split_ifs <;> simp_all
    · rename_i hj
      simp only [decide_eq_true_eq] at hj
      rw [ih]
      split_ifs <;> simp_all

/-- Entries below the output's length hold the output, entries from there on keep their values (R190). -/
theorem Store.get_blit (k : Nat) (xs : List (BitVec width)) (m : Store width) :
    Store.get k (Store.blit xs m) = if k < xs.length then xs[k]? else Store.get k m := by
  rw [Store.blit, Store.get_append, Store.get_listed, Store.get_filter_ge]
  by_cases h : k < xs.length
  · simp [h]
  · simp [h, Nat.not_lt.1 h]

/-- After a command's output the buffer holds it. -/
theorem Store.holds_blit (xs : List (BitVec width)) (m : Store width) : Store.Holds (Store.blit xs m) xs :=
  fun k hk => by simp [Store.get_blit, hk]

/-- A command's output leaves the entries at and beyond its length as they were. -/
theorem Store.sameFrom_blit (xs : List (BitVec width)) (m : Store width) :
    Store.SameFrom xs.length m (Store.blit xs m) :=
  fun k hk => by simp [Store.get_blit, Nat.not_lt.2 hk]

theorem Store.mem_listed {c : Nat × BitVec width} {i : Nat} {xs : List (BitVec width)}
    (h : c ∈ Store.listed i xs) : i ≤ c.1 ∧ c.1 < i + xs.length := by
  induction xs generalizing i with
  | nil => simp [Store.listed] at h
  | cons x xs ih =>
    simp only [Store.listed, List.mem_cons] at h
    rcases h with rfl | h
    · simp
    · have := ih h
      simp only [List.length_cons]
      omega

theorem Store.wf_listed (i : Nat) (xs : List (BitVec width)) : Store.wf (Store.listed i xs) := by
  induction xs generalizing i with
  | nil => exact List.Pairwise.nil
  | cons x xs ih =>
    refine List.pairwise_cons.2 ⟨fun c hc => ?_, ih (i + 1)⟩
    have := (Store.mem_listed hc).1
    show i < c.1
    omega

/-- A command's output keeps the canonical form. -/
theorem Store.wf_blit {m : Store width} (h : Store.wf m) (xs : List (BitVec width)) :
    Store.wf (Store.blit xs m) := by
  refine List.pairwise_append.2 ⟨Store.wf_listed 0 xs, List.Pairwise.filter _ h, fun a ha b hb => ?_⟩
  have h1 := (Store.mem_listed ha).2
  have h2 := (List.mem_filter.1 hb).2
  simp only [decide_eq_true_eq] at h2
  omega

theorem Store.below_blit {m : Store width} {n : Nat} (h : Store.below n m) {xs : List (BitVec width)}
    (hx : xs.length ≤ n) : Store.below n (Store.blit xs m) := by
  intro c hc
  rcases List.mem_append.1 hc with hc | hc
  · have := (Store.mem_listed hc).2
    omega
  · exact h c (List.mem_filter.1 hc).1

/-! ## Reading a window -/

/-- The window is the entries by index, whatever the store (R39). -/
theorem Store.window_eq (m : Store width) (i n : Nat) :
    Store.window m i n = (List.range' i n).map fun k => Store.get k m := by
  induction n generalizing m i with
  | zero => simp [Store.window]
  | succ n ih =>
    rw [List.range'_succ, List.map_cons]
    cases m with
    | nil => simp [Store.window, ih]
    | cons c m =>
      obtain ⟨j, x⟩ := c
      simp only [Store.window]
      split
      · subst_vars
        rw [ih]
        congr 1
        · simp [Store.get_cons]
        · refine List.map_congr_left fun k hk => ?_
          have : j + 1 ≤ k := (List.mem_range'_1.1 hk).1
          rw [Store.get_cons, if_neg (by omega)]
      · rw [ih]

@[simp] theorem Store.length_window (m : Store width) (i n : Nat) : (Store.window m i n).length = n := by
  simp [Store.window_eq]

/-- The window of a buffer that holds xs. -/
theorem Store.window_of_holds {m : Store width} {xs : List (BitVec width)} (h : Store.Holds m xs) :
    Store.window m 0 xs.length = xs.map some := by
  rw [Store.window_eq]
  apply List.ext_getElem?
  intro k
  by_cases hk : k < xs.length
  · simp [hk, h k hk]
  · simp [hk]

/-- A prefix of what a buffer holds. -/
theorem Store.Holds.take {m : Store width} {xs : List (BitVec width)} (h : Store.Holds m xs) (n : Nat) :
    Store.Holds m (xs.take n) := by
  intro k hk
  rw [List.length_take] at hk
  rw [h k (by omega), List.getElem?_take_of_lt (by omega)]

end Sys2Proof.Machine
end

