-- ==== Sys2Proof/Laws/Ops.lean ====
section
/-! SUPPORT. What each shared operation of a command can do: its checks, its inputs and its completion. -/

namespace Sys2Proof.Machine

/-! ## Ends -/

/-- A completion that answers a next state: the outputs, or an error. -/
theorem conclude_next {s t : State} {r : Except Stop Commit} :
    conclude s r = .next t ↔
      (∃ c, r = .ok c ∧ t = c.out.finish c.desync) ∨ (∃ e, r = .error (.error e) ∧ t = s.fail e) := by
  rcases r with (e | f) | c <;> simp [conclude, eq_comm]

/-- A completion faults only on a model fault. -/
theorem conclude_fault {s : State} {r : Except Stop Commit} {f : Fault} :
    conclude s r = .fault f ↔ r = .error (.fault f) := by
  rcases r with (e | g) | c <;> simp [conclude]

theorem conclude_not_refused {s : State} {r : Except Stop Commit} {x : Refusal} :
    conclude s r ≠ .refused x := by
  rcases r with (e | g) | c <;> simp [conclude]

@[simp] theorem conclude_ok (s : State) (c : Commit) :
    conclude s (.ok c) = .next (c.out.finish c.desync) := rfl

@[simp] theorem conclude_raise (s : State) (e : ErrCode) :
    conclude s (raise e) = .next (s.fail e) := rfl

@[simp] theorem conclude_error (s : State) (e : ErrCode) :
    conclude s (.error (.error e)) = .next (s.fail e) := rfl

@[simp] theorem conclude_stop (s : State) (f : Fault) :
    conclude s (.error (.fault f)) = .fault f := rfl

/-! ## Sequencing -/

theorem bind_ok {α β : Type} {x : Except Stop α} {f : α → Except Stop β} {b : β} :
    (x >>= f) = .ok b ↔ ∃ a, x = .ok a ∧ f a = .ok b := by
  cases x <;> simp [bind, Except.bind]

theorem bind_error {α β : Type} {x : Except Stop α} {f : α → Except Stop β} {e : Stop} :
    (x >>= f) = .error e ↔ x = .error e ∨ ∃ a, x = .ok a ∧ f a = .error e := by
  cases x <;> simp [bind, Except.bind]

theorem pure_eq_ok {α : Type} (a : α) : (pure a : Except Stop α) = .ok a := rfl

@[simp] theorem ok_bind {α β : Type} (a : α) (f : α → Except Stop β) : ((.ok a : Except Stop α) >>= f) = f a := rfl

@[simp] theorem error_bind {α β : Type} (e : Stop) (f : α → Except Stop β) :
    ((.error e : Except Stop α) >>= f) = .error e := rfl

/-! ## Checks -/

theorem check_ok {b : Bool} {e : ErrCode} {u : Unit} : check b e = .ok u ↔ b = true := by
  cases b <;> simp [check, raise]

theorem check_error {b : Bool} {e : ErrCode} {x : Stop} : check b e = .error x ↔ b = false ∧ x = .error e := by
  cases b <;> simp [check, raise, eq_comm]

@[simp] theorem check_true (e : ErrCode) : check true e = .ok () := rfl
@[simp] theorem check_false (e : ErrCode) : check false e = .error (.error e) := rfl

theorem roomFor_ok {n cap : Nat} {u : Unit} : roomFor n cap = .ok u ↔ n ≤ cap := by
  simp [roomFor, check_ok]

theorem roomFor_error {n cap : Nat} {x : Stop} : roomFor n cap = .error x ↔ cap < n ∧ x = .error .capacity := by
  simp [roomFor, check_error]

theorem roomFor_of_le {n cap : Nat} (h : n ≤ cap) : roomFor n cap = .ok () := roomFor_ok.2 h

theorem roomFor_of_lt {n cap : Nat} (h : cap < n) : roomFor n cap = .error (.error .capacity) :=
  roomFor_error.2 ⟨h, rfl⟩

theorem lengthIn_ok {len : Word} {cap n : Nat} : lengthIn len cap = .ok n ↔ len.toNat ≤ cap ∧ n = len.toNat := by
  unfold lengthIn
  split
  · simp [raise]; omega
  · simp [eq_comm]; omega

theorem lengthIn_error {len : Word} {cap : Nat} {x : Stop} :
    lengthIn len cap = .error x ↔ cap < len.toNat ∧ x = .error .capacity := by
  unfold lengthIn
  split
  · simp_all [raise, eq_comm]
  · simp_all

theorem lengthIn_of_le {len : Word} {cap : Nat} (h : len.toNat ≤ cap) : lengthIn len cap = .ok len.toNat :=
  lengthIn_ok.2 ⟨h, rfl⟩

theorem lengthIn_of_lt {len : Word} {cap : Nat} (h : cap < len.toNat) :
    lengthIn len cap = .error (.error .capacity) := lengthIn_error.2 ⟨h, rfl⟩

/-! ## Entries and symbols -/

variable {width : Nat}

@[simp] theorem needAll_map_some (b : Buffer) (i : Nat) (xs : List (BitVec width)) :
    needAll b i (xs.map some) = .ok xs := by
  induction xs generalizing i with
  | nil => rfl
  | cons x xs ih => simp [needAll, ih]

theorem needAll_ok {b : Buffer} {i : Nat} {ws : List (Option (BitVec width))} {xs : List (BitVec width)} :
    needAll b i ws = .ok xs ↔ ws = xs.map some := by
  refine ⟨fun h => ?_, fun h => h ▸ needAll_map_some b i xs⟩
  induction ws generalizing i xs with
  | nil => simp only [needAll, Except.ok.injEq] at h; simp [← h]
  | cons w ws ih =>
    cases w with
    | none => simp [needAll, uninit] at h
    | some x =>
      simp only [needAll] at h
      split at h
      · rename_i ys hys
        simp only [Except.ok.injEq] at h
        simp [← h, ← ih hys]
      · simp at h

/-- The window lacks an entry exactly where the reader faults, and it faults at the first. -/
theorem needAll_error {b : Buffer} {i : Nat} {ws : List (Option (BitVec width))} {e : Stop}
    (h : needAll b i ws = .error e) :
    ∃ k, e = .fault (.uninit b (i + k)) ∧ ws[k]? = some none ∧ ∀ j < k, ∃ x, ws[j]? = some (some x) := by
  induction ws generalizing i with
  | nil => simp [needAll] at h
  | cons w ws ih =>
    cases w with
    | none =>
      simp only [needAll, uninit, Except.error.injEq] at h
      exact ⟨0, by simp [← h], rfl, by simp⟩
    | some x =>
      simp only [needAll] at h
      split at h
      · simp at h
      · rename_i e' he'
        simp only [Except.error.injEq] at h
        subst h
        obtain ⟨k, rfl, hk, hj⟩ := ih he'
        refine ⟨k + 1, by simp [Nat.add_assoc, Nat.add_comm 1 k], by simpa using hk, fun j hjk => ?_⟩
        cases j with
        | zero => exact ⟨x, rfl⟩
        | succ j => simpa using hj j (by omega)

/-- At a first unwritten entry the reader faults. -/
theorem needAll_first {b : Buffer} {i k : Nat} {ws : List (Option (BitVec width))}
    (hk : ws[k]? = some none) (hj : ∀ j < k, ∃ x, ws[j]? = some (some x)) :
    needAll b i ws = .error (.fault (.uninit b (i + k))) := by
  induction ws generalizing i k with
  | nil => simp at hk
  | cons w ws ih =>
    cases k with
    | zero =>
      simp only [List.getElem?_cons_zero, Option.some.injEq] at hk
      simp [hk, needAll, uninit]
    | succ k =>
      obtain ⟨x, hx⟩ := hj 0 (by omega)
      simp only [List.getElem?_cons_zero, Option.some.injEq] at hx
      have := ih (i := i + 1) (k := k) (by simpa using hk) fun j h => by simpa using hj (j + 1) (by omega)
      simp [hx, needAll, this, Nat.add_assoc, Nat.add_comm 1 k]

@[simp] theorem bitOf_symbolOf (b : Bool) : bitOf (symbolOf b) = some b := by cases b <;> rfl

theorem bitOf_some {x : Byte} {b : Bool} : bitOf x = some b ↔ x = symbolOf b := by
  constructor
  · intro h
    unfold bitOf at h
    split at h
    · simp only [Option.some.injEq] at h; subst h; assumption
    · split at h
      · simp only [Option.some.injEq] at h; subst h; assumption
      · simp at h
  · rintro rfl; simp

theorem bitOf_none {x : Byte} : bitOf x = none ↔ x ≠ 0x00 ∧ x ≠ 0x01 := by
  unfold bitOf; split_ifs <;> simp_all

@[simp] theorem length_symbolsOf (bs : List Bool) : (symbolsOf bs).length = bs.length := by simp [symbolsOf]

@[simp] theorem bitsOf_symbolsOf (bs : List Bool) : bitsOf (symbolsOf bs) = .ok bs := by
  induction bs with
  | nil => rfl
  | cons b bs ih => simp [symbolsOf, bitsOf] at ih ⊢; simp [ih]

theorem bitsOf_ok {xs : List Byte} {bs : List Bool} : bitsOf xs = .ok bs ↔ xs = symbolsOf bs := by
  refine ⟨fun h => ?_, fun h => h ▸ bitsOf_symbolsOf bs⟩
  induction xs generalizing bs with
  | nil => simp only [bitsOf, Except.ok.injEq] at h; simp [← h, symbolsOf]
  | cons x xs ih =>
    simp only [bitsOf] at h
    split at h
    · simp [raise] at h
    · rename_i b hb
      split at h
      · rename_i cs hcs
        simp only [Except.ok.injEq] at h
        simp [← h, ih hcs, symbolsOf, bitOf_some.1 hb]
      · simp at h

theorem bitsOf_error {xs : List Byte} {e : Stop} :
    bitsOf xs = .error e ↔ e = .error .invalidSymbol ∧ ∃ x ∈ xs, x ≠ 0x00 ∧ x ≠ 0x01 := by
  induction xs generalizing e with
  | nil => simp [bitsOf]
  | cons x xs ih =>
    simp only [bitsOf]
    split
    · rename_i hx
      have := bitOf_none.1 hx
      simp only [raise, Except.error.injEq, List.mem_cons, exists_eq_or_imp]
      constructor
      · rintro rfl; exact ⟨rfl, .inl this⟩
      · rintro ⟨rfl, -⟩; rfl
    · rename_i b hb
      have hx : ¬ (x ≠ 0x00 ∧ x ≠ 0x01) := fun h => by rw [bitOf_none.2 h] at hb; cases hb
      split
      · rename_i cs hcs
        have := (ih (e := e)).not.1 (by simp [hcs])
        simp only [reduceCtorEq, List.mem_cons, exists_eq_or_imp, false_iff]
        exact fun h => h.2.elim hx fun hc => this ⟨h.1, hc⟩
      · rename_i e' he'
        rw [← he', ih]
        simp only [List.mem_cons, exists_eq_or_imp]
        exact ⟨fun h => ⟨h.1, .inr h.2⟩, fun h => ⟨h.1, h.2.resolve_left hx⟩⟩

/-! ## Inputs -/

/-- SB[0..SB_LEN) as bits, from what the buffer holds. -/
theorem symbolInput_of_holds {s : State} {bits : List Bool} (hcap : s.sbLen.toNat ≤ s.cfg.sbCap)
    (hlen : s.sbLen.toNat = bits.length) (h : Store.Holds s.mem.sb (symbolsOf bits)) :
    symbolInput s = .ok bits := by
  have hw := Store.window_of_holds h
  rw [length_symbolsOf, ← hlen] at hw
  simp [symbolInput, symbolWindow, lengthIn_of_le hcap, hw, pure_eq_ok]

/-- What a successful reading of SB means. -/
theorem symbolInput_ok {s : State} {bits : List Bool} (h : symbolInput s = .ok bits) :
    s.sbLen.toNat ≤ s.cfg.sbCap ∧ s.sbLen.toNat = bits.length ∧
      Store.window s.mem.sb 0 s.sbLen.toNat = (symbolsOf bits).map some := by
  simp only [symbolInput, symbolWindow, bind_ok, lengthIn_ok, pure_eq_ok, Except.ok.injEq] at h
  obtain ⟨w, ⟨n, ⟨hn, rfl⟩, rfl⟩, xs, hxs, hb⟩ := h
  rw [needAll_ok] at hxs
  rw [bitsOf_ok] at hb
  subst hb
  refine ⟨hn, ?_, hxs⟩
  simpa using congrArg List.length hxs

/-- The errors of a reading of SB: CAPACITY or INVALID_SYMBOL; its only fault is UNINIT. -/
theorem symbolInput_error {s : State} {e : Stop} (h : symbolInput s = .error e) :
    (s.cfg.sbCap < s.sbLen.toNat ∧ e = .error .capacity) ∨ e = .error .invalidSymbol ∨
      ∃ k < s.sbLen.toNat, Store.get k s.mem.sb = none ∧ e = .fault (.uninit .sb k) := by
  simp only [symbolInput, symbolWindow, bind_error, bind_ok, lengthIn_ok, lengthIn_error, pure_eq_ok,
    Except.ok.injEq, reduceCtorEq, and_false, exists_false, or_false] at h
  rcases h with h | ⟨w, ⟨n, ⟨-, rfl⟩, rfl⟩, h | ⟨xs, -, h⟩⟩
  · exact .inl h
  · obtain ⟨k, rfl, hk, -⟩ := needAll_error h
    have hlt : k < s.sbLen.toNat := by
      have := (List.getElem?_eq_some_iff.1 hk).1
      simpa using this
    rw [Store.window_eq] at hk
    exact .inr (.inr ⟨k, hlt, by simpa [hlt] using hk, by simp⟩)
  · exact .inr (.inl (bitsOf_error.1 h).1)

@[simp] theorem length_halves (ps : List (Word × Word)) : (halves ps).length = 2 * ps.length := by
  induction ps with
  | nil => rfl
  | cons p ps ih => simp only [halves, List.flatMap_cons, List.length_append] at ih ⊢; simp [ih]; omega

@[simp] theorem pairsOf_halves (ps : List (Word × Word)) : pairsOf (halves ps) = ps := by
  induction ps with
  | nil => rfl
  | cons p ps ih => simp only [halves, List.flatMap_cons] at ih ⊢; simp [pairsOf, ih]

/-- Pair k of a pair list stands at halves 2k and 2k + 1. -/
theorem getElem_halves {ps : List (Word × Word)} {k : Nat} {a b : Word} (h : ps[k]? = some (a, b)) :
    (halves ps)[2 * k]? = some a ∧ (halves ps)[2 * k + 1]? = some b := by
  induction ps generalizing k with
  | nil => simp at h
  | cons p ps ih =>
    have e : halves (p :: ps) = p.1 :: p.2 :: halves ps := rfl
    cases k with
    | zero => simp only [List.getElem?_cons_zero, Option.some.injEq] at h; subst h; simp [e]
    | succ k =>
      have := ih (k := k) (by simpa using h)
      rw [e, show 2 * (k + 1) = 2 * k + 1 + 1 by ring, show 2 * k + 1 + 1 + 1 = (2 * k + 1) + 1 + 1 by ring]
      simpa using this

/-- A window's entry is the store's. -/
theorem Store.get_of_window {width : Nat} {m : Store width} {i n k : Nat} {y : Option (BitVec width)}
    (h : (Store.window m i n)[k]? = some y) : Store.get (i + k) m = y := by
  rw [Store.window_eq] at h
  obtain ⟨hk, h⟩ := List.getElem?_eq_some_iff.1 h
  simpa using h

/-- UNINIT comes from an unwritten entry of the store. -/
theorem needAll_window_error {width : Nat} {b : Buffer} {i n : Nat} {m : Store width} {e : Stop}
    (h : needAll b i (Store.window m i n) = .error e) : ∃ k, e = .fault (.uninit b k) ∧ Store.get k m = none := by
  obtain ⟨k, rfl, hk, -⟩ := needAll_error h
  exact ⟨i + k, rfl, Store.get_of_window hk⟩

/-- UNINIT at the first unwritten entry of BUF[0..n). -/
theorem needAll_window_first {width : Nat} {m : Store width} {n k : Nat} (b : Buffer) (hk : k < n)
    (h : Store.get k m = none) (hj : ∀ j < k, Store.get j m ≠ none) :
    needAll b 0 (Store.window m 0 n) = .error (.fault (.uninit b k)) := by
  have := needAll_first (b := b) (i := 0) (k := k) (ws := Store.window m 0 n)
    (by rw [Store.window_eq]; simp [hk, h]) (by
      intro j hjk
      obtain ⟨x, hx⟩ := Option.ne_none_iff_exists'.1 (hj j hjk)
      exact ⟨x, by rw [Store.window_eq]; simp [show j < n by omega, hx]⟩)
  simpa using this

/-- A length that fits a buffer fits its register. -/
theorem toNat_length {n : Nat} (h : n ≤ 262144) : (BitVec.ofNat 32 n).toNat = n := by
  rw [BitVec.toNat_ofNat]; omega

/-- PB[0..m) from what the buffer holds. -/
theorem pulsePairs_of_holds {s : State} {ps : List (Word × Word)}
    (h : Store.Holds s.mem.pb (halves ps)) :
    pulsePairs s ps.length = .ok (ps.map fun p => (p.1.toNat, p.2.toNat)) := by
  have hw := Store.window_of_holds h
  rw [length_halves] at hw
  simp [pulsePairs, hw, pure_eq_ok]

/-- A finite pressure word gives its exact value. -/
theorem pressure_of_finite {s : State} (h : f64Finite (pressureWord s) = true) :
    pressure s = .ok (f64 (pressureWord s)) := by simp [pressure, h, pure_eq_ok]

theorem pressure_of_not_finite {s : State} (h : f64Finite (pressureWord s) = false) :
    pressure s = .error (.error .invalidNumeric) := by simp [pressure, h]

theorem pressure_error {s : State} {e : Stop} (h : pressure s = .error e) : e = .error .invalidNumeric := by
  simp only [pressure, bind_error, check_error, pure_eq_ok, reduceCtorEq, and_false, exists_false, or_false] at h
  exact h.2

end Sys2Proof.Machine
end

