-- ==== Sys2Proof/Laws/Commands.lean ====
section
/-! SUPPORT. One inversion lemma per command: everything a run that ends without error has read, checked and
written. Provers cite these instead of unfolding a run. -/

namespace Sys2Proof.Machine

/-- A command up to its completion, for any command. -/
def runOf (i : Instr) (s : State) : Except Stop Commit :=
  match i with
  | .crc8 poly init => runCrc8 poly init s
  | .manEnc => runManEnc s
  | .manDec be => runManDec be s
  | .dmanEnc => runDmanEnc s
  | .dmanDec be => runDmanDec be s
  | .pcmEnc => runPcmEnc s
  | .pcmDec => runPcmDec s
  | .encA df de => runEncA df de s
  | .encB df de => runEncB df de s
  | .encC => runEncC s
  | .encAx l pol df de => runEncAx l pol df de s
  | .fit ps => runFit ps s
  | .fskGen => runFskGen s

/-- Every command is its run, then the one completion (R305). -/
theorem exec_eq_conclude (i : Instr) (s : State) : exec i s = conclude s (runOf i s) := by cases i <;> rfl

/-- CRC8 without error (R122). -/
theorem runCrc8_ok {poly init : Byte} {s : State} {c : Commit} (h : runCrc8 poly init s = .ok c) :
    s.bbLen.toNat ≤ s.cfg.bbCap ∧ ∃ bytes : List Byte,
      Store.window s.mem.bb 0 s.bbLen.toNat = bytes.map some ∧
      c = { out := { s.usedCrc poly with result := zext32 (crc8 bytes poly init) }, desync := false } := by
  simp only [runCrc8, bind_ok, lengthIn_ok, needAll_ok, pure_eq_ok, Except.ok.injEq] at h
  obtain ⟨n, ⟨hn, rfl⟩, bytes, hb, rfl⟩ := h
  exact ⟨hn, bytes, hb, rfl⟩

/-- MAN_ENC without error (R141). -/
theorem runManEnc_ok {s : State} {c : Commit} (h : runManEnc s = .ok c) :
    ∃ bits, symbolInput s = .ok bits ∧ 2 * bits.length ≤ s.cfg.sbCap ∧
      c = { out := s.putSymbols (symbolsOf (man bits)), desync := false } := by
  simp only [runManEnc, bind_ok, roomFor_ok, pure_eq_ok, Except.ok.injEq] at h
  obtain ⟨bits, hb, -, hr, rfl⟩ := h
  exact ⟨bits, hb, hr, rfl⟩

/-- DMAN_ENC without error (R145). -/
theorem runDmanEnc_ok {s : State} {c : Commit} (h : runDmanEnc s = .ok c) :
    ∃ bits, symbolInput s = .ok bits ∧ 2 * bits.length ≤ s.cfg.sbCap ∧
      c = { out := s.putSymbols (symbolsOf (dmenc bits)), desync := false } := by
  simp only [runDmanEnc, bind_ok, roomFor_ok, pure_eq_ok, Except.ok.injEq] at h
  obtain ⟨bits, hb, -, hr, rfl⟩ := h
  exact ⟨bits, hb, hr, rfl⟩

/-- The window a decoder reads (R143, R147). -/
theorem symbolWindow_ok {s : State} {win : List (Option Byte)} (h : symbolWindow s = .ok win) :
    s.sbLen.toNat ≤ s.cfg.sbCap ∧ win = Store.window s.mem.sb 0 s.sbLen.toNat := by
  simp only [symbolWindow, bind_ok, lengthIn_ok, pure_eq_ok, Except.ok.injEq] at h
  obtain ⟨n, ⟨hn, rfl⟩, rfl⟩ := h
  exact ⟨hn, rfl⟩

theorem symbolWindow_of_le {s : State} (h : s.sbLen.toNat ≤ s.cfg.sbCap) :
    symbolWindow s = .ok (Store.window s.mem.sb 0 s.sbLen.toNat) := by
  simp [symbolWindow, lengthIn_of_le h, pure_eq_ok]

/-- MAN_DEC without error (R143). -/
theorem runManDec_ok {be : Bool} {s : State} {c : Commit} (h : runManDec be s = .ok c) :
    s.sbLen.toNat ≤ s.cfg.sbCap ∧ ∃ d,
      mdec (Store.window s.mem.sb 0 s.sbLen.toNat) s.decOff.toNat (decodeBound be s) = .ok d ∧
      c = decodedCommit s d := by
  simp only [runManDec, bind_ok, pure_eq_ok, Except.ok.injEq] at h
  obtain ⟨win, hw, d, hd, rfl⟩ := h
  obtain ⟨hn, rfl⟩ := symbolWindow_ok hw
  exact ⟨hn, d, hd, rfl⟩

/-- DMAN_DEC without error (R147). -/
theorem runDmanDec_ok {be : Bool} {s : State} {c : Commit} (h : runDmanDec be s = .ok c) :
    s.sbLen.toNat ≤ s.cfg.sbCap ∧ ∃ d,
      dmdec (Store.window s.mem.sb 0 s.sbLen.toNat) s.decOff.toNat (decodeBound be s) = .ok d ∧
      c = decodedCommit s d := by
  simp only [runDmanDec, bind_ok, pure_eq_ok, Except.ok.injEq] at h
  obtain ⟨win, hw, d, hd, rfl⟩ := h
  obtain ⟨hn, rfl⟩ := symbolWindow_ok hw
  exact ⟨hn, d, hd, rfl⟩

/-- PCM_ENC without error (R171). -/
theorem runPcmEnc_ok {s : State} {c : Commit} (h : runPcmEnc s = .ok c) :
    ∃ bits, symbolInput s = .ok bits ∧ (pcmenc bits).length ≤ s.cfg.pbCap ∧
      c = { out := s.putPulses ((pcmenc bits).map pulseEntry), desync := false } := by
  simp only [runPcmEnc, bind_ok, roomFor_ok, pure_eq_ok, Except.ok.injEq] at h
  obtain ⟨bits, hb, -, hr, rfl⟩ := h
  exact ⟨bits, hb, hr, rfl⟩

/-- PCM_DEC without error (R173). -/
theorem runPcmDec_ok {s : State} {c : Commit} (h : runPcmDec s = .ok c) :
    s.pbLen.toNat ≤ s.cfg.pbCap ∧ ∃ ps, pulsePairs s s.pbLen.toNat = .ok ps ∧
      totalWidth ps ≤ s.cfg.sbCap ∧
      c = { out := s.putSymbols (symbolsOf (pcmdec ps)), desync := false } := by
  simp only [runPcmDec, bind_ok, lengthIn_ok, roomFor_ok, pure_eq_ok, Except.ok.injEq] at h
  obtain ⟨m, ⟨hm, rfl⟩, ps, hp, -, hr, rfl⟩ := h
  exact ⟨hm, ps, hp, hr, rfl⟩

/-- A finite pressure is the value of the pressure word (R191). -/
theorem pressure_ok {s : State} {p : Ratio} (h : pressure s = .ok p) :
    f64Finite (pressureWord s) = true ∧ p = f64 (pressureWord s) := by
  simp only [pressure, bind_ok, check_ok, pure_eq_ok, Except.ok.injEq] at h
  obtain ⟨-, hf, rfl⟩ := h
  exact ⟨hf, rfl⟩

/-- ENC_A without error (R198). -/
theorem runEncA_ok {df de : Bool} {s : State} {c : Commit} (h : runEncA df de s = .ok c) :
    ∃ frame, f64Finite (pressureWord s) = true ∧
      frame = sealA (dataBytesA df de (f64 (pressureWord s)) s) ∧
      c = frameCommit (s.usedCrc 0x07) frame (streamA s.cfg frame) := by
  simp only [runEncA, bind_ok, pure_eq_ok, Except.ok.injEq] at h
  obtain ⟨p, hp, rfl⟩ := h
  obtain ⟨hf, rfl⟩ := pressure_ok hp
  exact ⟨_, hf, rfl, rfl⟩

/-- ENC_B without error (R204). -/
theorem runEncB_ok {df de : Bool} {s : State} {c : Commit} (h : runEncB df de s = .ok c) :
    ∃ frame, f64Finite (pressureWord s) = true ∧
      frame = sealB (dataB (praw s.cfg.prawB (f64 (pressureWord s))) (flagByte df 80 s) (unknownByte de s) s) ∧
      c = frameCommit s frame (streamB s.cfg frame) := by
  simp only [runEncB, bind_ok, pure_eq_ok, Except.ok.injEq] at h
  obtain ⟨p, hp, rfl⟩ := h
  obtain ⟨hf, rfl⟩ := pressure_ok hp
  exact ⟨_, hf, rfl, rfl⟩

/-- ENC_C without error (R210). -/
theorem runEncC_ok {s : State} {c : Commit} (h : runEncC s = .ok c) :
    ∃ frame, f64Finite (pressureWord s) = true ∧
      frame = sealC (dataC (praw s.cfg.prawC (f64 (pressureWord s))) (sext32 s.temp + 40) s.flags s) ∧
      c = frameCommit (s.usedCrc 0x07) frame (streamC s.cfg frame) := by
  simp only [runEncC, bind_ok, pure_eq_ok, Except.ok.injEq] at h
  obtain ⟨p, hp, rfl⟩ := h
  obtain ⟨hf, rfl⟩ := pressure_ok hp
  exact ⟨_, hf, rfl, rfl⟩

/-- ENC_AX without error (R216). -/
theorem runEncAx_ok {l : Nat} {pol : PadPolicy} {df de : Bool} {s : State} {c : Commit}
    (h : runEncAx l pol df de s = .ok c) :
    9 ≤ l ∧ l ≤ s.cfg.fbCap ∧ 32 + 16 * l ≤ s.cfg.sbCap ∧ f64Finite (pressureWord s) = true ∧
    (pol = .custom → s.bbLen.toNat ≤ s.cfg.bbCap ∧ s.bbLen.toNat ≠ 0) ∧
    ∃ pad frame, padBytes pol (dataBytesA df de (f64 (pressureWord s)) s) (l - 9) s = .ok pad ∧
      frame = sealA (dataBytesA df de (f64 (pressureWord s)) s ++ pad) ∧
      c = frameCommit (s.usedCrc 0x07) frame (streamA s.cfg frame) := by
  simp only [runEncAx, bind_ok, check_ok, roomFor_ok, pure_eq_ok, Except.ok.injEq, decide_eq_true_eq] at h
  obtain ⟨-, h1, -, h2, -, h3, p, hp, -, h4, -, h5, pad, hpad, rfl⟩ := h
  obtain ⟨hf, rfl⟩ := pressure_ok hp
  exact ⟨h2, h4, h5, hf, fun hc => ⟨h1.resolve_left (by simp [hc]), h3.resolve_left (by simp [hc])⟩,
    pad, _, hpad, rfl, rfl⟩

/-- FIT without error (R218). -/
theorem runFit_ok {ps : Bool} {s : State} {c : Commit} (h : runFit ps s = .ok c) :
    s.sbLen.toNat ≤ s.cfg.sbCap ∧ s.fitLen.toNat ≤ s.cfg.sbCap ∧ ∃ kept : List Byte,
      Store.window s.mem.sb 0 (min s.sbLen.toNat s.fitLen.toNat) = kept.map some ∧
      c = { out := s.putSymbols (fitTo kept s.fitLen.toNat (symbolOf ps)), desync := false } := by
  simp only [runFit, bind_ok, lengthIn_ok, needAll_ok, pure_eq_ok, Except.ok.injEq] at h
  obtain ⟨n, ⟨hn, rfl⟩, m, ⟨hm, rfl⟩, kept, hk, rfl⟩ := h
  exact ⟨hn, hm, kept, hk, rfl⟩

/-- FSK_GEN without error (R245). -/
theorem runFskGen_ok {s : State} {c : Commit} (h : runFskGen s = .ok c) :
    s.pbLen.toNat ≤ s.cfg.pbCap ∧ s.fsHz.toNat ≠ 0 ∧ ∃ ps, pulsePairs s s.pbLen.toNat = .ok ps ∧
      countOf s.fsHz s.symUs * totalWidth ps + countOf s.fsHz s.padUs ≤ s.cfg.qbCap ∧
      c = { out := s.putSamples (iqWords s.fsHz.toNat
              (unshaped (sext32 s.markHz) (sext32 s.spaceHz) (countOf s.fsHz s.symUs) ps)
              (countOf s.fsHz s.padUs)), desync := false } := by
  simp only [runFskGen, bind_ok, lengthIn_ok, check_ok, roomFor_ok, pure_eq_ok, Except.ok.injEq,
    decide_eq_true_eq] at h
  obtain ⟨m, ⟨hm, rfl⟩, -, hf, ps, hp, -, hr, rfl⟩ := h
  exact ⟨hm, hf, ps, hp, hr, rfl⟩

/-! ## Lengths of outputs -/

@[simp] theorem length_man (s : List Bool) : (man s).length = 2 * s.length := by
  induction s with
  | nil => rfl
  | cons b s ih => simp only [man, List.flatMap_cons, List.length_append] at ih ⊢; simp [ih]; omega

theorem length_dmencFrom (l : Bool) (s : List Bool) : (dmencFrom l s).length = 2 * s.length := by
  induction s generalizing l with
  | nil => rfl
  | cons b s ih => simp only [dmencFrom, List.length_cons, ih]; omega

@[simp] theorem length_dmenc (s : List Bool) : (dmenc s).length = 2 * s.length := length_dmencFrom true s

@[simp] theorem length_bitsMSB {k : Nat} (w : BitVec k) : (bitsMSB w).length = k := by simp [bitsMSB]

@[simp] theorem length_ser (bytes : List Byte) : (ser bytes).length = 8 * bytes.length := by
  induction bytes with
  | nil => rfl
  | cons b s ih => simp only [ser, List.flatMap_cons, List.length_append] at ih ⊢; simp [ih]; omega

@[simp] theorem length_manA (frame : List Byte) : (manA frame).length = 16 * frame.length := by
  simp [manA, invert]; omega

@[simp] theorem length_dmC (frame : List Byte) : (dmC frame).length = 16 * frame.length := by
  simp [dmC]; omega

@[simp] theorem length_streamA (c : Config) (frame : List Byte) :
    (streamA c frame).length = 32 + 16 * frame.length := by simp [streamA]

@[simp] theorem length_streamB (c : Config) (frame : List Byte) :
    (streamB c frame).length = 24 + 16 * frame.length := by simp [streamB]

@[simp] theorem length_streamC (c : Config) (frame : List Byte) :
    (streamC c frame).length = 18 + 16 * frame.length := by simp [streamC]; omega

@[simp] theorem length_dataA (p : Int) (fl : Byte) (ex : BitVec 16) (s : State) :
    (dataA p fl ex s).length = 8 := rfl

@[simp] theorem length_dataBytesA (df de : Bool) (p : Ratio) (s : State) :
    (dataBytesA df de p s).length = 8 := rfl

@[simp] theorem length_dataB (p : Int) (fl unk : Byte) (s : State) : (dataB p fl unk s).length = 8 := rfl

@[simp] theorem length_dataC (p t : Int) (st : Byte) (s : State) : (dataC p t st s).length = 8 := rfl

@[simp] theorem length_sealA (body : List Byte) : (sealA body).length = body.length + 1 := by simp [sealA]
@[simp] theorem length_sealB (body : List Byte) : (sealB body).length = body.length + 1 := by simp [sealB]
@[simp] theorem length_sealC (body : List Byte) : (sealC body).length = body.length + 1 := by simp [sealC]

/-- The pad bytes are as many as asked for. -/
theorem length_padBytes {pol : PadPolicy} {data pad : List Byte} {n : Nat} {s : State}
    (h : padBytes pol data n s = .ok pad) : pad.length = n := by
  cases pol with
  | repeatData => simp only [padBytes, Except.ok.injEq] at h; simp [← h]
  | zero => simp only [padBytes, Except.ok.injEq] at h; simp [← h]
  | random => simp only [padBytes, Except.ok.injEq] at h; simp [← h]
  | custom =>
    simp only [padBytes, bind_ok, pure_eq_ok, Except.ok.injEq] at h
    obtain ⟨list, -, rfl⟩ := h
    simp

@[simp] theorem length_fitTo (xs : List Byte) (n : Nat) (ps : Byte) : (fitTo xs n ps).length = n := by
  unfold fitTo; split
  · rw [List.length_take]; omega
  · rw [List.length_append, List.length_replicate]; omega

theorem totalWidth_cons (p : Nat × Nat) (ps : List (Nat × Nat)) :
    totalWidth (p :: ps) = p.1 + p.2 + totalWidth ps := rfl

@[simp] theorem length_pcmdec (ps : List (Nat × Nat)) : (pcmdec ps).length = totalWidth ps := by
  induction ps with
  | nil => rfl
  | cons p ps ih =>
    simp only [pcmdec, List.flatMap_cons, List.length_append, List.length_replicate] at ih ⊢
    rw [ih, totalWidth_cons]

@[simp] theorem length_unshaped (m s : Int) (sps : Nat) (ps : List (Nat × Nat)) :
    (unshaped m s sps ps).length = sps * totalWidth ps := by
  induction ps with
  | nil => rfl
  | cons p ps ih =>
    simp only [unshaped, List.flatMap_cons, List.length_append] at ih ⊢
    rw [ih, totalWidth_cons]
    simp [tone]
    ring

@[simp] theorem length_iqWords (fs : Nat) (x : List ToneSample) (npad : Nat) :
    (iqWords fs x npad).length = x.length + npad := by simp [iqWords]

/-- A pair of binary symbols is read as its bits. -/
@[simp] theorem pairBits_symbols (q : Nat) (a b : Bool) :
    pairBits q (some (symbolOf a)) (some (symbolOf b)) = .ok (a, b) := by cases a <;> cases b <;> rfl

/-- A decoder's output is at most half of what it had. -/
theorem mdecLoop_length {bound : Option Nat} {q : Nat} {ws : List (Option Byte)} {d : Decoded}
    (h : mdecLoop bound q ws = .ok d) : 2 * d.out.length ≤ ws.length := by
  induction bound, q, ws using mdecLoop.induct generalizing d with
  | case1 => simp only [mdecLoop, if_true, Except.ok.injEq] at h; simp [← h]
  | case2 bound q a b rest hb e he =>
    simp [mdecLoop, hb, he] at h
  | case3 bound q a b rest hb v he =>
    simp only [mdecLoop, if_neg hb, he, if_true, Except.ok.injEq] at h
    simp [← h]
  | case4 bound q a b rest hb u v he huv e hr =>
    simp [mdecLoop, hb, he, huv, hr] at h
  | case5 bound q a b rest hb u v he huv d' hr ih =>
    simp only [mdecLoop, if_neg hb, he, if_neg huv, hr, Except.ok.injEq] at h
    have := ih hr
    simp [← h]; omega
  | case6 bound q ws hws =>
    unfold mdecLoop at h
    split at h
    · exact absurd rfl (hws _ _ _)
    · simp only [Except.ok.injEq] at h; simp [← h]

theorem dmdecLoop_length {f : Bool} {bound : Option Nat} {q : Nat} {ws : List (Option Byte)} {d : Decoded}
    (h : dmdecLoop f bound q ws = .ok d) : 2 * d.out.length ≤ ws.length := by
  induction f, bound, q, ws using dmdecLoop.induct generalizing d with
  | case1 => simp only [dmdecLoop, if_true, Except.ok.injEq] at h; simp [← h]
  | case2 f bound q a b rest hb e he =>
    simp [dmdecLoop, hb, he] at h
  | case3 f bound q a b rest hb v he =>
    simp only [dmdecLoop, if_neg hb, he, if_true, Except.ok.injEq] at h
    simp [← h]
  | case4 f bound q a b rest hb u v he huv e hr =>
    simp [dmdecLoop, hb, he, huv, hr] at h
  | case5 f bound q a b rest hb u v he huv d' hr ih =>
    simp only [dmdecLoop, if_neg hb, he, if_neg huv, hr, Except.ok.injEq] at h
    have := ih hr
    simp [← h]; omega
  | case6 f bound q ws hws =>
    unfold dmdecLoop at h
    split at h
    · exact absurd rfl (hws _ _ _)
    · simp only [Except.ok.injEq] at h; simp [← h]

/-- The phase search only drops symbols. -/
theorem dmPhase_length {q q' : Nat} {ws rest : List (Option Byte)}
    (h : dmPhase q ws = .ok (.found q' rest)) : rest.length ≤ ws.length := by
  induction ws generalizing q with
  | nil => simp [dmPhase] at h
  | cons a ws ih =>
    simp only [dmPhase] at h
    split at h
    · simp at h
    · split at h
      · simp at h
      · split at h
        · exact Nat.le_succ_of_le (ih h)
        · simp only [Except.ok.injEq, Phase.found.injEq] at h
          simp [← h.2]

/-- MAN_DEC's output fits: "No output CAPACITY is possible, since len(out) ≤ n/2" (R143). -/
theorem mdec_length {ws : List (Option Byte)} {o : Nat} {bound : Option Nat} {d : Decoded}
    (h : mdec ws o bound = .ok d) : 2 * d.out.length ≤ ws.length := by
  have := mdecLoop_length h
  simp only [List.length_drop] at this
  omega

/-- DMAN_DEC's output fits. -/
theorem dmdec_length {ws : List (Option Byte)} {o : Nat} {bound : Option Nat} {d : Decoded}
    (h : dmdec ws o bound = .ok d) : 2 * d.out.length ≤ ws.length := by
  simp only [dmdec, bind_ok] at h
  obtain ⟨ph, hp, h⟩ := h
  cases ph with
  | lost q => simp only [pure_eq_ok, Except.ok.injEq] at h; simp [← h]
  | found q rest =>
    have h1 := dmdecLoop_length h
    have h2 := dmPhase_length hp
    simp only [List.length_drop] at h2
    omega

/-! ## Decoding behind a coded stream -/

/-- A decoder's answer with the bits s already output. -/
def Decoded.after (s : List Bool) (d : Decoded) : Decoded := { d with out := s ++ d.out }

/-- mdec consumes man(s) where the bound allows it, and goes on behind it. -/
theorem mdecLoop_man (s : List Bool) (tail : List (Option Byte)) (q : Nat) (bound : Option Nat)
    (hb : ∀ n, bound = some n → s.length ≤ n) :
    mdecLoop bound q ((symbolsOf (man s)).map some ++ tail) =
      (mdecLoop (bound.map (· - s.length)) (q + 2 * s.length) tail).map (Decoded.after s) := by
  induction s generalizing q bound with
  | nil =>
    have h : bound.map (· - 0) = bound := by cases bound <;> rfl
    simp only [man, symbolsOf, List.flatMap_nil, List.map_nil, List.nil_append, List.length_nil, h]
    cases mdecLoop bound (q + 2 * 0) tail <;> rfl
  | cons b s ih =>
    have h0 : bound ≠ some 0 := fun h => by have := hb 0 h; simp at this
    have e : man (b :: s) = (!b) :: b :: man s := rfl
    have hb' : ∀ n, boundAfter bound = some n → s.length ≤ n := by
      intro n hn
      cases bound with
      | none => cases hn
      | some m => have := hb m rfl; simp only [boundAfter, Option.map_some, Option.some.injEq] at hn; simp at this; omega
    have hm : (boundAfter bound).map (· - s.length) = bound.map (· - (b :: s).length) := by
      cases bound <;> simp [boundAfter]; omega
    have ih' := ih (q + 2) (boundAfter bound) hb'
    rw [hm, show q + 2 + 2 * s.length = q + 2 * (b :: s).length by simp; ring] at ih'
    rw [e]
    simp only [symbolsOf, List.map_cons, List.cons_append] at ih' ⊢
    conv_lhs => unfold mdecLoop
    rw [if_neg h0]
    simp only [pairBits_symbols, ih']
    rw [if_neg (by cases b <;> simp)]
    cases mdecLoop (bound.map (· - (b :: s).length)) (q + 2 * (b :: s).length) tail <;> rfl

/-- The second loop of dmdec consumes dmenc(s) from level l where the bound allows it, and goes on behind it. -/
theorem dmdecLoop_dmencFrom (s : List Bool) (tail : List (Option Byte)) (q : Nat) (l : Bool) (bound : Option Nat)
    (hb : ∀ n, bound = some n → s.length ≤ n) :
    ∃ f, dmdecLoop (!l) bound q ((symbolsOf (dmencFrom l s)).map some ++ tail) =
      (dmdecLoop f (bound.map (· - s.length)) (q + 2 * s.length) tail).map (Decoded.after s) := by
  induction s generalizing q l bound with
  | nil =>
    refine ⟨!l, ?_⟩
    have h : bound.map (· - 0) = bound := by cases bound <;> rfl
    simp only [dmencFrom, symbolsOf, List.map_nil, List.nil_append, List.length_nil, h]
    cases dmdecLoop (!l) bound (q + 2 * 0) tail <;> rfl
  | cons b s ih =>
    have h0 : bound ≠ some 0 := fun h => by have := hb 0 h; simp at this
    have hb' : ∀ n, boundAfter bound = some n → s.length ≤ n := by
      intro n hn
      cases bound with
      | none => cases hn
      | some m => have := hb m rfl; simp only [boundAfter, Option.map_some, Option.some.injEq] at hn; simp at this; omega
    have hm : (boundAfter bound).map (· - s.length) = bound.map (· - (b :: s).length) := by
      cases bound <;> simp [boundAfter]; omega
    set g := (if b then l else !l) with hg
    have e : dmencFrom l (b :: s) = g :: (!g) :: dmencFrom (!g) s := rfl
    obtain ⟨f, h⟩ := ih (q + 2) (!g) (boundAfter bound) hb'
    refine ⟨f, ?_⟩
    rw [hm, Bool.not_not, show q + 2 + 2 * s.length = q + 2 * (b :: s).length by simp; ring] at h
    rw [e]
    simp only [symbolsOf, List.map_cons, List.cons_append] at h ⊢
    conv_lhs => unfold dmdecLoop
    rw [if_neg h0]
    simp only [pairBits_symbols, h]
    rw [if_neg (by cases g <;> simp)]
    cases dmdecLoop f (bound.map (· - (b :: s).length)) (q + 2 * (b :: s).length) tail
    · rfl
    · simp only [Except.map, Decoded.after, Except.ok.injEq, List.cons_append, Decoded.mk.injEq, List.cons.injEq, and_true]
      rw [hg]; cases b <;> cases l <;> rfl

/-- The phase search stops at once at a coded stream that is not empty. -/
theorem dmPhase_dmenc {s : List Bool} (hs : s ≠ []) (tail : List (Option Byte)) (q : Nat) :
    dmPhase q ((symbolsOf (dmenc s)).map some ++ tail) = .ok (.found q ((symbolsOf (dmenc s)).map some ++ tail)) := by
  cases s with
  | nil => exact absurd rfl hs
  | cons b s => cases b <;> simp [dmenc, dmencFrom, symbolsOf, dmPhase]

/-- A pair whose first entry is unwritten. -/
theorem pairBits_unwritten_first (q : Nat) (u : Option Byte) :
    pairBits q none u = .error (.fault (.uninit .sb q)) := rfl

/-- A pair whose second entry alone is unwritten. -/
theorem pairBits_unwritten_second (q : Nat) (x : Byte) :
    pairBits q (some x) none = .error (.fault (.uninit .sb (q + 1))) := rfl

end Sys2Proof.Machine
end

