-- ==== Sys2Proof/Laws/Bus.lean ====
section
/-! SUPPORT. What a bus access can do, and that it keeps the memory's canonical form and bounds. -/

namespace Sys2Proof.Machine

/-! ## Locations -/

theorem locateWord_entry {c : Config} {w i : Nat} {b : Buffer} (h : locateWord c w = some (.entry b i)) :
    i < b.words c := by
  unfold locateWord at h
  have key : ∀ b' j, entryAt c b' j = some (.entry b i) → i < b.words c := by
    intro b' j h'
    unfold entryAt at h'
    split at h'
    · simp only [Option.some.injEq, Loc.entry.injEq] at h'
      obtain ⟨rfl, rfl⟩ := h'
      assumption
    · cases h'
  split_ifs at h
  · cases hr : regList[w]? <;> simp [hr] at h
  all_goals exact key _ _ h

/-- A located entry lies below its buffer's number of words (R62). -/
theorem locate_entry {c : Config} {a : Addr} {size i : Nat} {b : Buffer}
    (h : locate c a size = some (.entry b i)) : i < b.words c := by
  unfold locate at h
  split at h
  · exact locateWord_entry h
  · cases h

/-! ## Accesses -/

/-- A read that gets no bus error: a value, and no change but the count of draws (R61, R71). -/
theorem memRead_ok {a : Addr} {size : Nat} {s t : State} {v : Word} (h : memRead a size s = .ok (v, t)) :
    ∃ l, locate s.cfg a size = some l ∧ l.readable = true ∧
      ((s.readLoc l = some v ∧ t = s ∧ (s.eng.isBusy = true → l = .reg .STATUS)) ∨
       (v = Config.freeWord s.draws ∧ t = { s with draws := s.draws + 1 } ∧
        (s.readLoc l = none ∨ (s.eng.isBusy = true ∧ l ≠ .reg .STATUS)))) := by
  unfold memRead at h
  split at h
  · cases h
  · rename_i l hl
    refine ⟨l, hl, ?_⟩
    split at h
    · rename_i hr
      refine ⟨hr, ?_⟩
      split at h
      · rename_i hb
        simp only [State.draw, Except.ok.injEq, Prod.mk.injEq] at h
        exact .inr ⟨h.1.symm, h.2.symm, .inr hb⟩
      · rename_i hb
        split at h
        · rename_i v' hv
          simp only [Except.ok.injEq, Prod.mk.injEq] at h
          obtain ⟨rfl, rfl⟩ := h
          exact .inl ⟨hv, rfl, fun hbusy => by simpa [hbusy] using hb⟩
        · rename_i hv
          simp only [State.draw, Except.ok.injEq, Prod.mk.injEq] at h
          exact .inr ⟨h.1.symm, h.2.symm, .inl hv⟩
    · cases h

/-- A write that gets no bus error: lost with OVR set while busy, else stored (R61, R307). -/
theorem memWrite_ok {a : Addr} {size : Nat} {v : Word} {s t : State} (h : memWrite a size v s = .ok t) :
    ∃ l, locate s.cfg a size = some l ∧ l.writable = true ∧
      ((s.eng.isBusy = true ∧ t = { s with status := s.status.overrun }) ∨
       (s.eng.isBusy = false ∧ t = s.writeLoc l v)) := by
  unfold memWrite at h
  split at h
  · cases h
  · rename_i l hl
    refine ⟨l, hl, ?_⟩
    split at h
    · rename_i hw
      refine ⟨hw, ?_⟩
      split at h
      · rename_i hb
        simp only [Except.ok.injEq] at h
        exact .inl ⟨hb, h.symm⟩
      · rename_i hb
        simp only [Except.ok.injEq] at h
        exact .inr ⟨by simpa using hb, h.symm⟩
    · cases h

/-! ## The canonical form and the bounds -/

theorem Memory.wf_writeEntry {m : Memory} (h : m.wf) (b : Buffer) (i : Nat) (v : Word) :
    (m.writeEntry b i v).wf := by
  obtain ⟨h1, h2, h3, h4, h5⟩ := h
  cases b
  · exact ⟨Store.wf_set h1 _ _, h2, h3, h4, h5⟩
  · exact ⟨h1, Store.wf_set h2 _ _, h3, h4, h5⟩
  · exact ⟨h1, h2, Store.wf_set h3 _ _, h4, h5⟩
  · exact ⟨h1, h2, h3, h4, h5⟩
  · exact ⟨h1, h2, h3, h4, h5⟩

theorem Memory.within_writeEntry {c : Config} {m : Memory} (h : m.within c) {b : Buffer} {i : Nat}
    (hi : i < b.words c) (v : Word) : (m.writeEntry b i v).within c := by
  obtain ⟨h1, h2, h3, h4, h5⟩ := h
  cases b
  · exact ⟨Store.below_set h1 hi _, h2, h3, h4, h5⟩
  · exact ⟨h1, Store.below_set h2 hi _, h3, h4, h5⟩
  · exact ⟨h1, h2, Store.below_set h3 hi _, h4, h5⟩
  · exact ⟨h1, h2, h3, h4, h5⟩
  · exact ⟨h1, h2, h3, h4, h5⟩

/-- Read after write, for a window word the host may write (R65): BB and SB keep v[7:0], PB all of v, and every
other window word reads as it did. -/
theorem Memory.readEntry_writeEntry (m : Memory) (b b' : Buffer) (i j : Nat) (v : Word)
    (hb : (Loc.entry b i).writable = true) :
    (m.writeEntry b i v).readEntry b' j =
      if b' = b ∧ j = i then some (if b = .pb then v else (v.extractLsb' 0 8).setWidth 32)
      else m.readEntry b' j := by
  cases b <;> simp [Loc.writable] at hb <;> cases b' <;>
    simp [Memory.writeEntry, Memory.readEntry, Store.get_set, eq_comm] <;>
    (by_cases h : i = j <;> simp [h])

/-- A host write keeps the memory's form and bounds. -/
theorem State.writeLoc_mem {s : State} {l : Loc} {a : Addr} {size : Nat} {v : Word}
    (hl : locate s.cfg a size = some l) (hwf : s.mem.wf) (hin : s.mem.within s.cfg) :
    (s.writeLoc l v).mem.wf ∧ (s.writeLoc l v).mem.within s.cfg := by
  cases l with
  | reg r => cases r <;> exact ⟨hwf, hin⟩
  | entry b i => exact ⟨Memory.wf_writeEntry hwf b i v, Memory.within_writeEntry hin (locate_entry hl) v⟩

/-- A host write leaves FB and QB, which are read-only to it, as they were (R64). -/
theorem State.writeLoc_readOnly (s : State) (l : Loc) (v : Word) :
    (s.writeLoc l v).mem.fb = s.mem.fb ∧ (s.writeLoc l v).mem.qb = s.mem.qb := by
  cases l with
  | reg r => cases r <;> exact ⟨rfl, rfl⟩
  | entry b i => cases b <;> exact ⟨rfl, rfl⟩

end Sys2Proof.Machine
end

