-- ==== Sys2Proof/Laws/Map.lean ====
section
/-! SUPPORT. The address map: which accesses reach a location, and where each location lies. -/

namespace Sys2Proof.Machine

/-- No entry beyond a capacity (R62). -/
theorem entryAt_eq_none {c : Config} {b : Buffer} {i : Nat} : entryAt c b i = none ↔ b.words c ≤ i := by
  simp [entryAt]

theorem entryAt_of_lt {c : Config} {b : Buffer} {i : Nat} (h : i < b.words c) : entryAt c b i = some (.entry b i) := by
  simp [entryAt, h]

/-- An access reaches no location exactly where it is misaligned, not 4 bytes, or unmapped (R62). -/
theorem locate_eq_none_iff {c : Config} (hv : c.Valid) {a : Addr} {size : Nat} :
    locate c a size = none ↔ (a.toNat % 4 ≠ 0 ∨ size ≠ 4 ∨ ¬ Mapped c a.toNat) := by
  have ha := a.isLt
  simp only [locate]
  generalize a.toNat = n at *
  by_cases h4 : size = 4
  swap
  · simp [h4]
  by_cases hm : n % 4 = 0
  swap
  · simp [hm]
  simp only [h4, hm, and_self, if_true, not_true_eq_false, ne_eq, false_or]
  obtain ⟨-, h2, -, h4, -, h6, -, h8, -, h10⟩ := hv
  obtain ⟨w, rfl⟩ : ∃ w, n = 4 * w := ⟨n / 4, by omega⟩
  rw [Nat.mul_div_cancel_left _ (by omega)]
  unfold locateWord Mapped
  split_ifs <;> simp only [entryAt_eq_none, Option.map_eq_none_iff, List.getElem?_eq_none_iff, Buffer.words,
    show regList.length = 22 from rfl, true_iff] <;> omega

/-- A register lies at its offset (R63). -/
theorem locate_reg (c : Config) (r : Reg) : locate c (BitVec.ofNat 24 r.offset) 4 = some (.reg r) := by
  cases r <;> simp [locate, Reg.offset, locateWord, regList]

/-- The registers are listed by offset (R22). -/
theorem regList_offset : ∀ w r, regList[w]? = some r → r.offset = 4 * w := by
  intro w r h
  have hw : w < 22 := by
    have := (List.getElem?_eq_some_iff.1 h).1
    simpa [regList] using this
  interval_cases w <;> simp [regList] at h <;> subst h <;> rfl

/-- What the address of a located access is. -/
theorem locate_address {c : Config} {a : Addr} {size : Nat} {l : Loc} (h : locate c a size = some l) :
    size = 4 ∧ a.toNat % 4 = 0 ∧
      match l with
      | .reg r => a.toNat = r.offset
      | .entry b i => a.toNat = b.base + 4 * i ∧ i < b.words c := by
  unfold locate at h
  split at h
  · rename_i hh
    refine ⟨hh.1, hh.2, ?_⟩
    obtain ⟨w, hw⟩ : ∃ w, a.toNat = 4 * w := ⟨a.toNat / 4, by omega⟩
    rw [hw, Nat.mul_div_cancel_left _ (by omega)] at h
    rw [hw]
    unfold locateWord entryAt at h
    by_cases h0 : w < 0x40000
    · rw [if_pos h0] at h
      cases hr : regList[w]? with
      | none => simp [hr] at h
      | some r =>
        simp only [hr, Option.map_some, Option.some.injEq] at h
        subst h
        exact (regList_offset w r hr).symm
    · rw [if_neg h0] at h
      repeat' split at h
      all_goals first
        | cases h; done
        | (simp only [Option.some.injEq] at h; subst h; simp only [Buffer.base]; omega)
  · cases h

/-- Word i of a buffer's window lies at the address R64 and R65 give it. -/
theorem locate_windowAddr {c : Config} (hv : c.Valid) {b : Buffer} {i : Nat} (h : i < b.words c) :
    locate c (windowAddr b i) 4 = some (.entry b i) := by
  obtain ⟨-, g2, -, g4, -, g6, -, g8, -, g10⟩ := hv
  have hb : b.base + 4 * i < 2 ^ 24 := by cases b <;> simp only [Buffer.base, Buffer.words] at * <;> omega
  have e : (windowAddr b i).toNat = b.base + 4 * i := by simp [windowAddr]; omega
  have e1 : (b.base + 4 * i) % 4 = 0 := by cases b <;> simp only [Buffer.base] <;> omega
  rw [locate, e, if_pos ⟨rfl, e1⟩, locateWord]
  have k : ∀ w, w = (b.base + 4 * i) / 4 → b.base = 4 * (w - i) ∧ i ≤ w := by
    intro w hw; subst hw; cases b <;> simp only [Buffer.base] <;> omega
  generalize (b.base + 4 * i) / 4 = w at k
  obtain ⟨k1, k2⟩ := k w rfl
  cases b <;> simp only [Buffer.base, Buffer.words] at *
  · rw [if_neg (by omega), if_pos (by omega), show w - 0x40000 = i by omega, entryAt_of_lt h]
  · rw [if_neg (by omega), if_neg (by omega), if_pos (by omega), show w - 0x80000 = i by omega, entryAt_of_lt h]
  · rw [if_neg (by omega), if_neg (by omega), if_neg (by omega), if_pos (by omega), show w - 0xC0000 = i by omega, entryAt_of_lt h]
  · rw [if_neg (by omega), if_neg (by omega), if_neg (by omega), if_neg (by omega), if_pos (by omega), show w - 0x100000 = i by omega, entryAt_of_lt h]
  · rw [if_neg (by omega), if_neg (by omega), if_neg (by omega), if_neg (by omega), if_neg (by omega), if_pos (by omega), show w - 0x140000 = i by omega, entryAt_of_lt h]
end Sys2Proof.Machine
end

