-- ==== Sys2Proof/Laws/Step.lean ====
section
/-! SUPPORT. What a step can do: one case per kind of host operation, and the engine's completion. -/

namespace Sys2Proof.Machine

/-- Every host turn that answers a next state. -/
theorem hostTurn_next {s t : State} (h : hostTurn s = .next t) :
    (s.host = [] ∧ t = s) ∨
    (∃ a n rest v u, s.host = .read a n :: rest ∧ memRead a n s = .ok (v, u) ∧
      t = { u with host := rest, reads := u.reads ++ [v] }) ∨
    (∃ a n v rest u, s.host = .write a n v :: rest ∧ memWrite a n v s = .ok u ∧ t = { u with host := rest }) ∨
    (∃ rest, s.host = .wait :: rest ∧
      t = { s with host := if s.eng.isBusy then .wait :: rest else rest, reads := s.reads ++ [s.statusReg] }) ∨
    (∃ rest, s.host = .reset :: rest ∧ t = { s.powerOn with host := rest }) := by
  unfold hostTurn at h
  split at h
  · rename_i hh
    exact .inl ⟨hh, by simpa using h.symm⟩
  · rename_i a n rest hh
    split at h
    · rename_i v u hr
      exact .inr (.inl ⟨a, n, rest, v, u, hh, hr, by simpa using h.symm⟩)
    · cases h
  · rename_i a n v rest hh
    split at h
    · rename_i u hw
      exact .inr (.inr (.inl ⟨a, n, v, rest, u, hh, hw, by simpa using h.symm⟩))
    · cases h
  · rename_i rest hh
    exact .inr (.inr (.inr (.inl ⟨rest, hh, by simpa using h.symm⟩)))
  · rename_i rest hh
    exact .inr (.inr (.inr (.inr ⟨rest, hh, by simpa using h.symm⟩)))

/-- Every step is a host turn or the engine's completion of the latched word (R305, R306). -/
theorem step_cases (s : State) :
    (∃ w, s.eng = .busy w ∧ s.lag = 0 ∧ step s = engineTurn w s) ∨
    (∃ w n, s.eng = .busy w ∧ s.lag = n + 1 ∧ step s = hostTurn { s with lag := n }) ∨
    (s.eng = .idle ∧ step s = hostTurn s) := by
  unfold step
  cases he : s.eng with
  | idle => simp
  | busy w => cases hl : s.lag <;> simp

/-- The engine's turn: a decoded command's meaning, or ILLEGAL_COMMAND (R94, R274). -/
theorem engineTurn_cases (w : Word) (s : State) :
    (∃ i, decode w = .ok i ∧ engineTurn w s = exec i s) ∨
    (∃ e, decode w = .error e ∧ engineTurn w s = .next (s.fail .illegalCommand)) := by
  unfold engineTurn
  cases hd : decode w with
  | ok i => exact .inl ⟨i, rfl, rfl⟩
  | error e => exact .inr ⟨e, rfl, rfl⟩

theorem step_idle {s : State} (h : s.eng = .idle) : step s = hostTurn s := by simp [step, h]

theorem step_complete {s : State} {w : Word} (h : s.eng = .busy w) (hl : s.lag = 0) :
    step s = engineTurn w s := by simp [step, h, hl]

theorem step_waiting {s : State} {w : Word} {n : Nat} (h : s.eng = .busy w) (hl : s.lag = n + 1) :
    step s = hostTurn { s with lag := n } := by simp [step, h, hl]

end Sys2Proof.Machine
end

