-- ==== Sys2Proof/Laws/PerInstr.lean ====
section
/-! SUPPORT. Statements about every command as syntax, one lemma per constructor. -/

namespace Sys2Proof.Laws

/-- The row of R93 a command belongs to. -/
def opcodeOf : Instr → Opcode
  | .crc8 _ _ => .CRC8
  | .manEnc => .MAN_ENC
  | .manDec _ => .MAN_DEC
  | .dmanEnc => .DMAN_ENC
  | .dmanDec _ => .DMAN_DEC
  | .pcmEnc => .PCM_ENC
  | .pcmDec => .PCM_DEC
  | .encA _ _ => .ENC_A
  | .encB _ _ => .ENC_B
  | .encC => .ENC_C
  | .encAx _ _ _ _ => .ENC_AX
  | .fit _ => .FIT
  | .fskGen => .FSK_GEN

namespace EncodeOp

/-- The OP byte of a command's word is the OP byte of its row's pattern (R90, R93, R103). -/
def Statement (i : Instr) : Prop :=
  ∃ r ∈ opcodeRows, r.op = opcodeOf i ∧ opField (encode i) = opField r.pattern

theorem crc8 (poly init : Byte) : Statement (.crc8 poly init) := by
  refine ⟨⟨.CRC8, 0xFF0000FF, 0x00000001⟩, by decide, rfl, ?_⟩
  ext k hk
  simp only [opField, encode, BitVec.getElem_extractLsb', BitVec.getLsbD_or, BitVec.getLsbD_shiftLeft]
  simp [show k < 8 from hk, show k < 16 by omega]

theorem manEnc : Statement .manEnc := ⟨⟨.MAN_ENC, 0xFFFFFFFF, 0x00000010⟩, by decide, rfl, by decide⟩
theorem manDec (be : Bool) : Statement (.manDec be) :=
  ⟨⟨.MAN_DEC, 0xFEFFFFFF, 0x00000011⟩, by decide, rfl, by cases be <;> decide⟩
theorem dmanEnc : Statement .dmanEnc := ⟨⟨.DMAN_ENC, 0xFFFFFFFF, 0x00000012⟩, by decide, rfl, by decide⟩
theorem dmanDec (be : Bool) : Statement (.dmanDec be) :=
  ⟨⟨.DMAN_DEC, 0xFEFFFFFF, 0x00000013⟩, by decide, rfl, by cases be <;> decide⟩
theorem pcmEnc : Statement .pcmEnc := ⟨⟨.PCM_ENC, 0xFFFFFFFF, 0x00000020⟩, by decide, rfl, by decide⟩
theorem pcmDec : Statement .pcmDec := ⟨⟨.PCM_DEC, 0xFFFFFFFF, 0x00000021⟩, by decide, rfl, by decide⟩
theorem encA (df de : Bool) : Statement (.encA df de) :=
  ⟨⟨.ENC_A, 0xFCFFFFFF, 0x00000030⟩, by decide, rfl, by cases df <;> cases de <;> decide⟩
theorem encB (df de : Bool) : Statement (.encB df de) :=
  ⟨⟨.ENC_B, 0xFCFFFFFF, 0x00000031⟩, by decide, rfl, by cases df <;> cases de <;> decide⟩
theorem encC : Statement .encC := ⟨⟨.ENC_C, 0xFFFFFFFF, 0x00000032⟩, by decide, rfl, by decide⟩

theorem encAx (l : Nat) (pol : PadPolicy) (df de : Bool) : Statement (.encAx l pol df de) := by
  refine ⟨⟨.ENC_AX, 0xFCFC00FF, 0x00000033⟩, by decide, rfl, ?_⟩
  ext k hk
  simp only [opField, encode, BitVec.getElem_extractLsb', BitVec.getLsbD_or, BitVec.getLsbD_shiftLeft]
  have hf : ∀ (b : Bool) (n : Nat), 8 ≤ n → (fmBit b n).getLsbD k = false := by
    intro b n hn
    cases b
    · simp [fmBit]
    · simp [fmBit, BitVec.getLsbD_shiftLeft]; omega
  simp [hf df 24 (by omega), hf de 25 (by omega), show k < 8 from hk, show k < 16 by omega]

theorem fit (ps : Bool) : Statement (.fit ps) :=
  ⟨⟨.FIT, 0xFEFFFFFF, 0x00000034⟩, by decide, rfl, by cases ps <;> decide⟩
theorem fskGen : Statement .fskGen := ⟨⟨.FSK_GEN, 0xFFFFFFFF, 0x00000040⟩, by decide, rfl, by decide⟩

end EncodeOp
end Sys2Proof.Laws
end

