-- ==== Sys2Proof/Tests/Slice0.lean ====
section
/-! SUPPORT. The model's own tests: the spec's worked examples (95_test_vectors.md and the Example lines of
the rules), each one step or one pure function. -/

set_option Elab.async false

namespace Sys2Proof.Tests

open Sys2Proof.Machine

/-! ## Well-formedness -/

/-- R92: L is 0 to 255. -/
theorem test_wellFormed_refuses_wide_L : (Instr.encAx 256 .zero true true).wellFormed = false := by decide

theorem test_wellFormed_takes_largest_L : (Instr.encAx 255 .zero true true).wellFormed = true := by decide

/-! ## Decoding, by words written out from R90, R91 and R103: FM, FB, FA, OP -/

theorem test_decode_crc8 : decode 0b00000000_10000000_00000111_00000001 = .ok (.crc8 0x07 0x80) := by decide
theorem test_decode_manEnc : decode 0b00000000_00000000_00000000_00010000 = .ok .manEnc := by decide
theorem test_decode_manDec : decode 0b00000001_00000000_00000000_00010001 = .ok (.manDec true) := by decide
theorem test_decode_dmanEnc : decode 0b00000000_00000000_00000000_00010010 = .ok .dmanEnc := by decide
theorem test_decode_dmanDec : decode 0b00000000_00000000_00000000_00010011 = .ok (.dmanDec false) := by decide
theorem test_decode_pcmEnc : decode 0b00000000_00000000_00000000_00100000 = .ok .pcmEnc := by decide
theorem test_decode_pcmDec : decode 0b00000000_00000000_00000000_00100001 = .ok .pcmDec := by decide
theorem test_decode_encA : decode 0b00000010_00000000_00000000_00110000 = .ok (.encA false true) := by decide
theorem test_decode_encB : decode 0b00000001_00000000_00000000_00110001 = .ok (.encB true false) := by decide
theorem test_decode_encC : decode 0b00000000_00000000_00000000_00110010 = .ok .encC := by decide
theorem test_decode_encAx :
    decode 0b00000001_00000011_00001100_00110011 = .ok (.encAx 12 .custom true false) := by decide
theorem test_decode_fit : decode 0b00000001_00000000_00000000_00110100 = .ok (.fit true) := by decide
theorem test_decode_fskGen : decode 0b00000000_00000000_00000000_01000000 = .ok .fskGen := by decide

/-- R274's examples, and R95's unassigned OP. -/
theorem test_decode_rejects :
    decode 0x00000000 = .error .unassignedOp ∧ decode 0x01000032 = .error .reservedBit ∧
    decode 0x00040C33 = .error .reservedBit ∧ decode 0x02000011 = .error .reservedBit ∧
    decode 0x000000FF = .error .unassignedOp ∧ decode 0x01000701 = .error .reservedBit := by decide

/-- R93: no two rows match the same word, since every mask covers OP and the OP values differ. -/
theorem test_rows_disjoint :
    opcodeRows.Pairwise (fun r q => r.pattern.extractLsb' 0 8 ≠ q.pattern.extractLsb' 0 8) ∧
    ∀ r ∈ opcodeRows, r.mask.extractLsb' 0 8 = 0xFF := by decide

/-- The host's numbering of a command word is the word's own. -/
theorem test_decodeTableWord : decodeTableWord 32 0x03030C33 = some (.encAx 12 .custom true true) := by decide

/-! ## A small state -/

/-- The TEST CONFIGURATION of 95_test_vectors.md (not hardware values). -/
def testConfig : Config :=
  { Config.reference with preA := 0x01234567, preB := 0x89ABCD, preC := 0xEF01, smC := 0b10 }

/-- The launch state of R315 in the test configuration. -/
def start : State := State.resetWith testConfig

/-- start with SB[0..n) = xs and SB_LEN = n. -/
def withSymbols (xs : List Byte) : State :=
  { start with mem := { start.mem with sb := Store.listed 0 xs }, sbLen := BitVec.ofNat 32 xs.length }

/-- start with BB[0..n) = xs and BB_LEN = n. -/
def withBytes (xs : List Byte) : State :=
  { start with mem := { start.mem with bb := Store.listed 0 xs }, bbLen := BitVec.ofNat 32 xs.length }

/-- start with PB[0..n) = ps and PB_LEN = n. -/
def withPulses (ps : List (Word × Word)) : State :=
  { start with mem := { start.mem with pb := Store.listed 0 (halves ps) }, pbLen := BitVec.ofNat 32 ps.length }

/-- The reading of the worked examples: SENSOR_ID = 0x00123456, P = 220.0, TEMP = 25. -/
def reading : State := { start with sensorId := 0x00123456, pressHi := 0x406B8000, temp := 25 }

/-- s with the command latched and n host turns to pass. -/
def running (i : Instr) (n : Nat) (s : State) : State := s.latch (encode i) n

/-- What f shows of the next state; none where there is none. -/
def shows {α : Type} (f : State → α) : Host.Outcome State Fault Refusal → Option α
  | .next t => some (f t)
  | .fault _ => none
  | .refused _ => none

/-- SB, SB_LEN, RESULT and STATUS. -/
def symbolsShown (t : State) : List (Nat × Byte) × Word × Word × Word :=
  (t.mem.sb, t.sbLen, t.result, t.statusReg)

/-- PB, PB_LEN and STATUS. -/
def pulsesShown (t : State) : List (Nat × Word) × Word × Word := (t.mem.pb, t.pbLen, t.statusReg)

/-- FB, FB_LEN, SB_LEN and STATUS. -/
def frameShown (t : State) : List (Nat × Byte) × Word × Word × Word :=
  (t.mem.fb, t.fbLen, t.sbLen, t.statusReg)

theorem holds_listed {width : Nat} (xs : List (BitVec width)) : Store.Holds (Store.listed 0 xs) xs :=
  fun k _ => by simp [Store.get_listed]

/-! ## One command each: 95_test_vectors.md L2, by section -/

/-- R122 and L2: 01 02 03 gives 0x48 (conflict C1: not the source's 188). -/
theorem test_crc8 : shows (fun t => (t.result, t.statusReg)) (exec (.crc8 0x07 0x00) (withBytes [1, 2, 3])) =
    some (0x48, 0x02) := by decide +kernel

theorem test_crc8_poly_and_init :
    shows (fun t => (t.result, t.statusReg)) (exec (.crc8 0x31 0xFF) (withBytes [1, 2, 3])) =
      some (0x87, 0x02) := by decide +kernel

theorem test_manEnc : shows symbolsShown (exec .manEnc (withSymbols [1, 0, 1, 1])) =
    some (Store.listed 0 [0, 1, 1, 0, 0, 1, 0, 1], 8, 0, 0x02) := by decide +kernel

theorem test_manEnc_invalid : shows symbolsShown (exec .manEnc (withSymbols [0, 3])) =
    some (Store.listed 0 [0, 3], 2, 0, 0x10A) := by decide +kernel

/-- R143's example: desync at offset 4. -/
theorem test_manDec : shows symbolsShown (exec (.manDec false) (withSymbols [0, 1, 1, 0, 1, 1, 0, 1])) =
    some (Store.listed 0 [1, 0, 1, 0, 1, 1, 0, 1], 2, 4, 0x06) := by decide +kernel

theorem test_manDec_bound :
    shows symbolsShown (exec (.manDec true) { withSymbols [0, 1, 1, 0, 0, 1] with decBound := 2 }) =
      some (Store.listed 0 [1, 0, 1, 0, 0, 1], 2, 4, 0x02) := by decide +kernel

theorem test_dmanEnc : shows symbolsShown (exec .dmanEnc (withSymbols [1, 0, 1, 1])) =
    some (Store.listed 0 [1, 0, 1, 0, 0, 1, 1, 0], 8, 0, 0x02) := by decide +kernel

theorem test_dmanEnc_zero_first : shows symbolsShown (exec .dmanEnc (withSymbols [0, 1, 0])) =
    some (Store.listed 0 [0, 1, 1, 0, 1, 0], 6, 0, 0x02) := by decide +kernel

/-- R147: phase found at 2. -/
theorem test_dmanDec_phase : shows symbolsShown (exec (.dmanDec false) (withSymbols [1, 1, 1, 0, 0, 1])) =
    some (Store.listed 0 [1, 1, 1, 0, 0, 1], 2, 6, 0x02) := by decide +kernel

/-- R147's example, from offset 2. -/
theorem test_dmanDec_offset :
    shows symbolsShown (exec (.dmanDec false) { withSymbols [1, 0, 1, 0, 0, 1, 1, 0] with decOff := 2 }) =
      some (Store.listed 0 [1, 1, 1, 0, 0, 1, 1, 0], 3, 8, 0x02) := by decide +kernel

theorem test_pcmEnc : shows pulsesShown (exec .pcmEnc (withSymbols [1, 1, 0, 1, 0, 0, 0, 1])) =
    some (Store.listed 0 [2, 1, 1, 3, 1, 0], 3, 0x02) := by decide +kernel

/-- S11: the leading zero run is skipped. -/
theorem test_pcmEnc_leading_zeros : shows pulsesShown (exec .pcmEnc (withSymbols [0, 0, 1, 1, 0])) =
    some (Store.listed 0 [2, 1], 1, 0x02) := by decide +kernel

theorem test_pcmDec : shows symbolsShown (exec .pcmDec (withPulses [(0, 3), (2, 0), (1, 1)])) =
    some (Store.listed 0 [0, 0, 0, 1, 1, 1, 0], 7, 0, 0x02) := by decide +kernel

/-- R173: the sum of widths does not wrap. -/
theorem test_pcmDec_no_wrap : shows symbolsShown (exec .pcmDec (withPulses [(0xFFFFFFFF, 0xFFFFFFFF)])) =
    some ([], 0, 0, 0x40A) := by decide +kernel

/-- S13, the end-to-end case. -/
theorem test_encA : shows frameShown (exec (.encA true true) reading) =
    some (Store.listed 0 [0xD9, 0x25, 0x37, 0x56, 0x34, 0x12, 0x19, 0xBC, 0x4D], 9, 176, 0x02) := by
  decide +kernel

/-- R199: every field wraps. -/
theorem test_encA_wraps :
    shows frameShown (exec (.encA false false) { start with
      sensorId := 0xFFFFFFFF, pressHi := 0xBFF00000, temp := 0xFFFFFFE1, flags := 0xFF, extra := 0xFFFF }) =
      some (Store.listed 0 [0xFF, 0xFF, 0xFF, 0xFF, 0xFF, 0xFF, 0xFF, 0xFF, 0xD7], 9, 176, 0x02) := by
  decide +kernel

theorem test_encB : shows frameShown (exec (.encB true true) reading) =
    some (Store.listed 0 [0x00, 0x12, 0x34, 0x56, 0x50, 0xD4, 0x4B, 0x01, 0xBE], 9, 168, 0x02) := by
  decide +kernel

theorem test_encB_negative :
    shows frameShown (exec (.encB false false) { start with
      sensorId := 0xDEADBEEF, pressHi := 0xC0590000, temp := 0xFFFFFFCD, flags := 0xFF, extra := 0x00AB }) =
      some (Store.listed 0 [0xDE, 0xAD, 0xBE, 0xEF, 0xFF, 0xA0, 0xFF, 0xAB, 0x29], 9, 168, 0x02) := by
  decide +kernel

theorem test_encC : shows frameShown (exec .encC { reading with flags := 0x5A }) =
    some (Store.listed 0 [0x00, 0x12, 0x34, 0x56, 0x92, 0xA0, 0xDA, 0xDA, 0x67], 9, 162, 0x02) := by
  decide +kernel

theorem test_encC_negative :
    shows frameShown (exec .encC { start with
      sensorId := 0xCAFEF00D, pressHi := 0xBFE80000, temp := 0xFFFFFFD7, flags := 0xFF }) =
      some (Store.listed 0 [0xCA, 0xFE, 0xF0, 0x0D, 0xFF, 0xFF, 0xFF, 0x00, 0x1F], 9, 162, 0x02) := by
  decide +kernel

theorem test_encAx_custom :
    shows frameShown (exec (.encAx 12 .custom true true) { reading with mem := (withBytes [0xAA, 0x55]).mem, bbLen := 2 }) =
      some (Store.listed 0 [0xD9, 0x25, 0x37, 0x56, 0x34, 0x12, 0x19, 0xBC, 0xAA, 0x55, 0xAA, 0xCA], 12, 224, 0x02) := by
  decide +kernel

/-- R278: FRAME_TOO_SHORT comes before EMPTY_PAD_LIST. -/
theorem test_encAx_order : shows frameShown (exec (.encAx 0 .custom true true) reading) =
    some ([], 0, 0, 0x20A) := by decide +kernel

theorem test_fit_truncates : shows symbolsShown (exec (.fit false) { withSymbols [1, 0, 1, 1, 0] with fitLen := 3 }) =
    some (Store.listed 0 [1, 0, 1, 1, 0], 3, 0, 0x02) := by decide +kernel

theorem test_fit_pads : shows symbolsShown (exec (.fit true) { withSymbols [1, 0, 1, 1, 0] with fitLen := 8 }) =
    some (Store.listed 0 [1, 0, 1, 1, 0, 1, 1, 1], 8, 0, 0x02) := by decide +kernel

/-- The FSK registers of S18. -/
def tuned (s : State) : State :=
  { s with markHz := 35000, spaceHz := 0xFFFF7748, fsHz := 250000, symUs := 52, padUs := 100 }

/-- S18: 26 samples and 25 zeros. -/
theorem test_fskGen : shows (fun t => (t.qbLen, t.statusReg)) (exec .fskGen (tuned (withPulses [(1, 1)]))) =
    some (51, 0x02) := by decide +kernel

theorem test_fskGen_no_rate : shows (fun t => (t.qbLen, t.statusReg)) (exec .fskGen (withPulses [(1, 1)])) =
    some (0, 0x50A) := by decide +kernel

/-! ## Streams, bus and steps -/

/-- R219: the first 48 symbols of the Variant A stream: PRE_A, then byte 0 = 0xD9 inverted-Manchester. -/
theorem test_streamA : shows (fun t => (t.mem.sb.take 48).map Prod.snd) (exec (.encA true true) reading) =
    some (symbolsOf (bitsMSB 0x01234567#32) ++ [1, 0, 1, 0, 0, 1, 1, 0, 1, 0, 0, 1, 0, 1, 1, 0]) := by decide +kernel

/-- R65: BB keeps v[7:0]. FLAGS keeps v[7:0]. -/
theorem test_bus :
    shows (fun t => t.reads) (Host.Core.run Sys2Proof.core 4 { start with
      host := [.wr 0x100000 0x1FF, .rd 0x100000, .wrReg .FLAGS 0x1234, .rdReg .FLAGS] }) = some [0xFF, 0x34] := by
  decide +kernel

/-- R305: the word the host's tests latch runs in the very next step. -/
theorem test_withFetchWord :
    shows (fun t => (t.eng, t.result, t.statusReg)) (step (State.withFetchWord State.reset 32 0x005A0701)) =
      some (.idle, 0x5A, 0x02) := by decide +kernel

/-- R274: a zero word. -/
theorem test_illegal_word :
    shows (fun t => (t.eng, t.statusReg)) (step (State.withFetchWord State.reset 32 0)) = some (.idle, 0x30A) := by
  decide +kernel

/-! ## Witnesses: each statement's hypotheses, met together -/

theorem witness_EncodedCommandDecodesBack :
    (Instr.encAx 255 .custom true true).wellFormed = true ∧ (Instr.encAx 0 .repeatData false false).wellFormed = true := by
  decide

theorem witness_DecodedWordIsItsEncoding : decode 0x0303FF33 = .ok (.encAx 255 .custom true true) := by decide

theorem witness_DecodingSelectsTheMatchingRow :
    (∃ r ∈ opcodeRows, 0x00FFFF01#32 &&& r.mask = r.pattern) ∧
    ∀ r ∈ opcodeRows, 0xFFFFFFFF#32 &&& r.mask ≠ r.pattern := by decide

theorem witness_StepRunsTheDecodedCommand :
    (running .fskGen 0 start).eng = .busy 0x40 ∧ (running .fskGen 0 start).lag = 0 ∧ decode 0x40 = .ok .fskGen :=
  ⟨rfl, rfl, by decide⟩

theorem witness_IllegalWordEndsInIllegalCommand :
    (start.latch 0 0).eng = .busy 0 ∧ (start.latch 0 0).lag = 0 ∧ (∀ r ∈ opcodeRows, 0#32 &&& r.mask ≠ r.pattern) ∧
    ∃ r ∈ opcodeRows, opField r.pattern = opField 0x01000032 ∧ 0x01000032#32 &&& r.mask ≠ r.pattern :=
  ⟨rfl, rfl, by decide, by decide⟩

theorem witness_HostMovesWhileTheEngineWaits :
    start.eng = .idle ∧ (running .fskGen 1 start).eng = .busy 0x40 ∧ (running .fskGen 1 start).lag = 0 + 1 ∧
    start.host = [] ∧ memRead 0x000054 4 start = .ok (0, start) ∧
    memWrite 0x000054 4 7 start = .ok { start with padUs := 7 } ∧ memRead 0x000004 4 start = .ok (0, start) ∧
    memRead 0x000004 4 (running .fskGen 1 start) = .ok (1, running .fskGen 1 start) ∧
    ({ start with host := [.write 0x000000 4 0x40] } : State).host = .write 0x000000 4 0x40 :: [] :=
  ⟨rfl, rfl, rfl, rfl, by decide +kernel, by decide +kernel, by decide +kernel, by decide +kernel, rfl⟩

theorem witness_WaitEndsAfterCompletion :
    let s := running .fskGen 2 { start with host := [.wait] };
    s.eng = .busy 0x40 ∧ s.host = .wait :: [] ∧ ∃ t, engineTurn 0x40 s = .next t := ⟨rfl, rfl, _, rfl⟩

theorem witness_ResetAbandonsTheCommand :
    ({ start with host := [.reset] } : State).host = .reset :: [] ∧ start.eng = .idle ∧
    (running .fskGen 1 { start with host := [.reset] }).host = .reset :: [] ∧ (running .fskGen 1 start).lag ≠ 0 :=
  ⟨rfl, rfl, rfl, by decide⟩

/-- The test configuration is valid, and so are the least capacities of R5. -/
theorem witness_valid : testConfig.Valid ∧
    ({ testConfig with bbCap := 8, fbCap := 64, sbCap := 1056, pbCap := 528, qbCap := 1 } : Config).Valid := by decide

/-- Each kind of bus error, at the edges of the map (R62), and the last mapped words. -/
theorem witness_BusErrorExactlyAsListed :
    (2 % 4 ≠ 0 ∧ ¬ Mapped testConfig 0x58 ∧ ¬ Mapped testConfig 0x100400 ∧ ¬ Mapped testConfig 0x600000 ∧
      ReadOnly 0x04 ∧ ReadOnly 0x400000 ∧ ReadOnly 0x5FFFFC) ∧
    (Mapped testConfig 0x54 ∧ Mapped testConfig 0x1003FC ∧ Mapped testConfig 0x303FFC ∧ Mapped testConfig 0x5FFFFC ∧
      ¬ ReadOnly 0x303FFC) ∧
    ({ start with host := [.read 0 4] } : State).host = .read 0 4 :: [] ∧
    memRead 0 4 { start with host := [.read 0 4] } = .error (.busError 0 4) ∧
    memWrite 0x5FFFFC 4 7 { start with host := [.write 0x5FFFFC 4 7] } = .error (.busError 0x5FFFFC 4) := by
  refine ⟨by decide, by decide, rfl, by decide +kernel, by decide +kernel⟩

theorem witness_OperandRegistersReadBack :
    start.eng = .idle ∧ Reg.EXTRA ∉ [Reg.CMD, .STATUS, .RESULT, .FB_LEN, .QB_LEN] ∧
    Reg.PAD_US ∉ [Reg.CMD, .STATUS, .RESULT, .FB_LEN, .QB_LEN] := by decide

theorem witness_BufferEntriesReadBack :
    start.cfg.Valid ∧ start.eng = .idle ∧ 255 < Buffer.bb.words start.cfg ∧ 4095 < Buffer.sb.words start.cfg ∧
    4095 < Buffer.pb.words start.cfg := by decide

/-- The last entry of each window written, and one never written. -/
theorem witness_IdleReadsReturnTheLocation :
    let s : State := { start with mem :=
      { bb := [(255, 1)], sb := [(4095, 2)], pb := [(4094, 3), (4095, 4)], fb := [(255, 5)],
        qb := [(262142, 6), (262143, 7)] } };
    (s.cfg.Valid ∧ s.eng = .idle) ∧
    (255 < s.cfg.bbCap ∧ Store.get 255 s.mem.bb = some 1) ∧ (4095 < s.cfg.sbCap ∧ Store.get 4095 s.mem.sb = some 2) ∧
    (255 < s.cfg.fbCap ∧ Store.get 255 s.mem.fb = some 5) ∧
    (2047 < s.cfg.pbCap ∧ Store.get (2 * 2047) s.mem.pb = some 3 ∧ Store.get (2 * 2047 + 1) s.mem.pb = some 4) ∧
    (131071 < s.cfg.qbCap ∧ Store.get (2 * 131071) s.mem.qb = some 6 ∧ Store.get (2 * 131071 + 1) s.mem.qb = some 7) ∧
    (262141 < Buffer.qb.words s.cfg ∧ s.mem.readEntry .qb 262141 = none) := by decide

/-- A busy state with the invariant. -/
theorem busy_inv : Inv (running .manEnc 3 (withSymbols [1, 0])) where
  cfgValid := by decide
  memWf := by decide
  memWithin := by decide
  errCode := by decide
  errNoDesync := by decide
  setWithDone := by decide
  busyClear := by decide
  cacheTable := by intro c hc; cases hc
  frameSealed := .inl rfl
  samplesWritten := ⟨by decide, by intro k hk; simp [running, State.latch, withSymbols, start, State.resetWith] at hk⟩

theorem witness_AccessesWhileBusy :
    let s := running .manEnc 3 (withSymbols [1, 0]);
    Inv s ∧ s.eng = .busy 0x10 ∧ (0x000054#24).toNat % 4 = 0 ∧ Mapped s.cfg (0x000054#24).toNat ∧
    Mapped s.cfg (0x000000#24).toNat ∧ ¬ ReadOnly (0x000000#24).toNat ∧
    memRead 0x000058 4 { s with eng := .idle } = .error (.busError 0x000058 4) ∧
    memWrite 0x000008 4 7 { s with eng := .idle } = .error (.busError 0x000008 4) :=
  ⟨busy_inv, rfl, by decide, by decide, by decide, by decide, by decide +kernel, by decide +kernel⟩

theorem witness_CmdWriteAcceptsWhenIdle : start.eng = .idle := rfl

theorem witness_ReadsAndRepeatedWritesHaveNoSideEffect :
    memRead 0x000004 4 start = .ok (0, start) ∧
    memWrite 0x000054 4 7 start = .ok { start with padUs := 7 } ∧ start.eng = .idle :=
  ⟨by decide +kernel, by decide +kernel, rfl⟩

theorem witness_OvrMarksWritesWhileBusyUntilReset :
    (let s := running .manEnc 3 { start with host := [.write 0 4 1] };
      s.status.ovr = false ∧ shows (fun t => t.status.ovr) (step s) = some true) ∧
    (let s : State := { start with host := [.reset], status := start.status.overrun };
      s.status.ovr = true ∧ shows (fun t => t.status.ovr) (step s) = some false) := by decide +kernel

/-- The eight steps from 0x80 with polynomial 0x07, by hand. -/
theorem witness_CrcTableStart :
    let c : Nat → Nat := fun k => [128, 7, 14, 28, 56, 112, 224, 199, 137].getD k 0;
    c 0 = (0x80 : Byte).toNat ∧
    ∀ k < 8, c (k + 1) = if 128 ≤ c k then ((2 * c k) ^^^ (0x07 : Byte).toNat) % 256 else (2 * c k) % 256 := by decide

theorem witness_CrcCommand :
    (let s : State := { start with bbLen := 257 };
      s.cfg.bbCap < s.bbLen.toNat) ∧
    (let s := withBytes (List.replicate 256 0xA5);
      s.bbLen.toNat ≤ s.cfg.bbCap ∧ s.bbLen.toNat = (List.replicate 256 (0xA5 : Byte)).length ∧
      Store.Holds s.mem.bb (List.replicate 256 0xA5)) :=
  ⟨by decide, by decide +kernel, by decide +kernel, holds_listed _⟩

theorem witness_ManchesterPairShape : [true, false][1]? = some false := rfl

theorem witness_DiffManchesterBoundaryRule :
    [true, false][0]? = some true ∧ [true, false][1]? = some false ∧ (dmenc [true, false])[1]? = some false :=
  ⟨rfl, rfl, rfl⟩

/-- The four clauses: too long an input, a non-binary symbol, too long an output, and the longest that fits. -/
theorem witness_LineEncodersInPlace :
    (let s : State := { start with sbLen := 4097 };
      s.cfg.Valid ∧ s.cfg.sbCap < s.sbLen.toNat) ∧
    (let s := withSymbols [0, 3];
      s.sbLen.toNat ≤ s.cfg.sbCap ∧ s.sbLen.toNat = 2 ∧ Store.Holds s.mem.sb [0, 3] ∧ ((3 : Byte) ≠ 0 ∧ (3 : Byte) ≠ 1)) ∧
    (let s := withSymbols (symbolsOf (List.replicate 2049 true));
      s.sbLen.toNat ≤ s.cfg.sbCap ∧ s.sbLen.toNat = (List.replicate 2049 true).length ∧
      Store.Holds s.mem.sb (symbolsOf (List.replicate 2049 true)) ∧ s.cfg.sbCap < 2 * (List.replicate 2049 true).length) ∧
    (let s := withSymbols (symbolsOf (List.replicate 2048 true));
      s.sbLen.toNat = (List.replicate 2048 true).length ∧
      Store.Holds s.mem.sb (symbolsOf (List.replicate 2048 true)) ∧ 2 * (List.replicate 2048 true).length ≤ s.cfg.sbCap) := by
  refine ⟨by decide, ⟨by decide, by decide, holds_listed _, by decide⟩, ⟨?_, ?_, holds_listed _, ?_⟩, ?_,
    holds_listed _, ?_⟩ <;> decide +kernel

/-- A Manchester stream cut short, and one with an equal pair: both ends of R142. -/
theorem witness_ManchesterDecodeRule :
    mdec ((symbolsOf [false, true, true]).map some) 0 (some 1) = .ok ⟨[true], 2, false⟩ ∧
    mdec ((symbolsOf [false, true, true, true]).map some) 0 none = .ok ⟨[true], 2, true⟩ := ⟨rfl, rfl⟩

theorem witness_DiffManchesterDecodeRule :
    dmdec ((symbolsOf [true, true]).map some) 0 none = .ok ⟨[], 1, true⟩ ∧
    dmdec ((symbolsOf [true, true, false, false, true]).map some) 0 none = .ok ⟨[true, true], 5, false⟩ := ⟨rfl, rfl⟩

/-- Too long an input, a decoder's error, a decoder's output, and a written binary input. -/
theorem witness_LineDecodersInPlace :
    ((withSymbols []).cfg.Valid ∧ ({ start with sbLen := 4097 } : State).cfg.sbCap < (4097#32).toNat ∧
      (List.replicate 4097 (none : Option Byte)).length = (4097#32).toNat) ∧
    (let s := withSymbols [0, 2];
      [some 0, some 2].length = s.sbLen.toNat ∧ (∀ k < s.sbLen.toNat, [some 0, some 2][k]? = some (Store.get k s.mem.sb)) ∧
      mdec [some 0, some 2] s.decOff.toNat none = .error (.error .invalidSymbol) ∧
      dmdec [some 0, some 2] s.decOff.toNat none = .error (.error .invalidSymbol)) ∧
    (let s : State := { withSymbols [0] with sbLen := 2 };
      [some 0, none].length = s.sbLen.toNat ∧ (∀ k < s.sbLen.toNat, [some 0, none][k]? = some (Store.get k s.mem.sb)) ∧
      mdec [some 0, none] s.decOff.toNat none = .error (.fault (.uninit .sb 1)) ∧
      dmdec [some 0, none] s.decOff.toNat none = .error (.fault (.uninit .sb 1))) ∧
    (let s := withSymbols [0, 1];
      [some 0, some 1].length = s.sbLen.toNat ∧ (∀ k < s.sbLen.toNat, [some 0, some 1][k]? = some (Store.get k s.mem.sb)) ∧
      mdec [some 0, some 1] s.decOff.toNat none = .ok ⟨[true], 2, false⟩ ∧
      dmdec [some 0, some 1] s.decOff.toNat none = .ok ⟨[false], 2, false⟩ ∧
      s.sbLen.toNat = [false, true].length ∧ Store.Holds s.mem.sb (symbolsOf [false, true])) := by
  refine ⟨⟨by decide, by decide, by decide +kernel⟩, ⟨by decide, by decide, by decide, by decide⟩,
    ⟨by decide, by decide, by decide, by decide⟩, by decide, by decide, by decide, by decide, by decide, holds_listed _⟩

theorem witness_DecodersExamineOnlyWhatTheyConsume :
    (¬ ((2 : Byte) = 0x00 ∨ (2 : Byte) = 0x01) ∨ ¬ ((0 : Byte) = 0x00 ∨ (0 : Byte) = 0x01)) ∧ [true] ≠ [] := by decide

theorem witness_PulsePairShape :
    (2, 1) ∈ pcmenc [true, true, false, true] ∧ (2, 1) ∈ (pcmenc [true, true, false, true]).dropLast ∧
    (pcmenc [true, true, false, true]).getLast? = some (1, 0) := by decide

/-- A configuration whose PB is the least of R5, so that a stream can have too many pairs. -/
def tightConfig : Config := { testConfig with pbCap := 528 }

/-- n pulses of width 1 with gaps of width 1. -/
def alternating (n : Nat) : List Bool := (List.replicate n [true, false]).flatten

/-- Too long an input, a non-binary symbol, one pair too many, and the most pairs that fit. -/
theorem witness_PcmEncodeToPulses :
    (let s : State := { start with sbLen := 4097 };
      s.cfg.Valid ∧ s.cfg.sbCap < s.sbLen.toNat) ∧
    (let s := withSymbols [1, 255];
      s.sbLen.toNat ≤ s.cfg.sbCap ∧ s.sbLen.toNat = 2 ∧ Store.Holds s.mem.sb [1, 255] ∧
      ((255 : Byte) ≠ 0 ∧ (255 : Byte) ≠ 1)) ∧
    (let s : State := { withSymbols (symbolsOf (alternating 529)) with cfg := tightConfig };
      s.cfg.Valid ∧ s.sbLen.toNat ≤ s.cfg.sbCap ∧ s.sbLen.toNat = (alternating 529).length ∧
      Store.Holds s.mem.sb (symbolsOf (alternating 529)) ∧ s.cfg.pbCap < (pcmenc (alternating 529)).length) ∧
    (let s : State := { withSymbols (symbolsOf (alternating 528)) with cfg := tightConfig };
      s.sbLen.toNat ≤ s.cfg.sbCap ∧ s.sbLen.toNat = (alternating 528).length ∧
      Store.Holds s.mem.sb (symbolsOf (alternating 528)) ∧ (pcmenc (alternating 528)).length ≤ s.cfg.pbCap ∧
      (pcmenc (alternating 528))[527]? = some (1, 1)) := by
  refine ⟨by decide, ⟨by decide, by decide, holds_listed _, by decide⟩, ⟨?_, ?_, ?_, holds_listed _, ?_⟩, ?_, ?_,
    holds_listed _, ?_, ?_⟩ <;> decide +kernel

/-- Too long an input, a sum of widths one beyond SB_CAP, and one that fills SB. -/
theorem witness_PcmDecodeToSymbols :
    (let s : State := { start with pbLen := 2049 };
      s.cfg.Valid ∧ s.cfg.pbCap < s.pbLen.toNat) ∧
    (let s := withPulses [(4096, 1)];
      s.pbLen.toNat ≤ s.cfg.pbCap ∧ s.pbLen.toNat = [((4096 : Word), (1 : Word))].length ∧
      Store.Holds s.mem.pb (halves [(4096, 1)]) ∧ s.cfg.sbCap < 4096 + 1) ∧
    (let s := withPulses [(4095, 1)];
      s.pbLen.toNat ≤ s.cfg.pbCap ∧ s.pbLen.toNat = [((4095 : Word), (1 : Word))].length ∧
      Store.Holds s.mem.pb (halves [(4095, 1)]) ∧ 4095 + 1 ≤ s.cfg.sbCap) := by
  refine ⟨by decide, ⟨by decide, by decide, holds_listed _, by decide⟩, by decide, by decide, holds_listed _, by decide⟩

theorem witness_RoundingIsHalfToEven : 0 < 1 ∧ 2 * |(1 : Int) - 2 * rhe 1 2| = 2 := by decide

/-- The least subnormal, 1.0 and the greatest negative word are finite; infinity is not (R12). -/
theorem witness_PressureTables :
    (f64Finite 1 = true ∧ (1#64).extractLsb' 52 11 = 0 ∧ (1#64).extractLsb' 0 52 = 1) ∧
    f64Finite 0x3FF0000000000000 = true ∧ f64Finite 0xFFEFFFFFFFFFFFFF = true ∧
    f64Finite 0x7FF0000000000000 = false := by decide

/-- reading with P = +∞ (R191). -/
def readingInfinite : State := { reading with pressHi := 0x7FF00000 }

/-- reading in a block whose Variants B and C take other readings of pressure_raw (R5). -/
def otherReadings : State := { reading with cfg := { testConfig with prawB := .other 3, prawC := .other 4 } }

/-- A finite and a non-finite pressure, with the values the statement names. -/
theorem witness_VariantAFrame :
    (∃ (praw : Int) (fl : Byte) (ex : BitVec 16) (data : List Byte),
      praw = rhe (4 * (f64 (reading.pressHi ++ reading.pressLo)).num) (3 * (f64 (reading.pressHi ++ reading.pressLo)).den) ∧
      fl = (if true then 54 else reading.flags) ∧ ex = (if true then 48153 else reading.extra) ∧
      data = dataA praw fl ex reading) ∧
    reading.cfg.Valid ∧ f64Finite (reading.pressHi ++ reading.pressLo) = true ∧
    f64Finite (readingInfinite.pressHi ++ readingInfinite.pressLo) = false :=
  ⟨⟨_, _, _, _, rfl, rfl, rfl, rfl⟩, by decide, by decide, by decide⟩

theorem witness_VariantBFrame :
    (∃ (raw : Int) (fl unk : Byte) (data : List Byte),
      raw = praw reading.cfg.prawB (f64 (reading.pressHi ++ reading.pressLo)) ∧
      fl = (if true then 80 else reading.flags) ∧ unk = (if true then 1 else reading.extra.extractLsb' 0 8) ∧
      data = dataB raw fl unk reading) ∧
    reading.cfg.Valid ∧ f64Finite (reading.pressHi ++ reading.pressLo) = true ∧
    f64Finite (readingInfinite.pressHi ++ readingInfinite.pressLo) = false ∧
    reading.cfg.prawB = .prawA ∧ otherReadings.cfg.prawB = .other 3 ∧ otherReadings.cfg.Valid ∧
    f64Finite (otherReadings.pressHi ++ otherReadings.pressLo) = true :=
  ⟨⟨_, _, _, _, rfl, rfl, rfl, rfl⟩, by decide, by decide, by decide, rfl, rfl, by decide, by decide⟩

theorem witness_VariantCFrame :
    (∃ (raw traw : Int) (data : List Byte),
      raw = praw reading.cfg.prawC (f64 (reading.pressHi ++ reading.pressLo)) ∧ traw = reading.temp.toInt + 40 ∧
      data = dataC raw traw reading.flags reading) ∧
    reading.cfg.Valid ∧ f64Finite (reading.pressHi ++ reading.pressLo) = true ∧
    f64Finite (readingInfinite.pressHi ++ readingInfinite.pressLo) = false ∧
    reading.cfg.prawC = .prawA ∧ otherReadings.cfg.prawC = .other 4 ∧ otherReadings.cfg.Valid ∧
    f64Finite (otherReadings.pressHi ++ otherReadings.pressLo) = true :=
  ⟨⟨_, _, _, rfl, rfl, rfl⟩, by decide, by decide, by decide, rfl, rfl, by decide, by decide⟩

/-- The longest frame that fits, by each policy; the custom list is cycled, one entry of it and then all of BB. -/
theorem witness_ExtendedFrame :
    (let s : State := { withBytes (List.replicate 256 7) with pressHi := 0x406B8000 };
      s.cfg.Valid ∧ 9 ≤ 254 ∧ 254 ≤ s.cfg.fbCap ∧ 32 + 16 * 254 ≤ s.cfg.sbCap ∧
      f64Finite (s.pressHi ++ s.pressLo) = true ∧ 1 ≤ s.bbLen.toNat ∧ s.bbLen.toNat ≤ s.cfg.bbCap ∧
      (List.replicate 245 (7 : Byte)).length = min s.bbLen.toNat (254 - 9) ∧
      Store.Holds s.mem.bb (List.replicate 245 7)) ∧
    (let s := withBytes [7];
      [(7 : Byte)].length = min s.bbLen.toNat (254 - 9) ∧ Store.Holds s.mem.bb [7]) := by
  refine ⟨⟨by decide, by decide, by decide, by decide, by decide, by decide +kernel, by decide +kernel,
    by decide +kernel, ?_⟩, by decide, holds_listed _⟩
  exact (holds_listed (List.replicate 256 (7 : Byte))).take 245

/-- Each clause of the order of R278: BB_LEN, L, the empty list, the pressure, FB and then SB. -/
theorem witness_ExtendedFrameErrorOrder :
    (let s : State := { start with bbLen := 257 };
      s.cfg.bbCap < s.bbLen.toNat) ∧
    (start.bbLen.toNat ≤ start.cfg.bbCap ∧ 8 < 9 ∧ start.bbLen.toNat = 0) ∧
    (let s : State := { start with bbLen := 1, pressHi := 0x7FF80000 };
      s.bbLen.toNat ≤ s.cfg.bbCap ∧ s.bbLen.toNat ≠ 0 ∧ f64Finite (s.pressHi ++ s.pressLo) = false) ∧
    (let s : State := { start with cfg := { testConfig with fbCap := 64 }, bbLen := 1 };
      s.bbLen.toNat ≤ s.cfg.bbCap ∧ s.bbLen.toNat ≠ 0 ∧ f64Finite (s.pressHi ++ s.pressLo) = true ∧ s.cfg.fbCap < 65) ∧
    start.cfg.sbCap < 32 + 16 * 255 := by decide

theorem witness_NineByteExtendedFrameIsVariantA :
    start.cfg.Valid ∧ 1 ≤ (withBytes [7]).bbLen.toNat ∧ (withBytes [7]).bbLen.toNat ≤ (withBytes [7]).cfg.bbCap := by
  decide

theorem witness_FramesCarryTheirChecksum :
    reading.cfg.Valid ∧ writesFrame (.encB true true) = true ∧
    ∃ t, exec (.encB true true) reading = .next t ∧ t.status.err = false := ⟨by decide, rfl, _, rfl, rfl⟩

/-- TEMP = 281 is 25 and 256, and SENSOR_ID[31:24] is another byte. -/
theorem witness_FrameFieldsWrapSilently :
    f64Finite (reading.pressHi ++ reading.pressLo) = true ∧ (0x00000119#32).toNat % 256 = reading.temp.toNat % 256 ∧
    writesFrame .encC = true ∧ writesFrame (.encAx 12 .repeatData true true) = true ∧
    (0xFF123456#32).extractLsb' 0 24 = reading.sensorId.extractLsb' 0 24 ∧ PadPolicy.custom ≠ .random ∧
    (∃ t, exec .encC reading = .next t) ∧ (∃ t, exec (.encAx 12 .repeatData true true) reading = .next t) ∧
    exec (.encAx 12 .custom true true) { reading with bbLen := 1 } = .fault (.uninit .bb 0) :=
  ⟨by decide, by decide, rfl, rfl, by decide, by decide, ⟨_, rfl⟩, ⟨_, rfl⟩, rfl⟩

/-- Too long an input, too long a target, a truncation, and a target that fills SB. -/
theorem witness_FitInPlace :
    (let s : State := { start with sbLen := 4097 };
      s.cfg.Valid ∧ s.cfg.sbCap < s.sbLen.toNat) ∧
    (let s : State := { start with fitLen := 4097 };
      s.cfg.sbCap < s.fitLen.toNat) ∧
    (let s : State := { withSymbols [1, 0, 1, 1] with fitLen := 2 };
      s.sbLen.toNat ≤ s.cfg.sbCap ∧ s.fitLen.toNat ≤ s.cfg.sbCap ∧
      [(1 : Byte), 0].length = min s.sbLen.toNat s.fitLen.toNat ∧ Store.Holds s.mem.sb [1, 0]) ∧
    (let s : State := { withSymbols [1, 0] with fitLen := 4096 };
      s.fitLen.toNat ≤ s.cfg.sbCap ∧ [(1 : Byte), 0].length = min s.sbLen.toNat s.fitLen.toNat ∧
      Store.Holds s.mem.sb [1, 0]) := by
  refine ⟨by decide, by decide, ⟨by decide, by decide, by decide, ?_⟩, by decide, by decide, holds_listed _⟩
  exact (holds_listed [(1 : Byte), 0, 1, 1]).take 2

theorem witness_BitsLeaveMostSignificantFirst :
    7 < 8 ∧ [(0x80 : Byte), 0x01][1]? = some 0x01 ∧ 0 < 8 := by decide

/-- A signal of one sample, and the values the statement gives at and around it. -/
theorem witness_ShapedSamplesAreDetermined :
    ∃ v : Int → ℂ,
      (∀ (k : Nat) (t : ToneSample), [ToneSample.mk 1000 0][k]? = some t →
        v k = ⟨Real.cos (2 * Real.pi * t.freq * t.k / (4000 : Nat)), Real.sin (2 * Real.pi * t.freq * t.k / (4000 : Nat))⟩) ∧
      ∀ k : Int, k < 0 ∨ (([ToneSample.mk 1000 0].length : Nat) : Int) ≤ k → v k = 0 := by
  refine ⟨fun k => if k = 0 then 1 else 0, fun k t h => ?_, fun k h => ?_⟩
  · cases k with
    | zero =>
      simp only [List.getElem?_cons_zero, Option.some.injEq] at h
      subst h
      apply Complex.ext <;> simp
    | succ k => simp at h
  · have : k ≠ 0 := by rintro rfl; simp at h
    simp [this]

theorem witness_TonesHaveUnitModulus : isTone 4000 ⟨1000, 0⟩ 1 := by simp [isTone]

/-- Too long an input, no sample rate, one sample too many, and the count of S18. -/
theorem witness_FskSynthesis :
    (let s : State := { start with pbLen := 2049 };
      s.cfg.Valid ∧ s.cfg.pbCap < s.pbLen.toNat) ∧
    (start.pbLen.toNat ≤ start.cfg.pbCap ∧ start.fsHz = 0) ∧
    (let s := tuned (withPulses [(10083, 0)]);
      s.pbLen.toNat ≤ s.cfg.pbCap ∧ s.fsHz ≠ 0 ∧ s.pbLen.toNat = [((10083 : Word), (0 : Word))].length ∧
      Store.Holds s.mem.pb (halves [(10083, 0)]) ∧
      (rhe (s.fsHz.toNat * s.symUs.toNat : Nat) 1000000).toNat = 13 ∧
      (rhe (s.fsHz.toNat * s.padUs.toNat : Nat) 1000000).toNat = 25 ∧ s.cfg.qbCap < 13 * 10083 + 25) ∧
    (let s := tuned (withPulses [(1, 1)]);
      s.pbLen.toNat ≤ s.cfg.pbCap ∧ s.fsHz ≠ 0 ∧ s.pbLen.toNat = [((1 : Word), (1 : Word))].length ∧
      Store.Holds s.mem.pb (halves [(1, 1)]) ∧ 13 * 2 + 25 ≤ s.cfg.qbCap) := by
  refine ⟨by decide, by decide, ⟨by decide, by decide, by decide, holds_listed _, ?_, ?_, ?_⟩, by decide, by decide,
    by decide, holds_listed _, by decide⟩ <;> decide +kernel

theorem witness_FskLengthLaw :
    (tuned (withPulses [(1, 1)])).cfg.Valid ∧
    (shows (fun t => (t.status.err, t.qbLen)) (exec .fskGen (tuned (withPulses [(1, 1)]))) = some (false, 51)) ∧
    (let s := tuned (withPulses [(1, 1)]);
      51 - countOf s.fsHz s.padUs ≤ 26 ∧ 26 < 51) := by decide +kernel

theorem witness_ErrorsAreAllOrNothing :
    ∃ t, exec .fskGen start = .next t ∧ t.status.err = true := ⟨_, rfl, rfl⟩

theorem witness_CommandsWriteOnlyTheirOutputs :
    start.cfg.Valid ∧ ∃ t, exec .manEnc start = .next t ∧ writesResult .manEnc = false ∧
      writesFrame .manEnc = false ∧ Instr.manEnc ≠ .pcmEnc ∧ Instr.manEnc ≠ .fskGen ∧
      writesSymbols .fskGen = false := ⟨by decide, _, rfl, rfl, rfl, by decide, by decide, rfl⟩

theorem witness_FaultsOnlyOnUnwrittenInput :
    exec (.crc8 0x07 0x00) { start with bbLen := 1 } = .fault (.uninit .bb 0) := rfl

/-- The last entry of a buffer's input is the unwritten one, for each buffer. -/
theorem witness_UnwrittenInputIsUninit :
    (let s : State := { withBytes [7] with bbLen := 2 };
      s.bbLen.toNat ≤ s.cfg.bbCap ∧ 1 < s.bbLen.toNat ∧ Store.get 1 s.mem.bb = none ∧
      ∀ j < 1, Store.get j s.mem.bb ≠ none) ∧
    (let s : State := { withSymbols [1] with sbLen := 2, fitLen := 2 };
      s.sbLen.toNat ≤ s.cfg.sbCap ∧ 1 < s.sbLen.toNat ∧ Store.get 1 s.mem.sb = none ∧
      (∀ j < 1, Store.get j s.mem.sb ≠ none) ∧ s.fitLen.toNat ≤ s.cfg.sbCap ∧ 1 < s.fitLen.toNat) ∧
    (let s : State := { withPulses [(1, 1)] with pbLen := 2, fsHz := 1 };
      s.pbLen.toNat ≤ s.cfg.pbCap ∧ 2 < 2 * s.pbLen.toNat ∧ Store.get 2 s.mem.pb = none ∧
      (∀ j < 2, Store.get j s.mem.pb ≠ none) ∧ s.fsHz ≠ 0) ∧
    (let s : State := { withBytes [7] with bbLen := 2 };
      1 < min s.bbLen.toNat (11 - 9) ∧ 11 ≤ s.cfg.fbCap ∧ 32 + 16 * 11 ≤ s.cfg.sbCap ∧
      f64Finite (s.pressHi ++ s.pressLo) = true) := by decide

/-- Each entry of the pair behind man([1]) = dmenc([0]) unwritten, DEC_OFF = 1, the bound just above the output. -/
theorem witness_UnwrittenInputIsUninit_decoders :
    man [true] = [false, true] ∧ dmenc [false] = [false, true] ∧
    (let s : State := { withSymbols [1, 0, 1] with sbLen := 5, decOff := 1, decBound := 2 };
      3 = s.decOff.toNat + 2 * [true].length ∧ 3 + 2 ≤ s.sbLen.toNat ∧ s.sbLen.toNat ≤ s.cfg.sbCap ∧
      (∀ j < [false, true].length, Store.get (s.decOff.toNat + j) s.mem.sb = (symbolsOf [false, true])[j]?) ∧
      [true].length < s.decBound.toNat ∧ Store.get 3 s.mem.sb = none) ∧
    (let s : State := { withSymbols [1, 0, 1, 2] with sbLen := 5, decOff := 1, decBound := 2 };
      (∀ j < [false, true].length, Store.get (s.decOff.toNat + j) s.mem.sb = (symbolsOf [false, true])[j]?) ∧
      Store.get 4 s.mem.sb = none ∧ 4 = 3 + 1 ∧ Store.get 3 s.mem.sb ≠ none) := by decide

/-- The busy state of `busy_inv`: its next step is the host's. -/
theorem witness_StepKeepsTheInvariant :
    Inv (running .manEnc 3 (withSymbols [1, 0])) ∧ ∃ t, step (running .manEnc 3 (withSymbols [1, 0])) = .next t :=
  ⟨busy_inv, _, rfl⟩

/-- A step that answers a next state, and one that faults. -/
theorem witness_CacheIsUnobservable :
    (∃ t, step (running (.crc8 0x07 0x00) 0 start) = .next t) ∧
    step (running (.crc8 0x07 0x00) 0 { start with bbLen := 1 }) = .fault (.uninit .bb 0) := ⟨⟨_, rfl⟩, rfl⟩

end Sys2Proof.Tests
end

/-! Rounding (R11), the exact value of a binary64 word (R12), and the order in which bits leave (R6, R9, R68). -/

namespace Sys2Proof.Machine

/-! ## Rounding -/

/-- What `rhe` can answer: the quotient where the remainder is below half, the next integer where it is above, and
one of the two, even, at a tie. -/
theorem rhe_cases (num : Int) (den : Nat) :
    (2 * (num % den) < den ∧ rhe num den = num / den) ∨
    (2 * (num % den) > den ∧ rhe num den = num / den + 1) ∨
    (2 * (num % den) = den ∧ rhe num den % 2 = 0 ∧ (rhe num den = num / den ∨ rhe num den = num / den + 1)) := by
  unfold rhe
  dsimp only
  split_ifs <;> omega

/-- Settles O34: the distance from num to den·rhe is the remainder or what it lacks to den, as `rhe_cases` says. -/
theorem roundingIsHalfToEven : Obligations.RoundingIsHalfToEven := by
  intro num den hden
  have hpos : (0 : Int) < den := by exact_mod_cast hden
  have hdiv := Int.emod_add_mul_ediv num den
  have hlow := Int.emod_nonneg num hpos.ne'
  have hhigh := Int.emod_lt_of_pos num hpos
  have below : rhe num den = num / den → num - den * rhe num den = num % den := fun h => by rw [h]; linarith
  have above : rhe num den = num / den + 1 → num - den * rhe num den = num % den - den := fun h => by
    rw [h]; linarith
  rcases rhe_cases num den with ⟨hr, hq⟩ | ⟨hr, hq⟩ | ⟨hr, heven, hq | hq⟩
  · rw [below hq, abs_of_nonneg hlow]; omega
  · rw [above hq, abs_of_neg (by omega)]; omega
  · rw [below hq, abs_of_nonneg hlow]; omega
  · rw [above hq, abs_of_neg (by omega)]; omega

/-! ## The value of a binary64 word -/

/-- The magnitude of a finite binary64 word with biased exponent e and fraction f, as numerator and denominator. -/
def f64Magnitude (e f : Nat) : Nat × Nat :=
  let m := if e = 0 then f else 2 ^ 52 + f
  if e = 0 then (m, 2 ^ 1074) else if 1075 ≤ e then (m * 2 ^ (e - 1075), 1) else (m, 2 ^ (1075 - e))

/-- `f64` is the magnitude of its fields under its sign. -/
theorem f64_eq_magnitude (w : BitVec 64) :
    f64 w =
      let mag := f64Magnitude (w.extractLsb' 52 11).toNat (w.extractLsb' 0 52).toNat
      { num := if w.getLsbD 63 then -(mag.1 : Int) else mag.1, den := mag.2 } := rfl

theorem f64Magnitude_zero (f : Nat) : f64Magnitude 0 f = (f, 2 ^ 1074) := by rw [f64Magnitude]; rfl

theorem f64Magnitude_of_large {e : Nat} (f : Nat) (he : 1075 ≤ e) :
    f64Magnitude e f = ((2 ^ 52 + f) * 2 ^ (e - 1075), 1) := by
  rw [f64Magnitude]
  simp only [show e ≠ 0 by omega, he, if_true, if_false]

theorem f64Magnitude_of_small {e : Nat} (f : Nat) (h0 : e ≠ 0) (he : ¬ 1075 ≤ e) :
    f64Magnitude e f = (2 ^ 52 + f, 2 ^ (1075 - e)) := by
  rw [f64Magnitude]
  simp only [h0, he, if_false]

theorem f64Magnitude_den_pos (e f : Nat) : 0 < (f64Magnitude e f).2 := by
  unfold f64Magnitude
  split_ifs <;> positivity

/-- A subnormal's magnitude: f / 2^52 times 2^-1022. -/
theorem f64Magnitude_subnormal (f : Nat) :
    ((f64Magnitude 0 f).1 : ℚ) / (f64Magnitude 0 f).2 = f / 2 ^ 52 * (2 : ℚ) ^ (-1022 : Int) := by
  have hpow : ((2 ^ 1074 : Nat) : ℚ) = 2 ^ 52 * 2 ^ 1022 := by rw [Nat.cast_pow, ← pow_add, Nat.cast_ofNat]
  rw [f64Magnitude_zero, hpow, ← div_div, zpow_neg, div_eq_mul_inv _ ((2 : ℚ) ^ 1022)]
  rfl

/-- A normal number's magnitude: 1 + f / 2^52 times 2^(e - 1023), as the integer 2^52 + f times 2^(e - 1075). -/
theorem f64Magnitude_normal {e : Nat} (he : e ≠ 0) (f : Nat) :
    ((f64Magnitude e f).1 : ℚ) / (f64Magnitude e f).2 = (1 + f / 2 ^ 52) * (2 : ℚ) ^ ((e : Int) - 1023) := by
  have hscale : (1 + f / 2 ^ 52) * (2 : ℚ) ^ ((e : Int) - 1023) =
      ((2 ^ 52 + f : Nat) : ℚ) * (2 : ℚ) ^ ((e : Int) - 1075) := by
    rw [show (e : Int) - 1023 = (52 : Nat) + (e - 1075) by ring, zpow_add₀ two_ne_zero, zpow_natCast]
    push_cast
    field_simp
    norm_num
  rw [hscale]
  by_cases hbig : 1075 ≤ e
  · rw [f64Magnitude_of_large f hbig, show (e : Int) - 1075 = ((e - 1075 : Nat) : Int) by omega, zpow_natCast,
      Nat.cast_mul, Nat.cast_pow, Nat.cast_one, div_one, Nat.cast_ofNat]
  · rw [f64Magnitude_of_small f he hbig, show (e : Int) - 1075 = -((1075 - e : Nat) : Int) by omega, zpow_neg,
      zpow_natCast, Nat.cast_pow, div_eq_mul_inv, Nat.cast_ofNat]

/-- The value of a binary64 word by sign, biased exponent and fraction (R12). -/
theorem f64_value (w : BitVec 64) :
    ((f64 w).num : ℚ) / (f64 w).den =
      let e := (w.extractLsb' 52 11).toNat
      let f := (w.extractLsb' 0 52).toNat
      let sign : ℚ := if w.getLsbD 63 then -1 else 1
      if e = 0 then sign * (f / 2 ^ 52) * (2 : ℚ) ^ (-1022 : Int)
      else sign * (1 + f / 2 ^ 52) * (2 : ℚ) ^ ((e : Int) - 1023) := by
  rw [f64_eq_magnitude]
  generalize (w.extractLsb' 52 11).toNat = e
  generalize (w.extractLsb' 0 52).toNat = f
  have hsign : ((if w.getLsbD 63 then -((f64Magnitude e f).1 : Int) else (f64Magnitude e f).1 : Int) : ℚ) =
      (if w.getLsbD 63 then -1 else 1) * (f64Magnitude e f).1 := by split <;> simp
  dsimp only
  rw [hsign, mul_div_assoc]
  by_cases he : e = 0
  · rw [if_pos he, he, f64Magnitude_subnormal, mul_assoc]
  · rw [if_neg he, f64Magnitude_normal he, mul_assoc]

theorem f64_den_pos (w : BitVec 64) : 0 < (f64 w).den := by
  rw [f64_eq_magnitude]
  exact f64Magnitude_den_pos _ _

theorem rhe_zero (den : Nat) : rhe 0 den = 0 := by simp [rhe]

/-- The word of 0.0, a subnormal, whose denominator 2^1074 need not be evaluated. -/
theorem prawA_f64_zero : prawA (f64 0x0000000000000000) = 0 := rhe_zero _

/-- The rest of the table of R193, from the binary64 words of its pressures. -/
theorem prawA_table :
    prawA (f64 0x3FD8000000000000) = 0 ∧
    prawA (f64 0x3FF2000000000000) = 2 ∧ prawA (f64 0x406B800000000000) = 293 ∧
    prawA (f64 0xBFD8000000000000) = 0 ∧ prawA (f64 0xBFF0000000000000) = -1 ∧
    prawA (f64 0x4067E80000000000) = 255 ∧ prawA (f64 0x4087FA0000000000) = 1023 ∧
    prawA (f64 0x412E848000000000) = 1333333 ∧ prawA (f64 0xBFE8000000000000) = -1 := by decide

/-- The table of R200. -/
theorem pressureByteB_table :
    pressureByteB 0 = 0 ∧ pressureByteB 1 = 1 ∧ pressureByteB 69 = 50 ∧ pressureByteB 138 = 100 ∧
    pressureByteB 293 = 0xD4 ∧ pressureByteB (-1) = 0xFF := by decide

/-- Settles O35: the value by `f64_value`, the tables by evaluation. -/
theorem pressureTables : Obligations.PressureTables := by
  refine ⟨fun w => bne_iff_ne, ?_, ?_⟩
  · rintro w e f sign - rfl rfl rfl
    exact ⟨f64_den_pos w, f64_value w⟩
  · simpa only [and_assoc] using And.intro prawA_f64_zero (And.intro prawA_table pressureByteB_table)

/-! ## The order of bits -/

/-- Bit i of `bitsMSB w` is the word's bit i from the top (R6). -/
theorem getElem?_bitsMSB {n k : Nat} (w : BitVec n) (hk : k < n) :
    (bitsMSB w)[k]? = some (w.getLsbD (n - 1 - k)) := by
  simp [bitsMSB, hk, BitVec.getMsbD]

theorem ser_cons (b : Byte) (bytes : List Byte) : ser (b :: bytes) = bitsMSB b ++ ser bytes := rfl

/-- Bit 8i + k of a byte sequence is bit 7 - k of byte i (R6, R68). -/
theorem getElem?_ser {bytes : List Byte} {i k : Nat} {b : Byte} (hi : bytes[i]? = some b) (hk : k < 8) :
    (ser bytes)[8 * i + k]? = some (b.getLsbD (7 - k)) := by
  induction bytes generalizing i with
  | nil => simp at hi
  | cons x xs ih =>
    rw [ser_cons]
    cases i with
    | zero =>
      obtain rfl : x = b := by simpa using hi
      rw [List.getElem?_append_left (by simp; omega), Nat.mul_zero, Nat.zero_add, getElem?_bitsMSB x hk]
    | succ i =>
      rw [List.getElem?_append_right (by simp; omega), length_bitsMSB,
        show 8 * (i + 1) + k - 8 = 8 * i + k by omega]
      exact ih (by simpa using hi)

/-- Settles O59: the three orders by index, the byte sequence by induction on its bytes. -/
theorem bitsLeaveMostSignificantFirst : Obligations.BitsLeaveMostSignificantFirst := by
  refine ⟨fun n w => ⟨length_bitsMSB w, fun k hk => getElem?_bitsMSB w hk⟩,
    fun bytes => ⟨length_ser bytes, fun i b hi k hk => getElem?_ser hi hk⟩,
    fun bits => ⟨length_symbolsOf bits, fun k b hk => ?_⟩⟩
  rw [symbolsOf, List.getElem?_map, hk]
  rfl

end Sys2Proof.Machine

/-! The frame commands ENC_B and ENC_C (R201 to R210): what their runs answer and what they leave in FB and SB. -/

namespace Sys2Proof.Machine

/-! ## What every frame command leaves -/

/-- A frame command's buffers: the frame in FB, the symbols of its stream in SB, the entries beyond as they were
(R190). -/
theorem frameCommit_buffers (s : State) (frame : List Byte) (stream : List Bool) :
    Store.Holds (frameCommit s frame stream).out.mem.fb frame ∧
    Store.SameFrom frame.length s.mem.fb (frameCommit s frame stream).out.mem.fb ∧
    Store.Holds (frameCommit s frame stream).out.mem.sb (symbolsOf stream) ∧
    Store.SameFrom stream.length s.mem.sb (frameCommit s frame stream).out.mem.sb := by
  have hsb := Store.sameFrom_blit (symbolsOf stream) s.mem.sb
  rw [length_symbolsOf] at hsb
  exact ⟨Store.holds_blit _ _, Store.sameFrom_blit _ _, Store.holds_blit _ _, hsb⟩

/-- A frame command completes with the frame's and the stream's lengths, and changes no other register (R190, R305). -/
theorem frameCommit_finish (s : State) (frame : List Byte) (stream : List Bool) :
    (frameCommit s frame stream).out.finish (frameCommit s frame stream).desync =
      { s with mem := (frameCommit s frame stream).out.mem, fbLen := BitVec.ofNat 32 frame.length,
               sbLen := BitVec.ofNat 32 stream.length, eng := .idle, status := endedWell false s } := by
  rw [State.finish, frameCommit, State.putFrame, length_symbolsOf]
  rfl

/-- A computed CRC leaves its polynomial in CACHE (R41). -/
theorem fillCache_poly (p : Byte) (c : Option CrcCache) :
    ∃ table, fillCache p c = some { poly := p, table := table } := by
  unfold fillCache
  split
  · rename_i t
    split
    · rename_i ht
      exact ⟨t.table, by rw [← ht]⟩
    · exact ⟨_, rfl⟩
  · exact ⟨_, rfl⟩

/-- An error that leaves CACHE alone is one R273 allows. -/
theorem endsInError_of_fail (e : ErrCode) (p : Byte) (s : State) : EndsInError e p s (.next (s.fail e)) :=
  ⟨s.cache, .inl rfl, rfl⟩

/-- The reading of pressure_raw a configuration has: the default, or the uninterpreted one (R5, R193). -/
theorem praw_spelled (r : PrawReading) (p : Ratio) :
    (r = .prawA → praw r p = rhe (4 * p.num) (3 * p.den)) ∧
    (∀ k, r = .other k → praw r p = Config.prawOther k p.num p.den) :=
  ⟨fun h => by rw [h]; rfl, fun k h => by rw [h]; rfl⟩

/-! ## Variant B -/

/-- ENC_B completes where the pressure is finite (R204). -/
theorem runEncB_of_finite {s : State} (df de : Bool) (h : f64Finite (pressureWord s) = true) :
    runEncB df de s =
      let frame := sealB (dataB (praw s.cfg.prawB (f64 (pressureWord s))) (flagByte df 80 s) (unknownByte de s) s)
      .ok (frameCommit s frame (streamB s.cfg frame)) := by
  rw [runEncB, pressure_of_finite h]
  rfl

theorem runEncB_of_not_finite {s : State} (df de : Bool) (h : f64Finite (pressureWord s) = false) :
    runEncB df de s = .error (.error .invalidNumeric) := by
  rw [runEncB, pressure_of_not_finite h]
  rfl

@[simp] theorem xorAll_nil : xorAll [] = 0 := rfl

/-- The XOR is extended a byte at a time (R202). -/
theorem xorAll_append_singleton (xs : List Byte) (x : Byte) : xorAll (xs ++ [x]) = xorAll xs ^^^ x := by
  rw [xorAll, List.foldl_append]
  rfl

/-- Settles O37: the run's commit by `runEncB_of_finite`, its buffers by `frameCommit_buffers`. -/
theorem variantBFrame : Obligations.VariantBFrame := by
  rintro s df de raw fl unk data frame - rfl rfl rfl rfl rfl
  obtain ⟨hdefault, hother⟩ := praw_spelled s.cfg.prawB (f64 (s.pressHi ++ s.pressLo))
  refine ⟨hdefault, hother, ⟨xorAll_nil, xorAll_append_singleton⟩, fun h => ?_, fun h => ?_⟩
  · rw [exec_eq_conclude, runOf, runEncB_of_not_finite df de h]
    rfl
  · rw [exec_eq_conclude, runOf, runEncB_of_finite df de h, conclude_ok]
    exact ⟨_, rfl, frameCommit_finish _ _ _, frameCommit_buffers _ _ _⟩

/-! ## Variant C -/

/-- ENC_C completes where the pressure is finite (R210). -/
theorem runEncC_of_finite {s : State} (h : f64Finite (pressureWord s) = true) :
    runEncC s =
      let frame := sealC (dataC (praw s.cfg.prawC (f64 (pressureWord s))) (sext32 s.temp + 40) s.flags s)
      .ok (frameCommit (s.usedCrc 0x07) frame (streamC s.cfg frame)) := by
  rw [runEncC, pressure_of_finite h]
  rfl

theorem runEncC_of_not_finite {s : State} (h : f64Finite (pressureWord s) = false) :
    runEncC s = .error (.error .invalidNumeric) := by
  rw [runEncC, pressure_of_not_finite h]
  rfl

/-- Settles O38: the run's commit by `runEncC_of_finite`, its buffers by `frameCommit_buffers`. -/
theorem variantCFrame : Obligations.VariantCFrame := by
  rintro s raw traw data frame - rfl rfl rfl rfl
  obtain ⟨hdefault, hother⟩ := praw_spelled s.cfg.prawC (f64 (s.pressHi ++ s.pressLo))
  refine ⟨hdefault, hother, fun h => ?_, fun h => ?_⟩
  · rw [exec_eq_conclude, runOf, runEncC_of_not_finite h]
    exact endsInError_of_fail _ _ s
  · rw [exec_eq_conclude, runOf, runEncC_of_finite h, conclude_ok, List.append_assoc]
    exact ⟨_, rfl, frameCommit_finish _ _ _, fillCache_poly _ _, frameCommit_buffers _ _ _⟩

end Sys2Proof.Machine

/-! The shaped samples of FSK_GEN as complex numbers (R241, R243). -/

namespace Sys2Proof.Machine

/-- The value of a tone sample, by its cosine and sine (R241). -/
noncomputable def toneValue (fs : Nat) (t : ToneSample) : ℂ :=
  ⟨Real.cos (2 * Real.pi * t.freq * t.k / fs), Real.sin (2 * Real.pi * t.freq * t.k / fs)⟩

/-- `isTone` holds of exactly the tone's value. -/
theorem isTone_iff (fs : Nat) (t : ToneSample) (c : ℂ) : isTone fs t c ↔ c = toneValue fs t := by
  have hexp : Complex.exp (Complex.I * (2 * Real.pi * t.freq * t.k / fs)) = toneValue fs t := by
    have hcast : (2 * Real.pi * t.freq * t.k / fs : ℂ) = ((2 * Real.pi * t.freq * t.k / fs : ℝ) : ℂ) := by
      push_cast; rfl
    rw [hcast, mul_comm]
    exact Complex.ext (Complex.exp_ofReal_mul_I_re _) (Complex.exp_ofReal_mul_I_im _)
  rw [isTone, hexp]

/-- v is x, extended by 0 below index 0 and from N on (R243). -/
structure ExtendsSignal (fs : Nat) (x : List ToneSample) (v : Int → ℂ) : Prop where
  inside : ∀ (k : Nat) (t : ToneSample), x[k]? = some t → v k = toneValue fs t
  outside : ∀ k : Int, k < 0 ∨ (x.length : Int) ≤ k → v k = 0

/-- The unshaped signal as a function of every integer index. -/
noncomputable def extendedSignal (fs : Nat) (x : List ToneSample) (k : Int) : ℂ :=
  if 0 ≤ k then (x[k.toNat]?.map (toneValue fs)).getD 0 else 0

theorem extendsSignal_extendedSignal (fs : Nat) (x : List ToneSample) :
    ExtendsSignal fs x (extendedSignal fs x) where
  inside k t h := by simp [extendedSignal, h]
  outside k hk := by
    rcases hk with hk | hk
    · simp [extendedSignal, Int.not_le.2 hk]
    · have hnone : x[k.toNat]? = none := List.getElem?_eq_none (by omega)
      simp [extendedSignal, hnone]

section
variable {fs : Nat} {x : List ToneSample} {v : Int → ℂ} (hv : ExtendsSignal fs x v)
include hv

/-- `isInput` holds of exactly the extended signal's value. -/
theorem isInput_iff (k : Int) (c : ℂ) : isInput fs x k c ↔ c = v k := by
  unfold isInput
  split
  · rename_i t h
    split at h
    · rename_i hk
      have hin := hv.inside k.toNat t h
      rw [Int.toNat_of_nonneg hk] at hin
      rw [isTone_iff, hin]
    · cases h
  · rename_i h
    rw [hv.outside k]
    split at h
    · exact .inr (by rw [List.getElem?_eq_none_iff] at h; omega)
    · exact .inl (by omega)

/-- `isShaped` holds of exactly the filter sum over the extended signal (R243). -/
theorem isShaped_iff (i : Nat) (c : ℂ) :
    isShaped fs x i c ↔ c = ∑ j : Fin 101, (Config.rcTaps j : ℂ) * v ((i : Int) + 50 - (j : Nat)) := by
  simp only [isShaped, isInput_iff hv]
  constructor
  · rintro ⟨u, hu, rfl⟩
    exact Finset.sum_congr rfl fun j _ => by rw [hu j]
  · rintro rfl
    exact ⟨_, fun _ => rfl, rfl⟩

end

/-- Settles O47: uniqueness and the value both by `isShaped_iff`, for `extendedSignal` and for the given one. -/
theorem shapedSamplesAreDetermined : Obligations.ShapedSamplesAreDetermined := by
  intro fs x i
  refine ⟨?_, fun v hin hout => isShaped_iff ⟨hin, hout⟩ i⟩
  simp only [isShaped_iff (extendsSignal_extendedSignal fs x)]
  exact existsUnique_eq

end Sys2Proof.Machine

/-! What a command leaves: the six shapes of a completion without error (R22, R305), and the stops a run can end in. -/

namespace Sys2Proof.Machine

/-! ## Completions without error -/

/-- The checksum a frame command ends its frame with (R196, R202, R208, R214). -/
def frameChecksum : Instr → List Byte → Byte
  | .encB _ _, body => xorAll body
  | .encC, body => crc8 body 0x07 0x80
  | _, body => crc8 body 0x07 0x00

/-- What command i, run from s without error, leaves: which outputs it wrote, and that they fit their buffers. -/
inductive Committed (s : State) : Instr → Commit → Prop
  /-- CRC8: RESULT (R122) -/
  | crc (poly init : Byte) (r : Word) :
    Committed s (.crc8 poly init) { out := { s.usedCrc poly with result := r }, desync := false }
  /-- the encoders, PCM_DEC and FIT: SB (R141, R145, R173, R218) -/
  | symbols {i : Instr} (o : List Byte) (hresult : writesResult i = false) (hsymbols : writesSymbols i = true)
    (hframe : writesFrame i = false) (hfit : o.length ≤ s.cfg.sbCap) :
    Committed s i { out := s.putSymbols o, desync := false }
  /-- the decoders: SB and RESULT (R143, R147) -/
  | decoded {i : Instr} (d : Decoded) (hresult : writesResult i = true) (hsymbols : writesSymbols i = true)
    (hframe : writesFrame i = false) (hfit : d.out.length ≤ s.cfg.sbCap) :
    Committed s i (decodedCommit s d)
  /-- PCM_ENC: PB (R171) -/
  | pulses (ps : List (Word × Word)) (hfit : ps.length ≤ s.cfg.pbCap) :
    Committed s .pcmEnc { out := s.putPulses ps, desync := false }
  /-- FSK_GEN: QB (R245) -/
  | samples (zs : List (Word × Word)) (hfit : zs.length ≤ s.cfg.qbCap) :
    Committed s .fskGen { out := s.putSamples zs, desync := false }
  /-- the frame commands: FB and SB, the frame ending in its checksum; base is s, a CRC computed or not (R190) -/
  | frame {i : Instr} (base : State) (body : List Byte) (stream : List Bool)
    (hbase : base = s ∨ base = s.usedCrc 0x07) (hresult : writesResult i = false)
    (hsymbols : writesSymbols i = true) (hframe : writesFrame i = true)
    (hlong : 8 ≤ body.length) (hfit : s.cfg.Valid → body.length + 1 ≤ s.cfg.fbCap ∧ stream.length ≤ s.cfg.sbCap) :
    Committed s i (frameCommit base (body ++ [frameChecksum i body]) stream)

/-- An answered decoding leaves no more symbols than SB holds (R143, R147). -/
theorem decoded_fits {s : State} {d : Decoded} (hcap : s.sbLen.toNat ≤ s.cfg.sbCap)
    (hlen : 2 * d.out.length ≤ (Store.window s.mem.sb 0 s.sbLen.toNat).length) : d.out.length ≤ s.cfg.sbCap := by
  rw [Store.length_window] at hlen
  omega

/-- Every run that ends without error leaves one of the six completions. -/
theorem runOf_committed {i : Instr} {s : State} {c : Commit} (h : runOf i s = .ok c) : Committed s i c := by
  cases i with
  | crc8 poly init =>
    obtain ⟨-, bytes, -, rfl⟩ := runCrc8_ok h
    exact .crc poly init _
  | manEnc =>
    obtain ⟨bits, -, hroom, rfl⟩ := runManEnc_ok h
    exact .symbols _ rfl rfl rfl (by simpa using hroom)
  | manDec be =>
    obtain ⟨hcap, d, hd, rfl⟩ := runManDec_ok h
    exact .decoded d rfl rfl rfl (decoded_fits hcap (mdec_length hd))
  | dmanEnc =>
    obtain ⟨bits, -, hroom, rfl⟩ := runDmanEnc_ok h
    exact .symbols _ rfl rfl rfl (by simpa using hroom)
  | dmanDec be =>
    obtain ⟨hcap, d, hd, rfl⟩ := runDmanDec_ok h
    exact .decoded d rfl rfl rfl (decoded_fits hcap (dmdec_length hd))
  | pcmEnc =>
    obtain ⟨bits, -, hroom, rfl⟩ := runPcmEnc_ok h
    exact .pulses _ (by simpa using hroom)
  | pcmDec =>
    obtain ⟨-, ps, -, hroom, rfl⟩ := runPcmDec_ok h
    exact .symbols _ rfl rfl rfl (by simpa using hroom)
  | encA df de =>
    obtain ⟨_, -, rfl, rfl⟩ := runEncA_ok h
    refine .frame _ _ _ (.inr rfl) rfl rfl rfl (by simp) fun hv => ?_
    simp only [length_streamA, length_sealA, length_dataBytesA]
    omega
  | encB df de =>
    obtain ⟨_, -, rfl, rfl⟩ := runEncB_ok h
    refine .frame _ _ _ (.inl rfl) rfl rfl rfl (by simp) fun hv => ?_
    simp only [length_streamB, length_sealB, length_dataB]
    omega
  | encC =>
    obtain ⟨_, -, rfl, rfl⟩ := runEncC_ok h
    refine .frame _ _ _ (.inr rfl) rfl rfl rfl (by simp) fun hv => ?_
    simp only [length_streamC, length_sealC, length_dataC]
    omega
  | encAx l pol df de =>
    obtain ⟨h9, hfb, hsb, -, -, pad, _, hpad, rfl, rfl⟩ := runEncAx_ok h
    have hlen := length_padBytes hpad
    refine .frame _ _ _ (.inr rfl) rfl rfl rfl (by simp) fun _ => ?_
    simp only [length_streamA, length_sealA, List.length_append, length_dataBytesA]
    omega
  | fit ps =>
    obtain ⟨-, hcap, kept, -, rfl⟩ := runFit_ok h
    exact .symbols _ rfl rfl rfl (by simpa using hcap)
  | fskGen =>
    obtain ⟨-, -, ps, -, hroom, rfl⟩ := runFskGen_ok h
    exact .samples _ (by simpa using hroom)

/-- A command that answers a next state has completed, or has failed and changed nothing but STATUS and ENG. -/
theorem exec_next {i : Instr} {s t : State} (h : exec i s = .next t) :
    (∃ c, Committed s i c ∧ t = c.out.finish c.desync) ∨ (∃ e, runOf i s = .error (.error e) ∧ t = s.fail e) := by
  rw [exec_eq_conclude, conclude_next] at h
  exact h.imp_left fun ⟨c, hc, ht⟩ => ⟨c, runOf_committed hc, ht⟩

/-! ## Stops -/

/-- Every stop of the computation x is one P allows. -/
def StopsIn {α : Type} (P : Stop → Prop) (x : Except Stop α) : Prop := ∀ e, x = .error e → P e

/-- The stops of a command run from s: an error code other than NONE (R271), or UNINIT at an unwritten entry (R39). -/
def CommandStop (s : State) : Stop → Prop
  | .error e => e ≠ .none
  | .fault f =>
    ∃ k, (f = .uninit .bb k ∧ Store.get k s.mem.bb = none) ∨ (f = .uninit .sb k ∧ Store.get k s.mem.sb = none) ∨
      (f = .uninit .pb k ∧ Store.get k s.mem.pb = none)

theorem stopsIn_ok {α : Type} {P : Stop → Prop} (a : α) : StopsIn P (.ok a) := fun _ h => nomatch h

theorem stopsIn_pure {α : Type} {P : Stop → Prop} (a : α) : StopsIn P (pure a) := stopsIn_ok a

theorem stopsIn_error {α : Type} {P : Stop → Prop} {e : Stop} (h : P e) : StopsIn P (.error e : Except Stop α) :=
  fun _ he => Except.error.inj he ▸ h

/-- A sequence stops where its first part does or where the rest does. -/
theorem StopsIn.bind {α β : Type} {P : Stop → Prop} {x : Except Stop α} {f : α → Except Stop β}
    (hx : StopsIn P x) (hf : ∀ a, StopsIn P (f a)) : StopsIn P (x >>= f) := fun e h =>
  (bind_error.1 h).elim (hx e) fun ⟨a, _, ha⟩ => hf a e ha

section
variable {s : State}

theorem check_stops {ok : Bool} {e : ErrCode} (he : e ≠ .none) : StopsIn (CommandStop s) (check ok e) := by
  intro x h
  obtain ⟨-, rfl⟩ := check_error.1 h
  exact he

theorem roomFor_stops (n cap : Nat) : StopsIn (CommandStop s) (roomFor n cap) := check_stops nofun

theorem lengthIn_stops (len : Word) (cap : Nat) : StopsIn (CommandStop s) (lengthIn len cap) := by
  intro x h
  obtain ⟨-, rfl⟩ := lengthIn_error.1 h
  exact nofun

theorem pressure_stops : StopsIn (CommandStop s) (pressure s) := by
  intro x h
  obtain rfl := pressure_error h
  exact nofun

theorem bitsOf_stops (xs : List Byte) : StopsIn (CommandStop s) (bitsOf xs) := by
  intro x h
  obtain ⟨rfl, -⟩ := bitsOf_error.1 h
  exact nofun

theorem needBytes_stops (i n : Nat) : StopsIn (CommandStop s) (needAll .bb i (Store.window s.mem.bb i n)) := by
  intro x h
  obtain ⟨k, rfl, hk⟩ := needAll_window_error h
  exact ⟨k, .inl ⟨rfl, hk⟩⟩

theorem needSymbols_stops (i n : Nat) : StopsIn (CommandStop s) (needAll .sb i (Store.window s.mem.sb i n)) := by
  intro x h
  obtain ⟨k, rfl, hk⟩ := needAll_window_error h
  exact ⟨k, .inr (.inl ⟨rfl, hk⟩)⟩

theorem pulsePairs_stops (m : Nat) : StopsIn (CommandStop s) (pulsePairs s m) := by
  refine StopsIn.bind (fun x h => ?_) fun _ => stopsIn_pure _
  obtain ⟨k, rfl, hk⟩ := needAll_window_error h
  exact ⟨k, .inr (.inr ⟨rfl, hk⟩)⟩

theorem symbolWindow_stops : StopsIn (CommandStop s) (symbolWindow s) :=
  (lengthIn_stops _ _).bind fun _ => stopsIn_pure _

theorem symbolInput_stops : StopsIn (CommandStop s) (symbolInput s) := by
  intro x h
  rcases symbolInput_error h with ⟨-, rfl⟩ | rfl | ⟨k, -, hk, rfl⟩
  · exact nofun
  · exact nofun
  · exact ⟨k, .inr (.inl ⟨rfl, hk⟩)⟩

theorem padBytes_stops (pol : PadPolicy) (data : List Byte) (n : Nat) :
    StopsIn (CommandStop s) (padBytes pol data n s) := by
  cases pol with
  | repeatData => exact stopsIn_ok _
  | zero => exact stopsIn_ok _
  | random => exact stopsIn_ok _
  | custom => exact (needBytes_stops 0 _).bind fun _ => stopsIn_pure _

/-! The decoders read the list ws of entries from index q of SB on. -/

/-- The list ws is that part of SB where it lacks an entry. -/
def LacksFrom (s : State) (q : Nat) (ws : List (Option Byte)) : Prop :=
  ∀ k, ws[k]? = some none → Store.get (q + k) s.mem.sb = none

theorem LacksFrom.drop {q : Nat} {ws : List (Option Byte)} (h : LacksFrom s q ws) (n : Nat) :
    LacksFrom s (q + n) (ws.drop n) := fun k hk => by
  rw [Nat.add_assoc]
  exact h (n + k) (by rwa [List.getElem?_drop] at hk)

theorem lacksFrom_window (n : Nat) : LacksFrom s 0 (Store.window s.mem.sb 0 n) := fun _ hk => Store.get_of_window hk

theorem pairBits_stops {q : Nat} {a b : Option Byte} {rest : List (Option Byte)}
    (h : LacksFrom s q (a :: b :: rest)) : StopsIn (CommandStop s) (pairBits q a b) := by
  refine StopsIn.bind (fun x hx => ?_) fun xs => (bitsOf_stops xs).bind fun bits => ?_
  · obtain ⟨k, rfl, hk, -⟩ := needAll_error hx
    have hlt : k < 2 := (List.getElem?_eq_some_iff.1 hk).1
    refine ⟨q + k, .inr (.inl ⟨rfl, h k ?_⟩)⟩
    rwa [show a :: b :: rest = [a, b] ++ rest from rfl, List.getElem?_append_left hlt]
  · split
    · exact stopsIn_pure _
    · exact stopsIn_error nofun

theorem mdecLoop_stops {bound : Option Nat} {q : Nat} {ws : List (Option Byte)} (h : LacksFrom s q ws) :
    StopsIn (CommandStop s) (mdecLoop bound q ws) := by
  induction bound, q, ws using mdecLoop.induct with
  | case1 q a b rest => simpa only [mdecLoop, if_true] using stopsIn_ok _
  | case2 bound q a b rest hb e he =>
    simpa only [mdecLoop, if_neg hb, he] using stopsIn_error (pairBits_stops h e he)
  | case3 bound q a b rest hb v he => simpa only [mdecLoop, if_neg hb, he, if_true] using stopsIn_ok _
  | case4 bound q a b rest hb u v he huv e hr ih =>
    simpa only [mdecLoop, if_neg hb, he, if_neg huv, hr] using stopsIn_error (ih (h.drop 2) e hr)
  | case5 bound q a b rest hb u v he huv d hr ih =>
    simpa only [mdecLoop, if_neg hb, he, if_neg huv, hr] using stopsIn_ok _
  | case6 bound q ws hws => simpa only [mdecLoop] using stopsIn_ok _

/-- Both decoders examine the same pairs, so they stop alike. -/
theorem mdecLoop_of_dmdecLoop_error {f : Bool} {bound : Option Nat} {q : Nat} {ws : List (Option Byte)} {e : Stop}
    (h : dmdecLoop f bound q ws = .error e) : mdecLoop bound q ws = .error e := by
  induction f, bound, q, ws using dmdecLoop.induct with
  | case1 f q a b rest => simp only [dmdecLoop, if_true, reduceCtorEq] at h
  | case2 f bound q a b rest hb e he => simpa only [dmdecLoop, mdecLoop, if_neg hb, he] using h
  | case3 f bound q a b rest hb v he => simp only [dmdecLoop, if_neg hb, he, if_true, reduceCtorEq] at h
  | case4 f bound q a b rest hb u v he huv e' hr ih =>
    simp only [dmdecLoop, if_neg hb, he, if_neg huv, hr] at h
    simp only [mdecLoop, if_neg hb, he, if_neg huv, ih (hr.trans h)]
  | case5 f bound q a b rest hb u v he huv d hr ih =>
    simp only [dmdecLoop, if_neg hb, he, if_neg huv, hr, reduceCtorEq] at h
  | case6 f bound q ws hws => simp only [dmdecLoop, reduceCtorEq] at h

theorem dmPhase_stops {q : Nat} {ws : List (Option Byte)} (h : LacksFrom s q ws) :
    StopsIn (CommandStop s) (dmPhase q ws) := by
  induction q, ws using dmPhase.induct with
  | case1 q => exact stopsIn_ok _
  | case2 q a => exact stopsIn_ok _
  | case3 q a b rest e he => simpa only [dmPhase, he] using stopsIn_error (pairBits_stops h e he)
  | case4 q a b rest v he ih => simpa only [dmPhase, he, if_true] using ih (h.drop 1)
  | case5 q a b rest u v he huv => simpa only [dmPhase, he, if_neg huv] using stopsIn_ok _

theorem dmPhase_lacksFrom {q q' : Nat} {ws rest : List (Option Byte)} (h : LacksFrom s q ws)
    (hp : dmPhase q ws = .ok (.found q' rest)) : LacksFrom s q' rest := by
  induction q, ws using dmPhase.induct with
  | case1 q => simp only [dmPhase, Except.ok.injEq, reduceCtorEq] at hp
  | case2 q a => simp only [dmPhase, Except.ok.injEq, reduceCtorEq] at hp
  | case3 q a b rest e he => simp only [dmPhase, he, reduceCtorEq] at hp
  | case4 q a b rest v he ih =>
    simp only [dmPhase, he, if_true] at hp
    exact ih (h.drop 1) hp
  | case5 q a b rest u v he huv =>
    simp only [dmPhase, he, if_neg huv, Except.ok.injEq, Phase.found.injEq] at hp
    obtain ⟨rfl, rfl⟩ := hp
    exact h

theorem mdec_stops (n o : Nat) (bound : Option Nat) :
    StopsIn (CommandStop s) (mdec (Store.window s.mem.sb 0 n) o bound) :=
  mdecLoop_stops (by simpa using (lacksFrom_window n).drop o)

theorem dmdec_stops (n o : Nat) (bound : Option Nat) :
    StopsIn (CommandStop s) (dmdec (Store.window s.mem.sb 0 n) o bound) := by
  have hws : LacksFrom s o ((Store.window s.mem.sb 0 n).drop o) := by simpa using (lacksFrom_window n).drop o
  intro x h
  obtain hx | ⟨phase, hp, h⟩ := bind_error.1 h
  · exact dmPhase_stops hws x hx
  · cases phase with
    | lost q => exact nomatch h
    | found q rest =>
      exact mdecLoop_stops (dmPhase_lacksFrom hws hp) x (mdecLoop_of_dmdecLoop_error h)

/-- Every command stops only in an error code, or in UNINIT at an entry that is unwritten. -/
theorem runOf_stops (i : Instr) (s : State) : StopsIn (CommandStop s) (runOf i s) := by
  cases i with
  | crc8 poly init =>
    exact (lengthIn_stops _ _).bind fun n => (needBytes_stops 0 n).bind fun _ => stopsIn_pure _
  | manEnc => exact symbolInput_stops.bind fun _ => (roomFor_stops _ _).bind fun _ => stopsIn_pure _
  | manDec be =>
    intro x h
    obtain hx | ⟨win, hwin, h⟩ := bind_error.1 h
    · exact symbolWindow_stops x hx
    · obtain ⟨-, rfl⟩ := symbolWindow_ok hwin
      exact ((mdec_stops _ _ _).bind fun _ => stopsIn_pure _) x h
  | dmanEnc => exact symbolInput_stops.bind fun _ => (roomFor_stops _ _).bind fun _ => stopsIn_pure _
  | dmanDec be =>
    intro x h
    obtain hx | ⟨win, hwin, h⟩ := bind_error.1 h
    · exact symbolWindow_stops x hx
    · obtain ⟨-, rfl⟩ := symbolWindow_ok hwin
      exact ((dmdec_stops _ _ _).bind fun _ => stopsIn_pure _) x h
  | pcmEnc => exact symbolInput_stops.bind fun _ => (roomFor_stops _ _).bind fun _ => stopsIn_pure _
  | pcmDec =>
    exact (lengthIn_stops _ _).bind fun m => (pulsePairs_stops m).bind fun _ =>
      (roomFor_stops _ _).bind fun _ => stopsIn_pure _
  | encA df de => exact pressure_stops.bind fun _ => stopsIn_pure _
  | encB df de => exact pressure_stops.bind fun _ => stopsIn_pure _
  | encC => exact pressure_stops.bind fun _ => stopsIn_pure _
  | encAx l pol df de =>
    exact (check_stops (by decide)).bind fun _ => (check_stops (by decide)).bind fun _ =>
      (check_stops (by decide)).bind fun _ => pressure_stops.bind fun _ => (roomFor_stops _ _).bind fun _ => (roomFor_stops _ _).bind fun _ =>
      (padBytes_stops _ _ _).bind fun _ => stopsIn_pure _
  | fit ps =>
    exact (lengthIn_stops _ _).bind fun n => (lengthIn_stops _ _).bind fun m =>
      (needSymbols_stops 0 _).bind fun _ => stopsIn_pure _
  | fskGen =>
    exact (lengthIn_stops _ _).bind fun m => (check_stops (by decide)).bind fun _ => (pulsePairs_stops m).bind fun _ =>
      (roomFor_stops _ _).bind fun _ => stopsIn_pure _

end

/-- Settles O53: a fault of `exec` is a stop of its run, and `runOf_stops` says which those are. -/
theorem faultsOnlyOnUnwrittenInput : Obligations.FaultsOnlyOnUnwrittenInput := by
  intro i s f h
  rw [exec_eq_conclude, conclude_fault] at h
  exact runOf_stops i s _ h

end Sys2Proof.Machine

/-! The invariant (Safety.lean) in two parts, and that every step keeps each. -/

namespace Sys2Proof.Machine

/-! ## The two parts of the invariant -/

/-- The clauses of the invariant about STATUS and ENG (R24, R307). -/
structure FlagsOk (busy : Bool) (f : Status) : Prop where
  errCode : f.err = true ↔ f.ecode ≠ .none
  errNoDesync : f.err = true → f.desync = false
  setWithDone : (f.err || f.desync) = true → f.done = true
  busyClear : busy = true → f.done = false

/-- The clauses of the invariant about the configuration, the buffers and CACHE (R26, R35, R41). -/
structure DataOk (s : State) : Prop where
  cfgValid : s.cfg.Valid
  memWf : s.mem.wf
  memWithin : s.mem.within s.cfg
  cacheTable : ∀ c, s.cache = some c → c.table = crcTable c.poly
  frameSealed : FrameSealed s
  samplesWritten : s.qbLen.toNat ≤ s.cfg.qbCap ∧ ∀ k < 2 * s.qbLen.toNat, (Store.get k s.mem.qb).isSome

theorem inv_iff (s : State) : Inv s ↔ DataOk s ∧ FlagsOk s.eng.isBusy s.status := by
  constructor
  · intro h
    exact ⟨⟨h.cfgValid, h.memWf, h.memWithin, h.cacheTable, h.frameSealed, h.samplesWritten⟩,
      ⟨h.errCode, h.errNoDesync, h.setWithDone, h.busyClear⟩⟩
  · rintro ⟨hdata, hflags⟩
    exact ⟨hdata.cfgValid, hdata.memWf, hdata.memWithin, hflags.errCode, hflags.errNoDesync, hflags.setWithDone,
      hflags.busyClear, hdata.cacheTable, hdata.frameSealed, hdata.samplesWritten⟩

/-! ## The flags -/

theorem flagsOk_accepted (f : Status) (busy : Bool) : FlagsOk busy f.accepted := by constructor <;> simp

theorem flagsOk_succeeded (f : Status) (desync : Bool) : FlagsOk false (f.succeeded desync) := by
  constructor <;> simp

theorem flagsOk_failed (f : Status) {e : ErrCode} (he : e ≠ .none) : FlagsOk false (f.failed e) := by
  constructor <;> simp [he]

theorem FlagsOk.overrun {busy : Bool} {f : Status} (h : FlagsOk busy f) : FlagsOk busy f.overrun :=
  ⟨h.errCode, h.errNoDesync, h.setWithDone, h.busyClear⟩

/-! ## The data -/

/-- The data clauses read five fields of the state. -/
theorem DataOk.congr {s t : State} (h : DataOk s) (hcfg : t.cfg = s.cfg) (hmem : t.mem = s.mem)
    (hcache : t.cache = s.cache) (hfb : t.fbLen = s.fbLen) (hqb : t.qbLen = s.qbLen) : DataOk t where
  cfgValid := hcfg ▸ h.cfgValid
  memWf := hmem ▸ h.memWf
  memWithin := by rw [hmem, hcfg]; exact h.memWithin
  cacheTable := hcache ▸ h.cacheTable
  frameSealed := by unfold FrameSealed; rw [hmem, hfb]; exact h.frameSealed
  samplesWritten := by rw [hmem, hcfg, hqb]; exact h.samplesWritten

theorem dataOk_resetWith {c : Config} (hv : c.Valid) : DataOk (State.resetWith c) where
  cfgValid := hv
  memWf := ⟨.nil, .nil, .nil, .nil, .nil⟩
  memWithin := ⟨nofun, nofun, nofun, nofun, nofun⟩
  cacheTable := nofun
  frameSealed := .inl rfl
  samplesWritten := ⟨Nat.zero_le _, fun k hk => absurd hk (Nat.not_lt_zero k)⟩

theorem fillCache_table {p : Byte} {c : Option CrcCache} (h : ∀ t, c = some t → t.table = crcTable t.poly) :
    ∀ t, fillCache p c = some t → t.table = crcTable t.poly := by
  intro t ht
  unfold fillCache at ht
  split at ht
  · rename_i u
    split at ht
    · exact h t ht
    · obtain rfl := Option.some.inj ht
      rfl
  · obtain rfl := Option.some.inj ht
    rfl

/-- A host write stores in BB, SB or PB, below the capacity. -/
theorem DataOk.writeLoc {s : State} (h : DataOk s) {a : Addr} {size : Nat} {l : Loc} (v : Word)
    (hl : locate s.cfg a size = some l) : DataOk (s.writeLoc l v) := by
  cases l with
  | reg r => cases r <;> exact h.congr rfl rfl rfl rfl rfl
  | entry b i =>
    obtain ⟨hwf, hwithin⟩ := State.writeLoc_mem (v := v) hl h.memWf h.memWithin
    obtain ⟨hfb, hqb⟩ := s.writeLoc_readOnly (.entry b i) v
    refine ⟨h.cfgValid, hwf, hwithin, h.cacheTable, ?_, ?_⟩
    · unfold FrameSealed
      rw [hfb]
      exact h.frameSealed
    · rw [hqb]
      exact h.samplesWritten

theorem DataOk.usedCrc {s : State} (h : DataOk s) (p : Byte) : DataOk (s.usedCrc p) :=
  ⟨h.cfgValid, h.memWf, h.memWithin, fillCache_table h.cacheTable, h.frameSealed, h.samplesWritten⟩

theorem DataOk.putSymbols {s : State} (h : DataOk s) {o : List Byte} (hfit : o.length ≤ s.cfg.sbCap) :
    DataOk (s.putSymbols o) := by
  obtain ⟨wbb, wsb, wpb, wfb, wqb⟩ := h.memWf
  obtain ⟨lbb, lsb, lpb, lfb, lqb⟩ := h.memWithin
  exact ⟨h.cfgValid, ⟨wbb, Store.wf_blit wsb o, wpb, wfb, wqb⟩, ⟨lbb, Store.below_blit lsb hfit, lpb, lfb, lqb⟩,
    h.cacheTable, h.frameSealed, h.samplesWritten⟩

theorem DataOk.putPulses {s : State} (h : DataOk s) {ps : List (Word × Word)} (hfit : ps.length ≤ s.cfg.pbCap) :
    DataOk (s.putPulses ps) := by
  obtain ⟨wbb, wsb, wpb, wfb, wqb⟩ := h.memWf
  obtain ⟨lbb, lsb, lpb, lfb, lqb⟩ := h.memWithin
  exact ⟨h.cfgValid, ⟨wbb, wsb, Store.wf_blit wpb _, wfb, wqb⟩,
    ⟨lbb, lsb, Store.below_blit lpb (by rw [length_halves]; omega), lfb, lqb⟩,
    h.cacheTable, h.frameSealed, h.samplesWritten⟩

theorem DataOk.putSamples {s : State} (h : DataOk s) {zs : List (Word × Word)} (hfit : zs.length ≤ s.cfg.qbCap) :
    DataOk (s.putSamples zs) := by
  obtain ⟨wbb, wsb, wpb, wfb, wqb⟩ := h.memWf
  obtain ⟨lbb, lsb, lpb, lfb, lqb⟩ := h.memWithin
  have hhalves : (halves zs).length ≤ 2 * s.cfg.qbCap := by rw [length_halves]; omega
  have hlen : (s.putSamples zs).qbLen.toNat = zs.length := by
    have := h.cfgValid
    exact toNat_length (by omega)
  refine ⟨h.cfgValid, ⟨wbb, wsb, wpb, wfb, Store.wf_blit wqb _⟩, ⟨lbb, lsb, lpb, lfb, Store.below_blit lqb hhalves⟩,
    h.cacheTable, h.frameSealed, ?_⟩
  rw [hlen]
  refine ⟨hfit, fun k hk => ?_⟩
  rw [← length_halves] at hk
  rw [State.putSamples_mem, Store.holds_blit _ _ k hk]
  simpa using hk

/-- A frame that ends in its checksum, written with its stream. -/
theorem DataOk.putFrame {s : State} (h : DataOk s) {body o : List Byte} {last : Byte}
    (hlast : last = crc8 body 0x07 0x00 ∨ last = crc8 body 0x07 0x80 ∨ last = xorAll body)
    (hfb : body.length + 1 ≤ s.cfg.fbCap) (hsb : o.length ≤ s.cfg.sbCap) : DataOk (s.putFrame (body ++ [last]) o) := by
  obtain ⟨wbb, wsb, wpb, wfb, wqb⟩ := h.memWf
  obtain ⟨lbb, lsb, lpb, lfb, lqb⟩ := h.memWithin
  have hlong : (body ++ [last]).length = body.length + 1 := by simp
  have hlen : (s.putFrame (body ++ [last]) o).fbLen.toNat = body.length + 1 := by
    have := h.cfgValid
    rw [← hlong]
    exact toNat_length (by omega)
  exact ⟨h.cfgValid, ⟨wbb, Store.wf_blit wsb _, wpb, Store.wf_blit wfb _, wqb⟩,
    ⟨lbb, Store.below_blit lsb hsb, lpb, Store.below_blit lfb (by omega), lqb⟩, h.cacheTable,
    .inr ⟨body, last, hlen, Store.holds_blit _ _, hlast⟩, h.samplesWritten⟩

/-- The checksum of a frame command is one of the three of R35. -/
theorem frameChecksum_cases (i : Instr) (body : List Byte) :
    frameChecksum i body = crc8 body 0x07 0x00 ∨ frameChecksum i body = crc8 body 0x07 0x80 ∨
      frameChecksum i body = xorAll body := by
  unfold frameChecksum
  split <;> simp

/-- Every completion without error keeps the data clauses. -/
theorem Committed.dataOk {s : State} {i : Instr} {c : Commit} (hc : Committed s i c) (h : DataOk s) :
    DataOk c.out := by
  cases hc with
  | crc poly init r => exact (h.usedCrc poly).congr rfl rfl rfl rfl rfl
  | symbols o _ _ _ hfit => exact h.putSymbols hfit
  | decoded d _ _ _ hfit =>
    exact (h.putSymbols (o := symbolsOf d.out) (by simpa using hfit)).congr rfl rfl rfl rfl rfl
  | pulses ps hfit => exact h.putPulses hfit
  | samples zs hfit => exact h.putSamples hfit
  | frame base body stream hbase _ _ _ _ hfit =>
    obtain ⟨hfb, hsb⟩ := hfit h.cfgValid
    have hsb' : (symbolsOf stream).length ≤ s.cfg.sbCap := by simpa using hsb
    rcases hbase with rfl | rfl
    · exact h.putFrame (frameChecksum_cases _ body) hfb hsb'
    · exact (h.usedCrc 0x07).putFrame (frameChecksum_cases _ body) hfb hsb'

/-! ## The steps -/

theorem inv_resetWith {c : Config} (hv : c.Valid) : Inv (State.resetWith c) :=
  (inv_iff _).2 ⟨dataOk_resetWith hv, flagsOk_accepted (State.resetWith c).status false⟩

theorem Inv.fail {s : State} (h : Inv s) {e : ErrCode} (he : e ≠ .none) : Inv (s.fail e) := by
  obtain ⟨hdata, -⟩ := (inv_iff s).1 h
  exact (inv_iff _).2 ⟨hdata.congr rfl rfl rfl rfl rfl, flagsOk_failed _ he⟩

theorem exec_keeps_inv {i : Instr} {s t : State} (h : Inv s) (ht : exec i s = .next t) : Inv t := by
  rcases exec_next ht with ⟨c, hc, rfl⟩ | ⟨e, he, rfl⟩
  · obtain ⟨hdata, -⟩ := (inv_iff s).1 h
    exact (inv_iff _).2 ⟨(hc.dataOk hdata).congr rfl rfl rfl rfl rfl, flagsOk_succeeded _ _⟩
  · exact h.fail (runOf_stops i s _ he)

theorem engineTurn_keeps_inv {w : Word} {s t : State} (h : Inv s) (ht : engineTurn w s = .next t) : Inv t := by
  rcases engineTurn_cases w s with ⟨i, -, hi⟩ | ⟨e, -, he⟩
  · exact exec_keeps_inv h (hi ▸ ht)
  · rw [he, Host.Outcome.next.injEq] at ht
    exact ht ▸ h.fail nofun

/-- A host turn's bookkeeping touches nothing the invariant speaks of. -/
theorem Inv.hostSide {s : State} (h : Inv s) (host : List HostOp) (reads : List Word) (lag draws : Nat) :
    Inv { s with host := host, reads := reads, lag := lag, draws := draws } := by
  obtain ⟨hdata, hflags⟩ := (inv_iff s).1 h
  exact (inv_iff _).2 ⟨hdata.congr rfl rfl rfl rfl rfl, hflags⟩

theorem memWrite_keeps_inv {a : Addr} {size : Nat} {v : Word} {s t : State} (h : Inv s)
    (ht : memWrite a size v s = .ok t) : Inv t := by
  obtain ⟨hdata, hflags⟩ := (inv_iff s).1 h
  obtain ⟨l, hl, hw, ⟨-, rfl⟩ | ⟨hidle, rfl⟩⟩ := memWrite_ok ht
  · exact (inv_iff _).2 ⟨hdata.congr rfl rfl rfl rfl rfl, hflags.overrun⟩
  · refine (inv_iff _).2 ⟨hdata.writeLoc v hl, ?_⟩
    cases l with
    | reg r =>
      cases r with
      | CMD => exact flagsOk_accepted s.status true
      | _ => exact hflags
    | entry b i => exact hflags

theorem memRead_keeps_inv {a : Addr} {size : Nat} {v : Word} {s t : State} (h : Inv s)
    (ht : memRead a size s = .ok (v, t)) : Inv t := by
  obtain ⟨l, -, -, ⟨-, rfl, -⟩ | ⟨-, rfl, -⟩⟩ := memRead_ok ht
  · exact h
  · exact h.hostSide s.host s.reads s.lag _

theorem hostTurn_keeps_inv {s t : State} (h : Inv s) (ht : hostTurn s = .next t) : Inv t := by
  rcases hostTurn_next ht with ⟨-, rfl⟩ | ⟨a, n, rest, v, u, -, hr, rfl⟩ | ⟨a, n, v, rest, u, -, hw, rfl⟩ |
    ⟨rest, -, rfl⟩ | ⟨rest, -, rfl⟩
  · exact h
  · exact (memRead_keeps_inv h hr).hostSide rest _ u.lag u.draws
  · exact (memWrite_keeps_inv h hw).hostSide rest u.reads u.lag u.draws
  · exact h.hostSide _ _ s.lag s.draws
  · exact (inv_resetWith h.cfgValid).hostSide rest s.reads 0 s.draws

/-- Settles O56: a step is a host turn or a completion, and each keeps the data clauses and the flag clauses. -/
theorem stepKeepsTheInvariant : Obligations.StepKeepsTheInvariant := by
  intro s t h ht
  rcases step_cases s with ⟨w, -, -, hs⟩ | ⟨w, n, -, -, hs⟩ | ⟨-, hs⟩
  · exact engineTurn_keeps_inv h (hs ▸ ht)
  · exact hostTurn_keeps_inv (h.hostSide s.host s.reads n s.draws) (hs ▸ ht)
  · exact hostTurn_keeps_inv h (hs ▸ ht)

end Sys2Proof.Machine

/-! The content of CACHE is seen by no step (R41, R123, R303). -/

namespace Sys2Proof.Machine

/-- The state with another content of CACHE. -/
def State.withCache (c : Option CrcCache) (s : State) : State := { s with cache := c }

@[simp] theorem State.withCache_cfg (c : Option CrcCache) (s : State) : (s.withCache c).cfg = s.cfg := rfl
@[simp] theorem State.withCache_eng (c : Option CrcCache) (s : State) : (s.withCache c).eng = s.eng := rfl
@[simp] theorem State.withCache_host (c : Option CrcCache) (s : State) : (s.withCache c).host = s.host := rfl

/-- A commit with another content of CACHE in what it leaves. -/
def Commit.withCache (c : Option CrcCache) (k : Commit) : Commit := { k with out := k.out.withCache c }

/-- An outcome with another content of CACHE in the next state. -/
def outcomeWithCache (c : Option CrcCache) : Host.Outcome State Fault Refusal → Host.Outcome State Fault Refusal
  | .next t => .next (t.withCache c)
  | .fault f => .fault f
  | .refused x => .refused x

/-- What a command leaves in CACHE (R41): the commands that compute a CRC fill it. -/
def cacheAfter : Instr → Option CrcCache → Option CrcCache
  | .crc8 poly _, c => fillCache poly c
  | .encA _ _, c => fillCache 0x07 c
  | .encC, c => fillCache 0x07 c
  | .encAx _ _ _ _, c => fillCache 0x07 c
  | _, c => c

theorem except_map_bind {α β γ : Type} (x : Except Stop α) (f : α → Except Stop β) (g : β → γ) :
    (x >>= f).map g = x >>= fun a => (f a).map g := by
  cases x <;> rfl

theorem except_map_pure {α β : Type} (a : α) (g : α → β) : (pure a : Except Stop α).map g = pure (g a) := rfl

/-- A run reads no CACHE: with another content it stops alike, or leaves the same but in CACHE. Every run is a chain
of checks and readings of other fields, so the map on its answer moves to the chain's end, where the two sides agree. -/
theorem runOf_withCache (i : Instr) (s : State) (c : Option CrcCache) :
    runOf i (s.withCache c) = (runOf i s).map (Commit.withCache (cacheAfter i c)) := by
  cases i <;> simp only [runOf, runCrc8, runManEnc, runManDec, runDmanEnc, runDmanDec, runPcmEnc, runPcmDec, runEncA,
    runEncB, runEncC, runEncAx, runFit, runFskGen, except_map_bind, except_map_pure] <;> rfl

theorem exec_withCache (i : Instr) (s : State) (c : Option CrcCache) :
    ∃ c', exec i (s.withCache c) = outcomeWithCache c' (exec i s) := by
  simp only [exec_eq_conclude, runOf_withCache]
  cases runOf i s with
  | ok k => exact ⟨cacheAfter i c, rfl⟩
  | error e =>
    refine ⟨c, ?_⟩
    cases e <;> rfl

theorem engineTurn_withCache (w : Word) (s : State) (c : Option CrcCache) :
    ∃ c', engineTurn w (s.withCache c) = outcomeWithCache c' (engineTurn w s) := by
  unfold engineTurn
  cases decode w with
  | ok i => exact exec_withCache i s c
  | error e => exact ⟨c, rfl⟩

theorem writeLoc_withCache (l : Loc) (v : Word) (s : State) (c : Option CrcCache) :
    (s.withCache c).writeLoc l v = (s.writeLoc l v).withCache c := by
  cases l with
  | reg r => cases r <;> rfl
  | entry b i => rfl

theorem memWrite_withCache (a : Addr) (size : Nat) (v : Word) (s : State) (c : Option CrcCache) :
    memWrite a size v (s.withCache c) = (memWrite a size v s).map (State.withCache c) := by
  simp only [memWrite, State.withCache_cfg, State.withCache_eng, writeLoc_withCache]
  cases locate s.cfg a size with
  | none => rfl
  | some l =>
    dsimp only
    split_ifs <;> rfl

theorem readLoc_withCache (l : Loc) (s : State) (c : Option CrcCache) :
    (s.withCache c).readLoc l = s.readLoc l := by
  cases l with
  | reg r => cases r <;> rfl
  | entry b i => rfl

theorem memRead_withCache (a : Addr) (size : Nat) (s : State) (c : Option CrcCache) :
    memRead a size (s.withCache c) = (memRead a size s).map (Prod.map id (State.withCache c)) := by
  simp only [memRead, State.withCache_cfg, State.withCache_eng, readLoc_withCache]
  cases locate s.cfg a size with
  | none => rfl
  | some l =>
    dsimp only
    split_ifs
    · rfl
    · cases s.readLoc l <;> rfl
    · rfl

/-- A host turn reads no CACHE; only the reset line writes it. -/
theorem hostTurn_withCache (s : State) (c : Option CrcCache) :
    ∃ c', hostTurn (s.withCache c) = outcomeWithCache c' (hostTurn s) := by
  unfold hostTurn
  simp only [State.withCache_host, memRead_withCache, memWrite_withCache]
  split
  · exact ⟨c, rfl⟩
  · rename_i a size rest _
    refine ⟨c, ?_⟩
    cases memRead a size s <;> rfl
  · rename_i a size v rest _
    refine ⟨c, ?_⟩
    cases memWrite a size v s <;> rfl
  · exact ⟨c, rfl⟩
  · exact ⟨none, rfl⟩

theorem step_withCache (s : State) (c : Option CrcCache) :
    ∃ c', step (s.withCache c) = outcomeWithCache c' (step s) := by
  rcases step_cases s with ⟨w, he, hl, hs⟩ | ⟨w, n, he, hl, hs⟩ | ⟨he, hs⟩
  · rw [hs, step_complete (s := s.withCache c) he hl]
    exact engineTurn_withCache w s c
  · rw [hs, step_waiting (s := s.withCache c) he hl]
    exact hostTurn_withCache { s with lag := n } c
  · rw [hs, step_idle (s := s.withCache c) he]
    exact hostTurn_withCache s c

/-- Settles O57: the step with another CACHE is the same outcome with some other CACHE, by `step_withCache`. -/
theorem cacheIsUnobservable : Obligations.CacheIsUnobservable := by
  intro s c
  obtain ⟨c', hstep⟩ := step_withCache s c
  exact ⟨fun t ht => ⟨c', by rw [ht] at hstep; exact hstep⟩, fun f hf => by rw [hf] at hstep; exact hstep⟩

end Sys2Proof.Machine

/-! The bus while idle, and STATUS (R22, R24, R61 to R65). -/

namespace Sys2Proof.Machine

/-! ## Accesses while idle -/

/-- A read that is not a read while busy answers a location's value and changes nothing (R61). -/
theorem memRead_of_readLoc {s : State} {a : Addr} {l : Loc} {v : Word} (hl : locate s.cfg a 4 = some l)
    (hr : l.readable = true) (hquiet : s.eng = .idle ∨ l = .reg .STATUS) (hv : s.readLoc l = some v) :
    memRead a 4 s = .ok (v, s) := by
  have hnot : ¬ (s.eng.isBusy = true ∧ l ≠ .reg .STATUS) := by
    rcases hquiet with h | h <;> simp [h]
  simp only [memRead, hl, hr, hv, if_true, if_neg hnot]

/-- A read of a location never written draws a value (R39). -/
theorem memRead_of_unwritten {s : State} {a : Addr} {l : Loc} (hl : locate s.cfg a 4 = some l)
    (hr : l.readable = true) (hidle : s.eng = .idle) (hv : s.readLoc l = none) : memRead a 4 s = .ok s.draw := by
  have hnot : ¬ (s.eng.isBusy = true ∧ l ≠ .reg .STATUS) := by simp [hidle]
  simp only [memRead, hl, hr, hv, if_true, if_neg hnot]

/-- A write while idle stores in the location (R61). -/
theorem memWrite_of_idle {s : State} {a : Addr} {l : Loc} (v : Word) (hl : locate s.cfg a 4 = some l)
    (hw : l.writable = true) (hidle : s.eng = .idle) : memWrite a 4 v s = .ok (s.writeLoc l v) := by
  simp [memWrite, hl, hw, hidle]

theorem memRead_reg {s : State} (hidle : s.eng = .idle) (r : Reg) (hr : (Loc.reg r).readable = true) :
    memRead (BitVec.ofNat 24 r.offset) 4 s = .ok (s.readReg r, s) :=
  memRead_of_readLoc (locate_reg s.cfg r) hr (.inl hidle) rfl

theorem memRead_entry {s : State} (hv : s.cfg.Valid) (hidle : s.eng = .idle) {b : Buffer} {i : Nat} {x : Word}
    (hi : i < b.words s.cfg) (hx : s.mem.readEntry b i = some x) : memRead (windowAddr b i) 4 s = .ok (x, s) :=
  memRead_of_readLoc (locate_windowAddr hv hi) rfl (.inl hidle) hx

/-! ## The operand registers -/

/-- The bits of a written word that register r keeps (R22). -/
def keptBits (r : Reg) (v : Word) : Word := if r = .FLAGS then v &&& 0xFF else if r = .EXTRA then v &&& 0xFFFF else v

/-- A register of R22 that the host writes as an operand. -/
def Reg.isOperand (r : Reg) : Prop := r ∉ [Reg.CMD, .STATUS, .RESULT, .FB_LEN, .QB_LEN]

/-- The low n bits of a word, as a mask. -/
theorem setWidth_extractLsb'_eq_and (v : Word) (n : Nat) :
    (v.extractLsb' 0 n).setWidth 32 = v &&& BitVec.ofNat 32 (2 ^ n - 1) := by
  refine BitVec.eq_of_getLsbD_eq fun k hk => ?_
  simp only [BitVec.getLsbD_setWidth, BitVec.getLsbD_extractLsb', BitVec.getLsbD_and, BitVec.getLsbD_ofNat,
    Nat.testBit_two_pow_sub_one, Nat.zero_add, hk, decide_true, Bool.true_and, Bool.and_comm]

theorem readReg_writeReg_self {r : Reg} (hr : r.isOperand) (v : Word) (s : State) :
    (s.writeReg r v).readReg r = keptBits r v := by
  cases r with
  | FLAGS => exact setWidth_extractLsb'_eq_and v 8
  | EXTRA => exact setWidth_extractLsb'_eq_and v 16
  | CMD | STATUS | RESULT | FB_LEN | QB_LEN => exact absurd hr (by simp [Reg.isOperand])
  | _ => rfl

theorem readReg_writeReg_of_ne {r q : Reg} (hr : r.isOperand) (hq : q ≠ r) (v : Word) (s : State) :
    (s.writeReg r v).readReg q = s.readReg q := by
  cases r with
  | CMD => exact absurd hr (by simp [Reg.isOperand])
  | _ => cases q <;> trivial

theorem writeReg_operand_frame {r : Reg} (hr : r.isOperand) (v : Word) (s : State) :
    (s.writeReg r v).mem = s.mem ∧ (s.writeReg r v).eng = s.eng ∧ (s.writeReg r v).status = s.status ∧
      (s.writeReg r v).cache = s.cache ∧ (s.writeReg r v).cfg = s.cfg := by
  cases r with
  | CMD => exact absurd hr (by simp [Reg.isOperand])
  | _ => exact ⟨rfl, rfl, rfl, rfl, rfl⟩

theorem isOperand_access {r : Reg} (hr : r.isOperand) :
    (Loc.reg r).writable = true ∧ (Loc.reg r).readable = true := by
  cases r with
  | CMD | STATUS | RESULT | FB_LEN | QB_LEN => exact absurd hr (by simp [Reg.isOperand])
  | _ => exact ⟨rfl, rfl⟩

/-- Settles O12: the write is `writeReg`, and what each register reads after it is `readReg_writeReg_self` and
`readReg_writeReg_of_ne`. -/
theorem operandRegistersReadBack : Obligations.OperandRegistersReadBack := by
  intro s r v hidle hr
  obtain ⟨hw, hread⟩ := isOperand_access hr
  obtain ⟨hmem, heng, hstatus, hcache, hcfg⟩ := writeReg_operand_frame hr v s
  refine ⟨s.writeReg r v, memWrite_of_idle v (locate_reg s.cfg r) hw hidle, ?_,
    fun q hq => readReg_writeReg_of_ne hr hq v s, hmem, heng, hstatus, hcache, hcfg⟩
  rw [memRead_reg (heng.trans hidle) r hread, readReg_writeReg_self hr, keptBits]

/-- Settles O16: CMD is at address 0, and a write to it while idle is `State.accept`. -/
theorem cmdWriteAcceptsWhenIdle : Obligations.CmdWriteAcceptsWhenIdle := fun s w hidle =>
  ⟨s.accept w, memWrite_of_idle w (locate_reg s.cfg .CMD) rfl hidle, rfl⟩

/-! ## STATUS -/

/-- A status bit is the bit of the word it stands at. -/
theorem getLsbD_statusBit (b : Bool) {k : Nat} (hk : k < 32) (j : Nat) :
    (statusBit b k).getLsbD j = (b && decide (k = j)) := by
  cases b with
  | false => simp [statusBit]
  | true => simpa [statusBit, BitVec.twoPow_eq, hk] using BitVec.getLsbD_twoPow (w := 32) k j

/-- The bits of STATUS (R24): ECODE from bit 8 on, a flag at each of the bits 0 to 4, and no other. -/
theorem getLsbD_statusWord (busy : Bool) (f : Status) {j : Nat} (hj : j < 32) :
    (statusWord busy f).getLsbD j =
      ((busy && decide (0 = j)) || (f.done && decide (1 = j)) || (f.desync && decide (2 = j)) ||
        (f.err && decide (3 = j)) || (f.ovr && decide (4 = j)) ||
        (!decide (j < 8) && f.ecode.code.getLsbD (j - 8))) := by
  simp only [statusWord, BitVec.getLsbD_or]
  rw [getLsbD_statusBit, getLsbD_statusBit, getLsbD_statusBit, getLsbD_statusBit, getLsbD_statusBit]
  · simp [hj]
  all_goals decide

/-- Above the flags STATUS has only ECODE. -/
theorem getLsbD_statusWord_high (busy : Bool) (f : Status) {j : Nat} (h5 : 5 ≤ j) (hj : j < 32) :
    (statusWord busy f).getLsbD j = (!decide (j < 8) && f.ecode.code.getLsbD (j - 8)) := by
  simp only [getLsbD_statusWord busy f hj, show 0 ≠ j by omega, show 1 ≠ j by omega, show 2 ≠ j by omega,
    show 3 ≠ j by omega, show 4 ≠ j by omega, decide_false, Bool.and_false, Bool.false_or]

/-- Settles O15: STATUS is read in every state, and its bits are `getLsbD_statusWord`. -/
theorem statusWordLayout : Obligations.StatusWordLayout := by
  refine ⟨⟨rfl, rfl, rfl, rfl, rfl, rfl, rfl⟩, fun s => ⟨s.statusReg,
    memRead_of_readLoc (locate_reg s.cfg .STATUS) rfl (.inr rfl) rfl, ?_⟩⟩
  have hbit := fun j hj => getLsbD_statusWord s.eng.isBusy s.status (j := j) hj
  rw [State.statusReg, hbit 0 (by decide), hbit 1 (by decide), hbit 2 (by decide), hbit 3 (by decide),
    hbit 4 (by decide)]
  refine ⟨by simp, by simp, by simp, by simp, by simp, ?_, ?_, ?_⟩
  · ext k hk
    rw [BitVec.getElem_extractLsb', getLsbD_statusWord_high _ _ (by omega) (by omega)]
    simp [show 5 + k < 8 by omega]
  · ext k hk
    rw [BitVec.getElem_extractLsb', getLsbD_statusWord_high _ _ (by omega) (by omega)]
    simp [BitVec.getLsbD_eq_getElem hk]
  · ext k hk
    rw [BitVec.getElem_extractLsb', getLsbD_statusWord_high _ _ (by omega) (by omega)]
    simp [show 4 ≤ 12 + k - 8 by omega]

/-! ## Reads of every location -/

/-- Settles O58: a register's or an entry's read by its location's, the addresses being those of the map. -/
theorem idleReadsReturnTheLocation : Obligations.IdleReadsReturnTheLocation := by
  intro s hv hidle
  refine ⟨?_, ?_, ?_, ?_⟩
  · simp only [List.forall_mem_cons, List.not_mem_nil, false_imp_iff, implies_true, and_true]
    have hreg := memRead_reg hidle
    exact ⟨hreg .RESULT rfl, hreg .BB_LEN rfl, hreg .SB_LEN rfl, hreg .PB_LEN rfl, hreg .FB_LEN rfl, hreg .QB_LEN rfl,
      hreg .DEC_OFF rfl, hreg .DEC_BOUND rfl, hreg .FIT_LEN rfl, hreg .SENSOR_ID rfl, hreg .PRESS_LO rfl,
      hreg .PRESS_HI rfl, hreg .TEMP rfl, hreg .FLAGS rfl, hreg .EXTRA rfl, hreg .MARK_HZ rfl, hreg .SPACE_HZ rfl,
      hreg .FS_HZ rfl, hreg .SYM_US rfl, hreg .PAD_US rfl⟩
  · rintro i base m v (⟨rfl, rfl, hi⟩ | ⟨rfl, rfl, hi⟩ | ⟨rfl, rfl, hi⟩) hget
    · exact memRead_entry (b := .bb) hv hidle hi (by simp [Memory.readEntry, hget])
    · exact memRead_entry (b := .sb) hv hidle hi (by simp [Memory.readEntry, hget])
    · exact memRead_entry (b := .fb) hv hidle hi (by simp [Memory.readEntry, hget])
  · intro i base m v h
    have haddr : base + 8 * i = base + 4 * (2 * i) ∧ base + 8 * i + 4 = base + 4 * (2 * i + 1) := by omega
    rw [haddr.2, haddr.1]
    rcases h with ⟨rfl, rfl, hi⟩ | ⟨rfl, rfl, hi⟩
    · exact ⟨memRead_entry (b := .pb) hv hidle (by simp only [Buffer.words]; omega),
        memRead_entry (b := .pb) hv hidle (by simp only [Buffer.words]; omega)⟩
    · exact ⟨memRead_entry (b := .qb) hv hidle (by simp only [Buffer.words]; omega),
        memRead_entry (b := .qb) hv hidle (by simp only [Buffer.words]; omega)⟩
  · intro b i hi hnone
    exact ⟨_, memRead_of_unwritten (locate_windowAddr hv hi) rfl hidle hnone⟩

end Sys2Proof.Machine

/-! What each command leaves, from its completion (`Committed`) or its stop. -/

namespace Sys2Proof.Machine

/-! ## OVR -/

/-- A completion leaves the block's side but its outputs as it was: STATUS too, until the command finishes. -/
theorem Committed.status {s : State} {i : Instr} {c : Commit} (hc : Committed s i c) : c.out.status = s.status := by
  cases hc with
  | frame base body stream hbase => rcases hbase with rfl | rfl <;> rfl
  | _ => rfl

/-- No completion changes OVR (R24). -/
theorem exec_ovr {i : Instr} {s t : State} (h : exec i s = .next t) : t.status.ovr = s.status.ovr := by
  rcases exec_next h with ⟨c, hc, rfl⟩ | ⟨e, -, rfl⟩
  · rw [State.finish_status, Status.succeeded_ovr, hc.status]
  · rfl

theorem engineTurn_ovr {w : Word} {s t : State} (h : engineTurn w s = .next t) : t.status.ovr = s.status.ovr := by
  rcases engineTurn_cases w s with ⟨i, -, hi⟩ | ⟨e, -, he⟩
  · exact exec_ovr (hi ▸ h)
  · rw [he, Host.Outcome.next.injEq] at h
    exact h ▸ rfl

theorem writeLoc_ovr (s : State) (l : Loc) (v : Word) : (s.writeLoc l v).status.ovr = s.status.ovr := by
  cases l with
  | reg r => cases r <;> rfl
  | entry b i => rfl

/-- A host turn keeps OVR, or is a write while busy, which sets it, or the reset line, which clears it (R24). -/
theorem hostTurn_ovr {s t : State} (h : hostTurn s = .next t) :
    t.status.ovr = s.status.ovr ∨
    (s.eng.isBusy = true ∧ t.status.ovr = true ∧ ∃ a size v rest, s.host = .write a size v :: rest) ∨
    (t.status.ovr = false ∧ ∃ rest, s.host = .reset :: rest) := by
  rcases hostTurn_next h with ⟨-, rfl⟩ | ⟨a, n, rest, v, u, -, hr, rfl⟩ | ⟨a, n, v, rest, u, hh, hw, rfl⟩ |
    ⟨rest, -, rfl⟩ | ⟨rest, hh, rfl⟩
  · exact .inl rfl
  · obtain ⟨l, -, -, ⟨-, rfl, -⟩ | ⟨-, rfl, -⟩⟩ := memRead_ok hr <;> exact .inl rfl
  · obtain ⟨l, -, -, ⟨hbusy, rfl⟩ | ⟨-, rfl⟩⟩ := memWrite_ok hw
    · exact .inr (.inl ⟨hbusy, rfl, a, n, v, rest, hh⟩)
    · exact .inl (writeLoc_ovr s l v)
  · exact .inl rfl
  · exact .inr (.inr ⟨rfl, rest, hh⟩)

/-- Settles O18: a completion keeps OVR by `engineTurn_ovr`, and `hostTurn_ovr` says which host turns change it. -/
theorem ovrMarksWritesWhileBusyUntilReset : Obligations.OvrMarksWritesWhileBusyUntilReset := by
  intro s t ht
  have hcases : t.status.ovr = s.status.ovr ∨
      (s.eng.isBusy = true ∧ t.status.ovr = true ∧ ∃ a size v rest, s.host = .write a size v :: rest) ∨
      (t.status.ovr = false ∧ ∃ rest, s.host = .reset :: rest) := by
    rcases step_cases s with ⟨w, -, -, hs⟩ | ⟨w, n, -, -, hs⟩ | ⟨-, hs⟩
    · exact .inl (engineTurn_ovr (hs ▸ ht))
    · exact hostTurn_ovr (s := { s with lag := n }) (hs ▸ ht)
    · exact hostTurn_ovr (hs ▸ ht)
  rcases hcases with h | ⟨hbusy, h, hwrite⟩ | ⟨h, hreset⟩
  · simp +contextual [h]
  · simp [h, hbusy, hwrite]
  · simp [h, hreset]

/-! ## CRC8 -/

/-- Settles O21: the run's CAPACITY check fails, or its window holds the bytes. -/
theorem crcCommand : Obligations.CrcCommand := by
  intro s poly init bytes
  rw [exec_eq_conclude, runOf, runCrc8]
  refine ⟨fun hcap => ?_, fun hcap hlen hbytes => ?_⟩
  · rw [lengthIn_of_lt hcap]
    exact endsInError_of_fail _ _ s
  · rw [lengthIn_of_le hcap, ok_bind, hlen, Store.window_of_holds hbytes, needAll_map_some, ok_bind]
    exact ⟨_, rfl, rfl, rfl, fillCache_poly poly s.cache⟩

/-! ## Frames check to 0 -/

theorem crcEntry_zero (p : Byte) : crcEntry p 0 = 0 := Function.iterate_fixed (by simp [crcShift]) 8

theorem crc8_append_singleton (xs : List Byte) (x p seed : Byte) :
    crc8 (xs ++ [x]) p seed = crcEntry p (crc8 xs p seed ^^^ x) := by
  rw [crc8, List.foldl_append]
  rfl

/-- A sequence followed by its CRC has CRC 0 (R123). -/
theorem crc8_self_check (xs : List Byte) (p seed : Byte) : crc8 (xs ++ [crc8 xs p seed]) p seed = 0 := by
  rw [crc8_append_singleton, BitVec.xor_self]
  exact crcEntry_zero p

/-- A sequence followed by its XOR has XOR 0 (R202). -/
theorem xorAll_self_check (xs : List Byte) : xorAll (xs ++ [xorAll xs]) = 0 := by
  rw [xorAll_append_singleton]
  exact BitVec.xor_self

/-- A frame command without error leaves its body and checksum in FB. -/
theorem exec_frame {i : Instr} {s t : State} (hv : s.cfg.Valid) (hi : writesFrame i = true)
    (h : exec i s = .next t) (hok : t.status.err = false) :
    ∃ body, Store.Holds t.mem.fb (body ++ [frameChecksum i body]) ∧ t.fbLen.toNat = body.length + 1 ∧
      8 ≤ body.length := by
  rcases exec_next h with ⟨c, hc, rfl⟩ | ⟨e, -, rfl⟩
  · cases hc with
    | frame base body stream hbase _ _ _ hlong hfit =>
      obtain ⟨hfb, -⟩ := hfit hv
      have hlen : (body ++ [frameChecksum i body]).length = body.length + 1 := by simp
      refine ⟨body, Store.holds_blit _ _, ?_, hlong⟩
      rw [← hlen]
      exact toNat_length (by omega)
    | symbols o _ _ hframe => simp [hi] at hframe
    | decoded d _ _ hframe => simp [hi] at hframe
    | _ => cases hi
  · cases hok

/-- Settles O42: the frame ends in its checksum by `exec_frame`, and a sequence with its checksum checks to 0. -/
theorem framesCarryTheirChecksum : Obligations.FramesCarryTheirChecksum := by
  intro s t i hv hi h hok
  obtain ⟨body, hholds, hlen, hlong⟩ := exec_frame hv hi h hok
  refine ⟨_, hholds, by simpa using hlen, by simpa using hlong, ?_⟩
  cases i with
  | encB df de => exact xorAll_self_check body
  | _ => exact crc8_self_check body _ _

/-! ## Each command's own outputs -/

/-- No entry at or beyond a byte output's length register changes (R190). -/
theorem sameFrom_bytes {xs : List Byte} (h : xs.length ≤ 262144) (m : Store 8) :
    Store.SameFrom (BitVec.ofNat 32 xs.length).toNat m (Store.blit xs m) := by
  rw [toNat_length h]
  exact Store.sameFrom_blit xs m

/-- No half at or beyond a pair output's length register changes (R65). -/
theorem sameFrom_halves {ps : List (Word × Word)} (h : ps.length ≤ 262144) (m : Store 32) :
    Store.SameFrom (2 * (BitVec.ofNat 32 ps.length).toNat) m (Store.blit (halves ps) m) := by
  rw [toNat_length h, ← length_halves]
  exact Store.sameFrom_blit _ m

theorem sameFrom_refl {width : Nat} (n : Nat) (m : Store width) : Store.SameFrom n m m := fun _ _ => rfl

/-- The registers and buffers command i may not write are the same in s and t, and no entry at or beyond a length
register of t changed (R22, R190). -/
structure WritesOnly (i : Instr) (s t : State) : Prop where
  rest : t = { s with
    result := t.result, sbLen := t.sbLen, pbLen := t.pbLen, fbLen := t.fbLen, qbLen := t.qbLen,
    mem := { t.mem with bb := s.mem.bb }, cache := t.cache, eng := t.eng, status := t.status }
  result : writesResult i = false → t.result = s.result
  symbols : writesSymbols i = false → t.sbLen = s.sbLen ∧ t.mem.sb = s.mem.sb
  frame : writesFrame i = false → t.fbLen = s.fbLen ∧ t.mem.fb = s.mem.fb
  pulses : i ≠ .pcmEnc → t.pbLen = s.pbLen ∧ t.mem.pb = s.mem.pb
  samples : i ≠ .fskGen → t.qbLen = s.qbLen ∧ t.mem.qb = s.mem.qb
  sbBeyond : Store.SameFrom t.sbLen.toNat s.mem.sb t.mem.sb
  fbBeyond : Store.SameFrom t.fbLen.toNat s.mem.fb t.mem.fb
  pbBeyond : Store.SameFrom (2 * t.pbLen.toNat) s.mem.pb t.mem.pb
  qbBeyond : Store.SameFrom (2 * t.qbLen.toNat) s.mem.qb t.mem.qb

/-- A command that ends in error writes no output (R273). -/
theorem writesOnly_fail (i : Instr) (s : State) (e : ErrCode) : WritesOnly i s (s.fail e) :=
  ⟨rfl, fun _ => rfl, fun _ => ⟨rfl, rfl⟩, fun _ => ⟨rfl, rfl⟩, fun _ => ⟨rfl, rfl⟩, fun _ => ⟨rfl, rfl⟩,
    sameFrom_refl _ _, sameFrom_refl _ _, sameFrom_refl _ _, sameFrom_refl _ _⟩

/-- A command that completes writes its own outputs. -/
theorem Committed.writesOnly {s : State} {i : Instr} {c : Commit} (hc : Committed s i c) (hv : s.cfg.Valid) :
    WritesOnly i s c.out := by
  cases hc with
  | crc poly init r =>
    exact ⟨rfl, nofun, fun _ => ⟨rfl, rfl⟩, fun _ => ⟨rfl, rfl⟩, fun _ => ⟨rfl, rfl⟩, fun _ => ⟨rfl, rfl⟩,
      sameFrom_refl _ _, sameFrom_refl _ _, sameFrom_refl _ _, sameFrom_refl _ _⟩
  | symbols o hr hs hf hfit =>
    exact ⟨rfl, fun _ => rfl, fun h => absurd (hs.symm.trans h) nofun, fun _ => ⟨rfl, rfl⟩, fun _ => ⟨rfl, rfl⟩,
      fun _ => ⟨rfl, rfl⟩, sameFrom_bytes (by omega) _, sameFrom_refl _ _, sameFrom_refl _ _, sameFrom_refl _ _⟩
  | decoded d hr hs hf hfit =>
    exact ⟨rfl, fun h => absurd (hr.symm.trans h) nofun, fun h => absurd (hs.symm.trans h) nofun,
      fun _ => ⟨rfl, rfl⟩, fun _ => ⟨rfl, rfl⟩, fun _ => ⟨rfl, rfl⟩,
      sameFrom_bytes (by rw [length_symbolsOf]; omega) _, sameFrom_refl _ _, sameFrom_refl _ _, sameFrom_refl _ _⟩
  | pulses ps hfit =>
    exact ⟨rfl, fun _ => rfl, fun _ => ⟨rfl, rfl⟩, fun _ => ⟨rfl, rfl⟩, fun h => absurd rfl h, fun _ => ⟨rfl, rfl⟩,
      sameFrom_refl _ _, sameFrom_refl _ _, sameFrom_halves (by omega) _, sameFrom_refl _ _⟩
  | samples zs hfit =>
    exact ⟨rfl, fun _ => rfl, fun _ => ⟨rfl, rfl⟩, fun _ => ⟨rfl, rfl⟩, fun _ => ⟨rfl, rfl⟩, fun h => absurd rfl h,
      sameFrom_refl _ _, sameFrom_refl _ _, sameFrom_refl _ _, sameFrom_halves (by omega) _⟩
  | frame base body stream hbase hr hs hf hlong hfit =>
    obtain ⟨hfb, hsb⟩ := hfit hv
    have hlen : (body ++ [frameChecksum i body]).length = body.length + 1 := by simp
    rcases hbase with rfl | rfl <;>
    exact ⟨rfl, fun _ => rfl, fun h => absurd (hs.symm.trans h) nofun, fun h => absurd (hf.symm.trans h) nofun,
      fun _ => ⟨rfl, rfl⟩, fun _ => ⟨rfl, rfl⟩, sameFrom_bytes (by rw [length_symbolsOf]; omega) _,
      sameFrom_bytes (by omega) _, sameFrom_refl _ _, sameFrom_refl _ _⟩

/-- Settles O51: a command fails or completes, and either writes only what `WritesOnly` allows. -/
theorem commandsWriteOnlyTheirOutputs : Obligations.CommandsWriteOnlyTheirOutputs := by
  intro i s t hv h
  rcases exec_next h with ⟨c, hc, rfl⟩ | ⟨e, -, rfl⟩
  · obtain ⟨hrest, hresult, hsymbols, hframe, hpulses, hsamples, hsb, hfb, hpb, hqb⟩ := hc.writesOnly hv
    refine ⟨congrArg (State.finish c.desync) hrest, ?_, rfl, hresult, hsymbols, hframe, hpulses, hsamples, hsb, hfb,
      hpb, hqb⟩
    rw [State.finish_status, Status.succeeded_ovr, hc.status]
  · obtain ⟨hrest, hresult, hsymbols, hframe, hpulses, hsamples, hsb, hfb, hpb, hqb⟩ := writesOnly_fail i s e
    exact ⟨hrest, rfl, rfl, hresult, hsymbols, hframe, hpulses, hsamples, hsb, hfb, hpb, hqb⟩

end Sys2Proof.Machine

/-! UNINIT where a command reads an unwritten entry, and at the first one (R39, R284). -/

namespace Sys2Proof.Machine

/-! ## Whole windows -/

/-- A command whose run stops in a fault ends in it. -/
theorem exec_of_fault {i : Instr} {s : State} {f : Fault} (h : runOf i s = .error (.fault f)) :
    exec i s = .fault f := by
  rw [exec_eq_conclude, h, conclude_stop]

/-- SB[0..SB_LEN) with a first unwritten entry. -/
theorem symbolInput_unwritten {s : State} {k : Nat} (hcap : s.sbLen.toNat ≤ s.cfg.sbCap) (hk : k < s.sbLen.toNat)
    (hnone : Store.get k s.mem.sb = none) (hbefore : ∀ j < k, Store.get j s.mem.sb ≠ none) :
    symbolInput s = .error (.fault (.uninit .sb k)) := by
  rw [symbolInput, symbolWindow_of_le hcap, ok_bind, needAll_window_first .sb hk hnone hbefore, error_bind]

/-- PB[0..m) with a first unwritten half. -/
theorem pulsePairs_unwritten {s : State} {m k : Nat} (hk : k < 2 * m) (hnone : Store.get k s.mem.pb = none)
    (hbefore : ∀ j < k, Store.get j s.mem.pb ≠ none) : pulsePairs s m = .error (.fault (.uninit .pb k)) := by
  rw [pulsePairs, needAll_window_first .pb hk hnone hbefore, error_bind]

theorem exec_crc8_unwritten {s : State} {k : Nat} (hcap : s.bbLen.toNat ≤ s.cfg.bbCap) (hk : k < s.bbLen.toNat)
    (hnone : Store.get k s.mem.bb = none) (hbefore : ∀ j < k, Store.get j s.mem.bb ≠ none) (poly init : Byte) :
    exec (.crc8 poly init) s = .fault (.uninit .bb k) := by
  refine exec_of_fault ?_
  rw [runOf, runCrc8, lengthIn_of_le hcap, ok_bind, needAll_window_first .bb hk hnone hbefore, error_bind]

/-- The three encoders read all of SB[0..SB_LEN) first. -/
theorem exec_encoder_unwritten {i : Instr} {s : State} {f : Fault} (hi : i = .manEnc ∨ i = .dmanEnc ∨ i = .pcmEnc)
    (h : symbolInput s = .error (.fault f)) : exec i s = .fault f := by
  refine exec_of_fault ?_
  rcases hi with rfl | rfl | rfl
  · rw [runOf, runManEnc, h, error_bind]
  · rw [runOf, runDmanEnc, h, error_bind]
  · rw [runOf, runPcmEnc, h, error_bind]

theorem exec_fit_unwritten {s : State} {k : Nat} (hcap : s.sbLen.toNat ≤ s.cfg.sbCap)
    (hfit : s.fitLen.toNat ≤ s.cfg.sbCap) (hk : k < min s.sbLen.toNat s.fitLen.toNat)
    (hnone : Store.get k s.mem.sb = none) (hbefore : ∀ j < k, Store.get j s.mem.sb ≠ none) (ps : Bool) :
    exec (.fit ps) s = .fault (.uninit .sb k) := by
  refine exec_of_fault ?_
  rw [runOf, runFit, lengthIn_of_le hcap, ok_bind, lengthIn_of_le hfit, ok_bind,
    needAll_window_first .sb hk hnone hbefore, error_bind]

theorem exec_pulses_unwritten {s : State} {f : Fault} (hcap : s.pbLen.toNat ≤ s.cfg.pbCap)
    (h : pulsePairs s s.pbLen.toNat = .error (.fault f)) :
    exec .pcmDec s = .fault f ∧ (s.fsHz ≠ 0 → exec .fskGen s = .fault f) := by
  refine ⟨exec_of_fault ?_, fun hfs => exec_of_fault ?_⟩
  · rw [runOf, runPcmDec, lengthIn_of_le hcap, ok_bind, h, error_bind]
  · have hpos : decide (s.fsHz.toNat ≠ 0) = true := by simpa [← BitVec.toNat_inj] using hfs
    rw [runOf, runFskGen, lengthIn_of_le hcap, ok_bind, hpos, check_true, ok_bind, h, error_bind]

/-- ENC_AX with the custom policy, every check passed, reads the first min(BB_LEN, L - 9) entries of BB (R216). -/
theorem exec_encAx_unwritten {s : State} {l k : Nat} (hcap : s.bbLen.toNat ≤ s.cfg.bbCap)
    (hk : k < min s.bbLen.toNat (l - 9)) (hfb : l ≤ s.cfg.fbCap) (hsb : 32 + 16 * l ≤ s.cfg.sbCap)
    (hp : f64Finite (pressureWord s) = true) (hnone : Store.get k s.mem.bb = none)
    (hbefore : ∀ j < k, Store.get j s.mem.bb ≠ none) (df de : Bool) :
    exec (.encAx l .custom df de) s = .fault (.uninit .bb k) := by
  have hlist : s.bbLen.toNat ≠ 0 := by omega
  have hlong : 9 ≤ l := by omega
  have hneed := needAll_window_first .bb hk hnone hbefore
  refine exec_of_fault ?_
  simp only [runOf, runEncAx, hcap, hlong, hlist, or_true, ne_eq, not_false_eq_true, decide_true, check_true, ok_bind,
    pressure_of_finite hp, roomFor_of_le hfb, roomFor_of_le hsb, padBytes, hneed, error_bind]

/-! ## The pair behind a coded stream -/

theorem Store.window_append {width : Nat} (m : Store width) (i a b : Nat) :
    Store.window m i (a + b) = Store.window m i a ++ Store.window m (i + a) b := by
  simp only [Store.window_eq, ← List.map_append, List.range'_append_1]

theorem Store.window_drop {width : Nat} (m : Store width) (i n o : Nat) :
    (Store.window m i n).drop o = Store.window m (i + o) (n - o) := by
  simp only [Store.window_eq, ← List.map_drop, List.drop_range', Nat.mul_one]

/-- The window of a stretch that holds xs from entry i on. -/
theorem Store.window_of_get {width : Nat} {m : Store width} {i : Nat} {xs : List (BitVec width)}
    (h : ∀ j < xs.length, Store.get (i + j) m = xs[j]?) : Store.window m i xs.length = xs.map some := by
  rw [Store.window_eq]
  apply List.ext_getElem?
  intro j
  by_cases hj : j < xs.length
  · simp [hj, h j hj]
  · simp [hj]

/-- SB from DEC_OFF on, as a decoder reads it: the coded stream, the pair at q, and what follows. -/
theorem window_behind_stream {m : Store 8} {n o q : Nat} {xs : List Byte} (hq : q = o + xs.length) (hn : q + 2 ≤ n)
    (h : ∀ j < xs.length, Store.get (o + j) m = xs[j]?) :
    (Store.window m 0 n).drop o =
      xs.map some ++ Store.get q m :: Store.get (q + 1) m :: Store.window m (q + 2) (n - (q + 2)) := by
  have hsplit : n - o = xs.length + (2 + (n - (q + 2))) := by omega
  rw [Store.window_drop, Nat.zero_add, hsplit, Store.window_append, Store.window_of_get h, ← hq,
    Store.window_append]
  congr 1
  rw [Store.window_eq m q 2]
  rfl

/-- A pair with an unwritten entry is UNINIT at its first one. -/
theorem pairBits_unwritten {m : Store 8} {q k : Nat} (hnone : Store.get k m = none)
    (hk : k = q ∨ (k = q + 1 ∧ Store.get q m ≠ none)) :
    pairBits q (Store.get q m) (Store.get (q + 1) m) = .error (.fault (.uninit .sb k)) := by
  rcases hk with rfl | ⟨rfl, hq⟩
  · rw [hnone, pairBits_unwritten_first]
  · obtain ⟨x, hx⟩ := Option.ne_none_iff_exists'.1 hq
    rw [hx, hnone, pairBits_unwritten_second]

section
variable {bits : List Bool} {bound : Option Nat} {o : Nat} {a b : Option Byte} {rest : List (Option Byte)} {e : Stop}

/-- The bound left behind the stream allows one more bit. -/
theorem boundLeft_ne_zero (hb : ∀ n, bound = some n → bits.length < n) :
    bound.map (· - bits.length) ≠ some 0 := by
  cases bound with
  | none => nofun
  | some n =>
    have := hb n rfl
    simp only [Option.map_some, ne_eq, Option.some.injEq]
    omega

theorem mdecLoop_stop_behind (hb : ∀ n, bound = some n → bits.length < n)
    (h : pairBits (o + 2 * bits.length) a b = .error e) :
    mdecLoop bound o ((symbolsOf (man bits)).map some ++ a :: b :: rest) = .error e := by
  rw [mdecLoop_man bits _ o bound fun n hn => (hb n hn).le]
  simp only [mdecLoop, if_neg (boundLeft_ne_zero hb), h]
  rfl

theorem dmdecLoop_stop_behind (hb : ∀ n, bound = some n → bits.length < n)
    (h : pairBits (o + 2 * bits.length) a b = .error e) :
    dmdecLoop false bound o ((symbolsOf (dmenc bits)).map some ++ a :: b :: rest) = .error e := by
  obtain ⟨f, hloop⟩ := dmdecLoop_dmencFrom bits (a :: b :: rest) o true bound fun n hn => (hb n hn).le
  rw [dmenc, show false = !true from rfl, hloop]
  simp only [dmdecLoop, if_neg (boundLeft_ne_zero hb), h]
  rfl

/-- Behind a stream the second loop of dmdec meets the pair; behind none the phase search does. -/
theorem dmdec_stop_behind {ws : List (Option Byte)}
    (hws : ws.drop o = (symbolsOf (dmenc bits)).map some ++ a :: b :: rest)
    (hb : ∀ n, bound = some n → bits.length < n) (h : pairBits (o + 2 * bits.length) a b = .error e) :
    dmdec ws o bound = .error e := by
  rw [dmdec, hws]
  by_cases hbits : bits = []
  · subst hbits
    have hphase : dmPhase o (a :: b :: rest) = .error e := by
      rw [List.length_nil, Nat.mul_zero, Nat.add_zero] at h
      simp only [dmPhase, h]
    rw [show (symbolsOf (dmenc [])).map some ++ a :: b :: rest = a :: b :: rest from rfl, hphase, error_bind]
  · rw [dmPhase_dmenc hbits, ok_bind]
    exact dmdecLoop_stop_behind hb h

end

/-- A decoder whose input is within SB ends as its decoding does. -/
theorem exec_decoder_fault {i : Instr} {be : Bool} {s : State} {f : Fault} {bits stream : List Bool} {a b : Option Byte}
    {rest : List (Option Byte)}
    (hi : (i = .manDec be ∧ stream = man bits) ∨ (i = .dmanDec be ∧ stream = dmenc bits))
    (hcap : s.sbLen.toNat ≤ s.cfg.sbCap)
    (hws : (Store.window s.mem.sb 0 s.sbLen.toNat).drop s.decOff.toNat =
      (symbolsOf stream).map some ++ a :: b :: rest)
    (hb : be = true → bits.length < s.decBound.toNat)
    (h : pairBits (s.decOff.toNat + 2 * bits.length) a b = .error (.fault f)) : exec i s = .fault f := by
  have hbound : ∀ n, decodeBound be s = some n → bits.length < n := by
    intro n hn
    cases be with
    | false => cases hn
    | true => exact Option.some.inj hn ▸ hb rfl
  refine exec_of_fault ?_
  rcases hi with ⟨rfl, rfl⟩ | ⟨rfl, rfl⟩
  · rw [runOf, runManDec, symbolWindow_of_le hcap, ok_bind, mdec, hws, mdecLoop_stop_behind hbound h, error_bind]
  · rw [runOf, runDmanDec, symbolWindow_of_le hcap, ok_bind, dmdec_stop_behind hws hbound h, error_bind]

/-- Settles O54: the first unwritten entry of a window by `needAll_window_first`, that of the pair behind a coded
stream by `window_behind_stream` and `pairBits_unwritten`. -/
theorem unwrittenInputIsUninit : Obligations.UnwrittenInputIsUninit := by
  intro s k
  refine ⟨fun hcap hk hnone hbefore => exec_crc8_unwritten hcap hk hnone hbefore,
    fun hcap hk hnone hbefore => ⟨fun i hi => ?_, fun hfit hkfit => ?_⟩, fun hcap hk hnone hbefore => ?_, ?_,
    fun l df de hcap hk hfb hsb hp hnone hbefore => exec_encAx_unwritten hcap hk hfb hsb hp hnone hbefore df de⟩
  · exact exec_encoder_unwritten hi (symbolInput_unwritten hcap hk hnone hbefore)
  · exact exec_fit_unwritten hcap hfit (by omega) hnone hbefore
  · exact exec_pulses_unwritten hcap (pulsePairs_unwritten hk hnone hbefore)
  · intro be bits stream q i hi hq hlen hcap hstream hb hnone hk
    have hcode : (symbolsOf stream).length = 2 * bits.length := by
      rcases hi with ⟨-, rfl⟩ | ⟨-, rfl⟩ <;> simp
    rw [← length_symbolsOf stream] at hstream
    have hws := window_behind_stream (by rw [hcode, hq]) hlen hstream
    exact exec_decoder_fault hi hcap hws hb (hq ▸ pairBits_unwritten hnone hk)

end Sys2Proof.Machine

/-! Bus errors, repeated accesses and the entries of the buffers (R62, R65, R71), and the host's turns (R102, R104). -/

namespace Sys2Proof.Machine

/-! ## Bus errors -/

/-- The one located access that is no read is that of CMD, at address 0 (R62). -/
theorem readable_eq_false_iff {c : Config} {a : Addr} {size : Nat} {l : Loc} (h : locate c a size = some l) :
    l.readable = false ↔ a.toNat = 0 := by
  obtain ⟨-, -, haddr⟩ := locate_address h
  cases l with
  | reg r => cases r <;> simp [haddr, Loc.readable, Reg.offset]
  | entry b i =>
    obtain ⟨haddr, -⟩ := haddr
    cases b <;> simp [haddr, Loc.readable, Buffer.base]

/-- The located accesses that are no writes are those of the read-only addresses (R62). -/
theorem writable_eq_false_iff {c : Config} (hv : c.Valid) {a : Addr} {size : Nat} {l : Loc}
    (h : locate c a size = some l) : l.writable = false ↔ ReadOnly a.toNat := by
  obtain ⟨-, -, haddr⟩ := locate_address h
  cases l with
  | reg r => cases r <;> simp [haddr, Loc.writable, ReadOnly, Reg.offset]
  | entry b i =>
    obtain ⟨haddr, hi⟩ := haddr
    rw [haddr]
    cases b <;> simp only [Loc.writable, Bool.true_eq_false, true_iff, false_iff, ReadOnly, Buffer.base,
      Buffer.words] at hi ⊢ <;> omega

/-- A read that answers no value is a bus error: the access reaches no location, or not a readable one. -/
theorem memRead_error_iff {a : Addr} {size : Nat} {s : State} {f : Fault} :
    memRead a size s = .error f ↔
      f = .busError a size ∧ ∀ l, locate s.cfg a size = some l → l.readable = false := by
  unfold memRead
  cases locate s.cfg a size with
  | none => simp [eq_comm (a := f)]
  | some l =>
    cases hr : l.readable with
    | false => simp [hr, eq_comm (a := f)]
    | true =>
      simp only [if_true, Option.some.injEq, forall_eq', hr]
      split_ifs
      · simp
      · cases s.readLoc l <;> simp

/-- A write that answers no state is a bus error: the access reaches no location, or not a writable one. -/
theorem memWrite_error_iff {a : Addr} {size : Nat} {v : Word} {s : State} {f : Fault} :
    memWrite a size v s = .error f ↔
      f = .busError a size ∧ ∀ l, locate s.cfg a size = some l → l.writable = false := by
  unfold memWrite
  cases locate s.cfg a size with
  | none => simp [eq_comm (a := f)]
  | some l =>
    cases hw : l.writable with
    | false => simp [hw, eq_comm (a := f)]
    | true =>
      simp only [if_true, Option.some.injEq, forall_eq', hw]
      split_ifs <;> simp

/-- Where the location an access reaches has property P exactly when Q, the access reaches none without P exactly
when it reaches none at all or Q. -/
theorem forall_locate_iff {c : Config} {a : Addr} {size : Nat} {P : Loc → Prop} {Q : Prop}
    (h : ∀ l, locate c a size = some l → (P l ↔ Q)) :
    (∀ l, locate c a size = some l → P l) ↔ (locate c a size = none ∨ Q) := by
  cases hl : locate c a size with
  | none => simp
  | some l => simpa using h l hl

/-- Settles O11: an access errs where it reaches no location it may use, and those are R62's by the address map. -/
theorem busErrorExactlyAsListed : Obligations.BusErrorExactlyAsListed := by
  intro s a size v hv
  refine ⟨?_, ?_, fun f hf => ⟨(memRead_error_iff.1 hf).1, fun rest hh => ?_⟩,
    fun f hf => ⟨(memWrite_error_iff.1 hf).1, fun rest hh => ?_⟩⟩
  · rw [memRead_error_iff, and_iff_right rfl, forall_locate_iff fun l hl => readable_eq_false_iff hl,
      locate_eq_none_iff hv, or_assoc, or_assoc]
  · rw [memWrite_error_iff, and_iff_right rfl, forall_locate_iff fun l hl => writable_eq_false_iff hv hl,
      locate_eq_none_iff hv, or_assoc, or_assoc]
  · simp only [hostTurn, hh, hf]
  · simp only [hostTurn, hh, hf]

/-! ## The entries of the buffers -/

/-- Settles O13: the write is `Memory.writeEntry` at the window's address, and `Memory.readEntry_writeEntry` says what
every window word reads after it. -/
theorem bufferEntriesReadBack : Obligations.BufferEntriesReadBack := by
  intro s b i v hv hidle hb hi
  have hw : (Loc.entry b i).writable = true := by rcases hb with rfl | rfl | rfl <;> rfl
  have hread := Memory.readEntry_writeEntry s.mem b
  have hlow : (v.extractLsb' 0 8).setWidth 32 = v &&& 0xFF := setWidth_extractLsb'_eq_and v 8
  refine ⟨s.writeLoc (.entry b i) v, memWrite_of_idle v (locate_windowAddr hv hi) hw hidle,
    memRead_entry (s := s.writeLoc (.entry b i) v) hv hidle hi ?_, rfl,
    fun b' j hne => (hread b' i j v hw).trans (if_neg hne)⟩
  rw [← hlow]
  exact (hread b i i v hw).trans (if_pos ⟨rfl, rfl⟩)

/-! ## Repeated accesses -/

theorem Memory.writeEntry_writeEntry (m : Memory) (b : Buffer) (i : Nat) (v : Word) :
    (m.writeEntry b i v).writeEntry b i v = m.writeEntry b i v := by
  cases b <;> simp [Memory.writeEntry, Store.set_set]

/-- A write to any location but CMD, repeated, changes nothing, and it leaves the map and ENG as they were (R71). -/
theorem writeLoc_repeated {l : Loc} (hl : l ≠ .reg .CMD) (v : Word) (s : State) :
    (s.writeLoc l v).writeLoc l v = s.writeLoc l v ∧ (s.writeLoc l v).cfg = s.cfg ∧
      (s.writeLoc l v).eng = s.eng := by
  cases l with
  | reg r =>
    cases r with
    | CMD => exact absurd rfl hl
    | _ => exact ⟨rfl, rfl, rfl⟩
  | entry b i =>
    refine ⟨?_, rfl, rfl⟩
    simp only [State.writeLoc, Memory.writeEntry_writeEntry]

/-- An access at another address than 0 does not reach CMD (R22). -/
theorem locate_ne_cmd {c : Config} {a : Addr} {size : Nat} {l : Loc} (h : locate c a size = some l)
    (ha : a ≠ 0x000000) : l ≠ .reg .CMD := by
  rintro rfl
  obtain ⟨-, -, haddr⟩ := locate_address h
  exact ha (BitVec.eq_of_toNat_eq haddr)

/-- A write while busy that gets no bus error is lost, with OVR set (R307). -/
theorem memWrite_of_busy {s : State} {a : Addr} {size : Nat} {l : Loc} (v : Word) (hl : locate s.cfg a size = some l)
    (hw : l.writable = true) (hbusy : s.eng.isBusy = true) :
    memWrite a size v s = .ok { s with status := s.status.overrun } := by
  simp only [memWrite, hl, hw, hbusy, if_true]

/-- A write to CMD, at address 0, while idle accepts the word (R23). -/
theorem memWrite_cmd {s : State} (hidle : s.eng = .idle) (w : Word) :
    memWrite 0x000000 4 w s = .ok (s.accept w) :=
  memWrite_of_idle w (locate_reg s.cfg .CMD) rfl hidle

theorem isBusy_eq_false_iff {e : Engine} : e.isBusy = false ↔ e = .idle := by
  cases e <;> simp [Engine.isBusy]

/-- Settles O17: reads by `memRead_ok`; a write while busy sets OVR, which a second one finds set, and one while idle
is `writeLoc_repeated`. -/
theorem readsAndRepeatedWritesHaveNoSideEffect : Obligations.ReadsAndRepeatedWritesHaveNoSideEffect := by
  refine ⟨fun s t a size x h => ?_, fun s t a size v ha h => ?_,
    fun s v hidle => ⟨s.accept v, memWrite_cmd hidle v, rfl⟩⟩
  · obtain ⟨l, -, -, ⟨-, rfl, -⟩ | ⟨-, rfl, -⟩⟩ := memRead_ok h <;> rfl
  · obtain ⟨l, hl, hw, ⟨hbusy, rfl⟩ | ⟨hidle, rfl⟩⟩ := memWrite_ok h
    · exact memWrite_of_busy v hl hw hbusy
    · obtain ⟨hsame, hcfg, heng⟩ := writeLoc_repeated (locate_ne_cmd hl ha) v s
      obtain ⟨rfl, -⟩ := locate_address hl
      rw [memWrite_of_idle v (hcfg ▸ hl) hw (heng.trans (isBusy_eq_false_iff.1 hidle)), hsame]

/-! ## PCM_DEC -/

/-- A pair's widths as numbers. -/
def pairWidths (ps : List (Word × Word)) : List (Nat × Nat) := ps.map fun p => (p.1.toNat, p.2.toNat)

theorem totalWidth_pairWidths (ps : List (Word × Word)) :
    totalWidth (pairWidths ps) = (ps.map fun p => p.1.toNat + p.2.toNat).sum := by
  rw [totalWidth, pairWidths, List.map_map]
  rfl

/-- The symbols of pcmdec: for each pair `pulse` codes 0x01, then `gap` codes 0x00 (R9, R172). -/
theorem symbolsOf_pcmdec_pairWidths (ps : List (Word × Word)) :
    symbolsOf (pcmdec (pairWidths ps)) =
      ps.flatMap fun p => List.replicate p.1.toNat 0x01 ++ List.replicate p.2.toNat 0x00 := by
  simp only [symbolsOf, pcmdec, pairWidths, List.map_flatMap, List.flatMap_map, List.map_append, List.map_replicate]
  rfl

/-- PCM_DEC whose pairs PB holds: it has only the room in SB left to check (R173). -/
theorem runPcmDec_of_holds {s : State} {ps : List (Word × Word)} (hcap : s.pbLen.toNat ≤ s.cfg.pbCap)
    (hlen : s.pbLen.toNat = ps.length) (hholds : Store.Holds s.mem.pb (halves ps)) :
    runPcmDec s = roomFor (totalWidth (pairWidths ps)) s.cfg.sbCap >>= fun _ =>
      .ok { out := s.putSymbols (symbolsOf (pcmdec (pairWidths ps))), desync := false } := by
  rw [runPcmDec, lengthIn_of_le hcap, ok_bind, hlen, pulsePairs_of_holds hholds, ok_bind]
  rfl

/-- Settles O32: PB_LEN or the exact sum of widths fails its check, or the run commits the expanded runs. -/
theorem pcmDecodeToSymbols : Obligations.PcmDecodeToSymbols := by
  refine ⟨fun ps => ⟨length_halves ps, fun k a b => getElem_halves⟩, fun s ps hv => ?_⟩
  simp only [exec_eq_conclude, runOf, ← totalWidth_pairWidths, ← symbolsOf_pcmdec_pairWidths]
  refine ⟨fun hcap => ?_, fun hcap hlen hholds hlong => ?_, fun hcap hlen hholds hfit => ?_⟩
  · rw [runPcmDec, lengthIn_of_lt hcap]
    rfl
  · rw [runPcmDec_of_holds hcap hlen hholds, roomFor_of_lt hlong]
    rfl
  · have hwidth : (symbolsOf (pcmdec (pairWidths ps))).length = totalWidth (pairWidths ps) := by simp
    have hreg : (BitVec.ofNat 32 (symbolsOf (pcmdec (pairWidths ps))).length).toNat = totalWidth (pairWidths ps) := by
      rw [hwidth]
      exact toNat_length (by omega)
    rw [runPcmDec_of_holds hcap hlen hholds, roomFor_of_le hfit]
    exact ⟨_, rfl, rfl, hreg, Store.holds_blit _ _, sameFrom_bytes (by omega) _⟩

/-! ## The host's turns -/

theorem memRead_status (s : State) : memRead 0x000004 4 s = .ok (s.statusReg, s) :=
  memRead_of_readLoc (locate_reg s.cfg .STATUS) rfl (.inr rfl) rfl

/-- BUSY is bit 0 of STATUS (R24). -/
theorem statusReg_busy (s : State) : s.statusReg.getLsbD 0 = s.eng.isBusy := by
  rw [State.statusReg, getLsbD_statusWord _ _ (by decide)]
  simp

/-- The host's turn on a write that gets no bus error (R61). -/
theorem hostTurn_write {s t : State} {a : Addr} {size : Nat} {v : Word} {rest : List HostOp}
    (h : s.host = .write a size v :: rest) (hw : memWrite a size v s = .ok t) :
    hostTurn s = .next { t with host := rest } := by
  simp only [hostTurn, h, hw]

/-- The host's turn on a WAIT: one recorded poll of STATUS (R104). -/
theorem hostTurn_wait {s : State} {rest : List HostOp} (h : s.host = .wait :: rest) :
    hostTurn s = .next { s with
      host := if s.statusReg.getLsbD 0 then .wait :: rest else rest, reads := s.reads ++ [s.statusReg] } := by
  simp only [hostTurn, h, statusReg_busy]

/-- Settles O7: the step by `step_idle` and `step_waiting`, each host turn by its operation. -/
theorem hostMovesWhileTheEngineWaits : Obligations.HostMovesWhileTheEngineWaits := by
  refine ⟨fun s => step_idle, fun s w n => step_waiting, fun s t a size v rest hh hr => ?_,
    fun s t a size v rest hh hw => ?_, fun s t x rest hh hr => ?_, fun s hh => ?_, fun s w rest hidle hh => ?_⟩
  · simp only [hostTurn, hh, hr]
  · exact hostTurn_write hh hw
  · rw [memRead_status, Except.ok.injEq, Prod.mk.injEq] at hr
    obtain ⟨rfl, rfl⟩ := hr
    exact hostTurn_wait hh
  · simp only [hostTurn, hh]
  · exact ⟨_, (step_idle hidle).trans (hostTurn_write hh (memWrite_cmd hidle w)), rfl, rfl, rfl, rfl⟩

end Sys2Proof.Machine

/-! The decoder and the encoder (R90 to R95, R103): each operand field in its place, the row a word matches, and the two
round trips. -/

namespace Sys2Proof.Machine

/-! ## Operand fields in their places -/

/-- A field of n bits, put back in its place, is the word under the field's mask. -/
theorem extractLsb'_in_place (w : Word) (start n : Nat) :
    (w.extractLsb' start n).setWidth 32 <<< start = w &&& (BitVec.allOnes n).setWidth 32 <<< start := by
  refine BitVec.eq_of_getLsbD_eq fun k hk => ?_
  simp only [BitVec.getLsbD_shiftLeft, BitVec.getLsbD_setWidth, BitVec.getLsbD_extractLsb', BitVec.getLsbD_and,
    BitVec.getLsbD_allOnes]
  by_cases h : k < start
  · simp [h]
  · simp [h, hk, show start + (k - start) = k by omega, show k - start < 32 by omega, Bool.and_comm]

theorem faField_in_place (w : Word) : (faField w).setWidth 32 <<< 8 = w &&& 0x0000FF00#32 :=
  extractLsb'_in_place w 8 8

theorem fbField_in_place (w : Word) : (fbField w).setWidth 32 <<< 16 = w &&& 0x00FF0000#32 :=
  extractLsb'_in_place w 16 8

theorem polField_in_place (w : Word) : (polField w).setWidth 32 <<< 16 = w &&& 0x00030000#32 :=
  extractLsb'_in_place w 16 2

theorem fm0_in_place (w : Word) : fmBit (fm0 w) 24 = w &&& 0x01000000#32 := (BitVec.and_twoPow w 24).symm

theorem fm1_in_place (w : Word) : fmBit (fm1 w) 25 = w &&& 0x02000000#32 := (BitVec.and_twoPow w 25).symm

@[simp] theorem policyCode_policyOf (p : BitVec 2) : policyCode (policyOf p) = p := by revert p; decide

@[simp] theorem policyOf_policyCode (pol : PadPolicy) : policyOf (policyCode pol) = pol := by cases pol <;> decide

/-! ## The row a word matches -/

/-- Every mask covers OP, so a word has the OP of the row it matches (R93). -/
theorem opField_of_match {r : OpcodeRow} (hr : r ∈ opcodeRows) {w : Word} (h : w &&& r.mask = r.pattern) :
    opField w = opField r.pattern := by
  have hmask : ∀ r ∈ opcodeRows, opField r.mask = BitVec.allOnes 8 := by decide
  have hand : opField (w &&& r.mask) = opField w &&& opField r.mask := BitVec.extractLsb'_and
  rw [h, hmask r hr, BitVec.and_allOnes] at hand
  exact hand.symm

/-- No word matches two rows, whose OPs differ (R93). -/
theorem row_unique {r q : OpcodeRow} (hr : r ∈ opcodeRows) (hq : q ∈ opcodeRows) {w : Word}
    (hwr : w &&& r.mask = r.pattern) (hwq : w &&& q.mask = q.pattern) : r = q := by
  have hop : ∀ r ∈ opcodeRows, ∀ q ∈ opcodeRows, opField r.pattern = opField q.pattern → r = q := by decide
  exact hop r hr q hq ((opField_of_match hr hwr).symm.trans (opField_of_match hq hwq))

theorem rowOf_eq_none_iff {w : Word} : rowOf w = none ↔ ∀ r ∈ opcodeRows, w &&& r.mask ≠ r.pattern := by
  simp only [rowOf, List.find?_eq_none, beq_iff_eq, ne_eq]

theorem rowOf_eq_some_iff {w : Word} {r : OpcodeRow} :
    rowOf w = some r ↔ r ∈ opcodeRows ∧ w &&& r.mask = r.pattern := by
  have hfound : ∀ q, rowOf w = some q → q ∈ opcodeRows ∧ w &&& q.mask = q.pattern := fun q h =>
    ⟨List.mem_of_find?_eq_some h, by simpa using List.find?_some h⟩
  refine ⟨hfound r, fun ⟨hr, hw⟩ => ?_⟩
  cases h : rowOf w with
  | none => exact absurd hw (rowOf_eq_none_iff.1 h r hr)
  | some q =>
    obtain ⟨hq, hwq⟩ := hfound q h
    rw [row_unique hr hq hw hwq]

/-- A word decodes to exactly the command of the row it matches (R94). -/
theorem decode_ok_iff {w : Word} {i : Instr} :
    decode w = .ok i ↔ ∃ r ∈ opcodeRows, w &&& r.mask = r.pattern ∧ operandsOf r.op w = i := by
  have hrow : decode w = .ok i ↔ ∃ r, rowOf w = some r ∧ operandsOf r.op w = i := by
    unfold decode
    cases rowOf w with
    | none => dsimp only; split_ifs <;> simp
    | some r => simp
  simp only [hrow, rowOf_eq_some_iff, and_assoc]

theorem decode_error_of_no_row {w : Word} (h : ∀ r ∈ opcodeRows, w &&& r.mask ≠ r.pattern) :
    ∃ e, decode w = .error e := by
  cases hd : decode w with
  | error e => exact ⟨e, rfl⟩
  | ok i =>
    obtain ⟨r, hr, hw, -⟩ := decode_ok_iff.1 hd
    exact absurd hw (h r hr)

/-- Settles O3: the matching row is the one the decoder takes, by `decode_ok_iff`. -/
theorem decodingSelectsTheMatchingRow : Obligations.DecodingSelectsTheMatchingRow := fun _ =>
  ⟨fun r hr hw => decode_ok_iff.2 ⟨r, hr, hw, rfl⟩, decode_error_of_no_row⟩

/-! ## The round trips -/

/-- The word of a row's command, its operands read from any w: the row's pattern, and w outside the row's mask. So the
operand fields of a row are exactly the bits its mask leaves (R91, R93). -/
theorem encode_operandsOf {r : OpcodeRow} (hr : r ∈ opcodeRows) (w : Word) :
    encode (operandsOf r.op w) = r.pattern ||| w &&& ~~~r.mask := by
  simp only [opcodeRows, List.mem_cons, List.not_mem_nil, or_false] at hr
  rcases hr with rfl | rfl | rfl | rfl | rfl | rfl | rfl | rfl | rfl | rfl | rfl | rfl | rfl <;>
    simp [operandsOf, encode, faField_in_place, fbField_in_place, polField_in_place, fm0_in_place, fm1_in_place,
      BitVec.or_assoc, ← BitVec.and_or_distrib_left]

theorem wellFormed_operandsOf (op : Opcode) (w : Word) : (operandsOf op w).wellFormed = true := by
  cases op with
  | ENC_AX => exact decide_eq_true (Nat.le_of_lt_succ (faField w).isLt)
  | _ => rfl

/-- Settles O2: the row's mask fixes w outside the operand fields, and `encode_operandsOf` puts those back. -/
theorem decodedWordIsItsEncoding : Obligations.DecodedWordIsItsEncoding := by
  intro w i h
  obtain ⟨r, hr, hw, rfl⟩ := decode_ok_iff.1 h
  refine ⟨wellFormed_operandsOf r.op w, ?_⟩
  rw [encode_operandsOf hr, ← hw, ← BitVec.and_or_distrib_left, BitVec.or_not_self,
    BitVec.and_allOnes]

/-- A command that any word decodes to is decoded from its own word. -/
theorem decode_encode_of_decode {w : Word} {i : Instr} (h : decode w = .ok i) : decode (encode i) = .ok i := by
  rw [(decodedWordIsItsEncoding w i h).2, h]

/-! ## The layout of a word (R90, R91) -/

/-- A word by its bytes FM, FB, FA and OP (R90). -/
def wordOfBytes (fm fb fa op : Byte) : Word := fm ++ fb ++ fa ++ op

/-- FM of a word with two modifier bits (R91). -/
def modifierByte (m0 m1 : Bool) : Byte := 0#6 ++ BitVec.ofBool m1 ++ BitVec.ofBool m0

section
variable (fm fb fa op : Byte)

@[simp] theorem faField_wordOfBytes : faField (wordOfBytes fm fb fa op) = fa :=
  (BitVec.extractLsb'_append_eq_of_le (by decide)).trans BitVec.extractLsb'_append_eq_right

@[simp] theorem fbField_wordOfBytes : fbField (wordOfBytes fm fb fa op) = fb :=
  (BitVec.extractLsb'_append_eq_of_le (by decide)).trans
    ((BitVec.extractLsb'_append_eq_of_le (by decide)).trans BitVec.extractLsb'_append_eq_right)

@[simp] theorem polField_wordOfBytes : polField (wordOfBytes fm fb fa op) = fb.extractLsb' 0 2 :=
  (BitVec.extractLsb'_append_eq_of_le (by decide)).trans
    ((BitVec.extractLsb'_append_eq_of_le (by decide)).trans (BitVec.extractLsb'_append_eq_of_add_le (by decide)))

@[simp] theorem fm0_wordOfBytes : fm0 (wordOfBytes fm fb fa op) = fm.getLsbD 0 := by
  simp only [fm0, wordOfBytes, BitVec.getLsbD_append]
  rfl

@[simp] theorem fm1_wordOfBytes : fm1 (wordOfBytes fm fb fa op) = fm.getLsbD 1 := by
  simp only [fm1, wordOfBytes, BitVec.getLsbD_append]
  rfl

theorem wordOfBytes_and (fm' fb' fa' op' : Byte) : wordOfBytes fm fb fa op &&& wordOfBytes fm' fb' fa' op' =
    wordOfBytes (fm &&& fm') (fb &&& fb') (fa &&& fa') (op &&& op') := by
  refine BitVec.and_append.trans ?_
  rw [BitVec.and_append, BitVec.and_append]
  rfl

end

/-- Format K: INIT and POLY (R91). -/
theorem decode_crc8_layout (poly init : Byte) : decode (wordOfBytes 0x00 init poly 0x01) = .ok (.crc8 poly init) := by
  refine decode_ok_iff.2
    ⟨⟨.CRC8, wordOfBytes 0xFF#8 0#8 0#8 0xFF#8, wordOfBytes 0#8 0#8 0#8 0x01#8⟩, by decide, ?_, ?_⟩
  · rw [wordOfBytes_and, BitVec.and_zero, BitVec.and_zero]
    rfl
  · simp [operandsOf]

/-- Format X: DE and DF, POL, and L (R91). -/
theorem decode_encAx_layout (l : Byte) (pol : PadPolicy) (df de : Bool) :
    decode (wordOfBytes (modifierByte df de) ((policyCode pol).setWidth 8) l 0x33) =
      .ok (.encAx l.toNat pol df de) := by
  obtain ⟨hfm, hm0, hm1⟩ : modifierByte df de &&& 0xFC#8 = 0#8 ∧ (modifierByte df de).getLsbD 0 = df ∧
      (modifierByte df de).getLsbD 1 = de := by
    cases df <;> cases de <;> decide
  obtain ⟨hfb, hp⟩ : (policyCode pol).setWidth 8 &&& 0xFC#8 = 0#8 ∧
      ((policyCode pol).setWidth 8).extractLsb' 0 2 = policyCode pol := by
    cases pol <;> decide
  refine decode_ok_iff.2
    ⟨⟨.ENC_AX, wordOfBytes 0xFC#8 0xFC#8 0#8 0xFF#8, wordOfBytes 0#8 0#8 0#8 0x33#8⟩, by decide, ?_, ?_⟩
  · rw [wordOfBytes_and, hfm, hfb, BitVec.and_zero]
    rfl
  · simp only [operandsOf, faField_wordOfBytes, polField_wordOfBytes, fm0_wordOfBytes, fm1_wordOfBytes, hp, hm0, hm1,
      policyOf_policyCode]

/-- Settles O4: the formats with byte fields by `decode_crc8_layout` and `decode_encAx_layout`, the others and the words
written out by evaluation. -/
theorem specCommandWordsDecode : Obligations.SpecCommandWordsDecode := by
  refine ⟨fun poly init l b c => ⟨decode_crc8_layout poly init, ?_, ?_, ?_, ?_,
    decode_encAx_layout l .repeatData b c, decode_encAx_layout l .zero b c, decode_encAx_layout l .random b c,
    decode_encAx_layout l .custom b c, ?_⟩, ?_⟩
  · cases b <;> decide
  · cases b <;> decide
  · cases b <;> cases c <;> decide
  · cases b <;> cases c <;> decide
  · cases b <;> decide
  · decide

/-- Settles O1: each command is decoded from a word, its layout, so from its own by `decode_encode_of_decode`. -/
theorem encodedCommandDecodesBack : Obligations.EncodedCommandDecodesBack := by
  intro i hwf
  cases i with
  | crc8 poly init => exact decode_encode_of_decode (decode_crc8_layout poly init)
  | encAx l pol df de =>
    have hl : l ≤ 255 := of_decide_eq_true hwf
    have hword := decode_encAx_layout (BitVec.ofNat 8 l) pol df de
    rw [BitVec.toNat_ofNat, Nat.mod_eq_of_lt (by omega)] at hword
    exact decode_encode_of_decode hword
  | manDec b | dmanDec b | fit b => cases b <;> decide
  | encA df de | encB df de => cases df <;> cases de <;> decide
  | manEnc | dmanEnc | pcmEnc | pcmDec | encC | fskGen => decide

end Sys2Proof.Machine

/-! Steps of the engine: no refusal, and a WAIT behind an accepted command (R94, R104, R305, R306, R311). -/

namespace Sys2Proof.Machine

/-! ## The engine's turn -/

theorem engineTurn_of_ok {w : Word} {i : Instr} (h : decode w = .ok i) (s : State) : engineTurn w s = exec i s := by
  simp only [engineTurn, h]

/-- Settles O5: the completing step is the engine's turn, by `step_complete` and `engineTurn_of_ok`. -/
theorem stepRunsTheDecodedCommand : Obligations.StepRunsTheDecodedCommand := fun s _ _ heng hlag hdec =>
  (step_complete heng hlag).trans (engineTurn_of_ok hdec s)

theorem engineTurn_not_refused (w : Word) (s : State) (x : Refusal) : engineTurn w s ≠ .refused x := by
  rcases engineTurn_cases w s with ⟨i, -, h⟩ | ⟨e, -, h⟩
  · rw [h, exec_eq_conclude]
    exact conclude_not_refused
  · rw [h]
    exact nofun

theorem hostTurn_not_refused (s : State) (x : Refusal) : hostTurn s ≠ .refused x := by
  unfold hostTurn
  split
  · exact nofun
  · split <;> exact nofun
  · split <;> exact nofun
  · exact nofun
  · exact nofun

/-- Settles O52: every step is a turn of the engine or of the host, and neither refuses. -/
theorem stepsAreNeverRefused : Obligations.StepsAreNeverRefused := by
  intro s x
  rcases step_cases s with ⟨w, -, -, h⟩ | ⟨w, n, -, -, h⟩ | ⟨-, h⟩
  · exact h ▸ engineTurn_not_refused w s x
  · exact h ▸ hostTurn_not_refused _ x
  · exact h ▸ hostTurn_not_refused s x

/-! ## Polls before the completion -/

/-- The state with another count of host turns to pass and another record of reads. -/
def State.withPolls (lag : Nat) (reads : List Word) (s : State) : State := { s with lag := lag, reads := reads }

/-- A commit with another count and record in what it leaves. -/
def Commit.withPolls (lag : Nat) (reads : List Word) (k : Commit) : Commit :=
  { k with out := k.out.withPolls lag reads }

/-- A run reads neither the count nor the record: it stops alike, or leaves the same but in those two (as
`runOf_withCache` for CACHE). -/
theorem runOf_withPolls (i : Instr) (s : State) (lag : Nat) (reads : List Word) :
    runOf i (s.withPolls lag reads) = (runOf i s).map (Commit.withPolls lag reads) := by
  cases i <;> simp only [runOf, runCrc8, runManEnc, runManDec, runDmanEnc, runDmanDec, runPcmEnc, runPcmDec, runEncA,
    runEncB, runEncC, runEncAx, runFit, runFskGen, except_map_bind, except_map_pure] <;> rfl

/-- A completion that answers a next state still does after polls. -/
theorem engineTurn_withPolls {w : Word} {s t : State} (h : engineTurn w s = .next t) (lag : Nat) (reads : List Word) :
    engineTurn w (s.withPolls lag reads) = .next (t.withPolls lag reads) := by
  unfold engineTurn at h ⊢
  cases hd : decode w with
  | error e =>
    rw [hd, Host.Outcome.next.injEq] at h
    exact h ▸ rfl
  | ok i =>
    simp only [hd, exec_eq_conclude, runOf_withPolls] at h ⊢
    rcases conclude_next.1 h with ⟨c, hc, rfl⟩ | ⟨e, he, rfl⟩
    · rw [hc]
      rfl
    · rw [he]
      rfl

/-- A completion leaves ENG idle and the host's program and record as they were (R305). -/
theorem engineTurn_hostSide {w : Word} {s t : State} (h : engineTurn w s = .next t) :
    t.eng = .idle ∧ t.host = s.host ∧ t.reads = s.reads := by
  rcases engineTurn_cases w s with ⟨i, -, hi⟩ | ⟨e, -, he⟩
  · rcases exec_next (hi ▸ h) with ⟨c, hc, rfl⟩ | ⟨e, -, rfl⟩
    · refine ⟨rfl, ?_⟩
      cases hc with
      | frame base body stream hbase => rcases hbase with rfl | rfl <;> exact ⟨rfl, rfl⟩
      | _ => exact ⟨rfl, rfl⟩
    · exact ⟨rfl, rfl, rfl⟩
  · rw [he, Host.Outcome.next.injEq] at h
    exact h ▸ ⟨rfl, rfl, rfl⟩

/-! ## Runs -/

theorem run_succ {s t : State} (h : step s = .next t) (n : Nat) :
    Host.Core.run Sys2Proof.core (n + 1) s = Host.Core.run Sys2Proof.core n t := by
  have hcore : Sys2Proof.core.step s = .next t := h
  simp only [Host.Core.run, hcore]

/-- A WAIT while the engine is busy is a poll that leaves it there (R104). -/
theorem hostTurn_poll {s : State} {w : Word} {rest : List HostOp} (heng : s.eng = .busy w)
    (hhost : s.host = .wait :: rest) : hostTurn s = .next { s with reads := s.reads ++ [s.statusReg] } := by
  have hbusy : s.statusReg.getLsbD 0 = true := by rw [statusReg_busy, heng]; rfl
  rw [hostTurn_wait hhost, if_pos hbusy, ← hhost]

theorem step_poll {s : State} {w : Word} {n : Nat} {rest : List HostOp} (heng : s.eng = .busy w) (hlag : s.lag = n + 1)
    (hhost : s.host = .wait :: rest) : step s = .next (s.withPolls n (s.reads ++ [s.statusReg])) :=
  (step_waiting heng hlag).trans (hostTurn_poll (s := { s with lag := n }) heng hhost)

/-- A run of lag steps behind an accepted command is its lag polls (R306). -/
theorem run_polls {w : Word} {rest : List HostOp} (m : Nat) {n : Nat} {s : State} (heng : s.eng = .busy w)
    (hlag : s.lag = n) (hhost : s.host = .wait :: rest) :
    Host.Core.run Sys2Proof.core (n + m) s =
      Host.Core.run Sys2Proof.core m (s.withPolls 0 (s.reads ++ List.replicate n s.statusReg)) := by
  induction n generalizing s with
  | zero =>
    rw [List.replicate_zero, List.append_nil, Nat.zero_add, ← hlag]
    rfl
  | succ n ih =>
    have hrest := ih (s := s.withPolls n (s.reads ++ [s.statusReg])) heng rfl hhost
    rw [Nat.add_right_comm, List.replicate_succ, List.append_cons]
    exact (run_succ (step_poll heng hlag hhost) (n + m)).trans hrest

/-- Settles O8: lag polls by `run_polls`, then the completion, then the last poll, of an idle ENG. -/
theorem waitEndsAfterCompletion : Obligations.WaitEndsAfterCompletion := by
  intro s w rest heng hhost ⟨t, ht⟩
  have hdone := engineTurn_withPolls ht 0 (s.reads ++ List.replicate s.lag s.statusReg)
  have hcomplete := (step_complete (s := s.withPolls 0 _) heng rfl).trans hdone
  obtain ⟨hidle, hhost', hreads⟩ := engineTurn_hostSide hdone
  generalize t.withPolls 0 _ = u at hcomplete hidle hhost' hreads
  have hnotBusy : u.statusReg.getLsbD 0 = false := by rw [statusReg_busy, hidle]; rfl
  have hlast := (step_idle hidle).trans (hostTurn_wait (hhost'.trans hhost))
  rw [hnotBusy, if_neg Bool.false_ne_true, hreads] at hlast
  exact ⟨_, (run_polls 2 heng rfl hhost).trans ((run_succ hcomplete 1).trans (run_succ hlast 0)), hidle, rfl, rfl,
    hnotBusy⟩

end Sys2Proof.Machine

/-! The CRC table by its eight shift steps, and the CRC's own laws (R120, R121, R123). -/

namespace Sys2Proof.Machine

/-! ## The table's entries -/

/-- The step of R120 in plain arithmetic: the top bit is the test against 128, the mask the remainder by 256. -/
theorem crcShift_toNat (p c : Byte) :
    (crcShift p c).toNat = if 128 ≤ c.toNat then ((2 * c.toNat) ^^^ p.toNat) % 256 else (2 * c.toNat) % 256 := by
  have htop : c.getLsbD 7 = decide (128 ≤ c.toNat) := BitVec.msb_eq_decide c
  have hdouble : (c <<< 1).toNat = (2 * c.toNat) % 256 := by
    rw [BitVec.toNat_shiftLeft, Nat.shiftLeft_eq, Nat.mul_comm, pow_one]
  have hxor : ((c <<< 1) ^^^ p).toNat = ((2 * c.toNat) ^^^ p.toNat) % 256 := by
    rw [BitVec.toNat_xor, hdouble, Nat.xor_mod_two_pow (n := 8), Nat.mod_eq_of_lt p.isLt]
  simp only [crcShift, htop, decide_eq_true_eq]
  split
  · exact hxor
  · exact hdouble

/-- A sequence that starts at i and takes n steps as R120 says ends in what n shifts make of i. -/
theorem crcShift_iterate_toNat {p i : Byte} {c : Nat → Nat} {n : Nat} (hstart : c 0 = i.toNat)
    (hstep : ∀ k < n, c (k + 1) = if 128 ≤ c k then ((2 * c k) ^^^ p.toNat) % 256 else (2 * c k) % 256) :
    ((crcShift p)^[n] i).toNat = c n := by
  induction n with
  | zero => exact hstart.symm
  | succ n ih =>
    have hn := ih fun k hk => hstep k (Nat.lt_succ_of_lt hk)
    rw [Function.iterate_succ_apply', crcShift_toNat, hn, hstep n n.lt_succ_self]

/-- Seven plain shifts take 1 to 0x80, whatever the polynomial (R120). -/
theorem crcShift_iterate_seven_one (p : Byte) : (crcShift p)^[7] 1 = 0x80 := by
  simp [crcShift]

/-- The eighth shift takes the bit out of the byte, so that only the polynomial is left (R120). -/
theorem crcEntry_one (p : Byte) : crcEntry p 1 = p := by
  rw [crcEntry, Function.iterate_succ_apply', crcShift_iterate_seven_one]
  exact BitVec.zero_xor

theorem crcTable_length (p : Byte) : (crcTable p).length = 256 := by
  rw [crcTable, List.length_map, List.length_range]

theorem crcTable_getElem? (p i : Byte) : (crcTable p)[i.toNat]? = some (crcEntry p i) := by
  rw [crcTable, List.getElem?_map, List.getElem?_range i.isLt, Option.map_some, BitVec.ofNat_toNat, BitVec.setWidth_eq]

/-- Settles O19: each shift in plain arithmetic by `crcShift_toNat`, eight of them by induction, the rule's values by
evaluation. -/
theorem crcTableStart : Obligations.CrcTableStart :=
  ⟨fun _ _ _ => crcShift_iterate_toNat,
    fun p => ⟨crcTable_length p, crcTable_getElem? p⟩,
    fun p => ⟨crcEntry_zero p, crcEntry_one p⟩,
    crcEntry_one 0x07, by decide, by decide⟩

/-! ## The fold -/

theorem crc8_nil (p seed : Byte) : crc8 [] p seed = seed := rfl

/-- Settles O20: one byte more by `crc8_append_singleton`; the CRC behind its sequence looks up entry 0, which is 0. -/
theorem crcExtendsAndSelfChecks : Obligations.CrcExtendsAndSelfChecks :=
  ⟨crc8_nil, crc8_append_singleton, crc8_self_check⟩

end Sys2Proof.Machine

/-! The line codes as sequences: the encoders' pairs, where the decoders stop, and both round trips (R140, R142, R144,
R146, R148). -/

namespace Sys2Proof.Machine

/-! ## The coded pairs -/

theorem man_cons (b : Bool) (s : List Bool) : man (b :: s) = (!b) :: b :: man s := rfl

/-- Pair k of man(s) (R140). -/
theorem getElem?_man {s : List Bool} {k : Nat} {b : Bool} (h : s[k]? = some b) :
    (man s)[2 * k]? = some (!b) ∧ (man s)[2 * k + 1]? = some b := by
  induction s generalizing k with
  | nil => simp at h
  | cons c s ih =>
    rw [man_cons]
    cases k with
    | zero =>
      obtain rfl : c = b := by simpa using h
      exact ⟨rfl, rfl⟩
    | succ k => exact ih (k := k) h

/-- Settles O22: the pairs by `getElem?_man`. -/
theorem manchesterPairShape : Obligations.ManchesterPairShape := fun s =>
  ⟨length_man s, fun _ _ => getElem?_man⟩

/-- Pair k of dmenc from level l: it starts at the level before it, which is entry 2k of the code with l put in front,
inverted for bit 0, and has its mid-symbol transition (R144). -/
theorem getElem?_dmencFrom {l : Bool} {s : List Bool} {k : Nat} {b : Bool} (h : s[k]? = some b) :
    ∃ before, (l :: dmencFrom l s)[2 * k]? = some before ∧
      (dmencFrom l s)[2 * k]? = some (if b then before else !before) ∧
      (dmencFrom l s)[2 * k + 1]? = some (!(if b then before else !before)) := by
  induction s generalizing l k with
  | nil => simp at h
  | cons c s ih =>
    cases k with
    | zero =>
      obtain rfl : c = b := by simpa using h
      exact ⟨l, rfl, rfl, rfl⟩
    | succ k => exact ih (k := k) h

/-- The entry before index 2k, or x before the first, is entry 2k of the sequence with x put in front. -/
theorem getElem?_cons_two_mul (x : Bool) (s : List Bool) (k : Nat) :
    (x :: s)[2 * k]? = if k = 0 then some x else s[2 * k - 1]? := by
  cases k with
  | zero => rfl
  | succ k => rfl

/-- Settles O23: the level before a symbol by `getElem?_dmencFrom`, kept exactly for bit 1. -/
theorem diffManchesterBoundaryRule : Obligations.DiffManchesterBoundaryRule := by
  refine fun s => ⟨length_dmenc s, fun k b h => ?_⟩
  obtain ⟨before, hbefore, hfirst, hsecond⟩ := getElem?_dmencFrom (l := true) h
  refine ⟨_, hfirst, hsecond, fun level hlevel => ?_⟩
  rw [getElem?_cons_two_mul] at hbefore
  obtain rfl : before = level := Option.some.inj (hbefore.symm.trans hlevel)
  cases b <;> simp

/-! ## Where the Manchester decoder stops -/

/-- One output bit takes one from the bound. -/
theorem boundAfter_eq_some_iff {bound : Option Nat} (h0 : bound ≠ some 0) (n : Nat) :
    boundAfter bound = some n ↔ bound = some (n + 1) := by
  cases bound with
  | none => simp [boundAfter]
  | some m =>
    have hm : m ≠ 0 := fun h => h0 (congrArg some h)
    simp only [boundAfter, Option.map_some, Option.some.injEq]
    omega

/-- What the Manchester decoder has output of a binary sequence t when it stops, and why it stops: at an equal pair,
which is desync, or at the bound or the end (R142). -/
structure ManchesterStop (t : List Bool) (bound : Option Nat) (out : List Bool) (desync : Bool) : Prop where
  pairs : ∀ (k : Nat) (b : Bool), out[k]? = some b → t[2 * k]? = some (!b) ∧ t[2 * k + 1]? = some b
  bounded : ∀ n, bound = some n → out.length ≤ n
  equalPair : desync = true →
    bound ≠ some out.length ∧ ∃ x, t[2 * out.length]? = some x ∧ t[2 * out.length + 1]? = some x
  ended : desync = false → bound = some out.length ∨ t.length < 2 * out.length + 2

/-- A coded bit in front of the sequence is one more output bit. -/
theorem ManchesterStop.cons {t out : List Bool} {bound : Option Nat} {desync : Bool} (h0 : bound ≠ some 0)
    (h : ManchesterStop t (boundAfter bound) out desync) (b : Bool) :
    ManchesterStop ((!b) :: b :: t) bound (b :: out) desync where
  pairs k c hc := by
    cases k with
    | zero =>
      obtain rfl : b = c := by simpa using hc
      exact ⟨rfl, rfl⟩
    | succ k => exact h.pairs k c hc
  bounded n hn := by
    cases n with
    | zero => exact absurd hn h0
    | succ n => exact Nat.succ_le_succ (h.bounded n ((boundAfter_eq_some_iff h0 n).2 hn))
  equalPair hd := by
    obtain ⟨hne, hx⟩ := h.equalPair hd
    exact ⟨fun hb => hne ((boundAfter_eq_some_iff h0 _).2 hb), hx⟩
  ended hd := by
    refine (h.ended hd).imp (boundAfter_eq_some_iff h0 _).1 fun hlen => ?_
    simp only [List.length_cons]
    omega

/-- Nothing is output where the bound is 0, where no pair is left, or where the first pair is an equal one. -/
theorem ManchesterStop.nil_of_ended {t : List Bool} {bound : Option Nat} (h : bound = some 0 ∨ t.length < 2) :
    ManchesterStop t bound [] false :=
  ⟨nofun, fun _ _ => Nat.zero_le _, nofun, fun _ => h⟩

theorem ManchesterStop.nil_of_equalPair {bound : Option Nat} (h0 : bound ≠ some 0) (x : Bool) (t : List Bool) :
    ManchesterStop (x :: x :: t) bound [] true :=
  ⟨nofun, fun _ _ => Nat.zero_le _, fun _ => ⟨h0, x, rfl, rfl⟩, nofun⟩

/-- The offset reached is two symbols further for each output bit (R142). -/
theorem mdecLoop_reached {bound : Option Nat} {q : Nat} {ws : List (Option Byte)} {d : Decoded}
    (h : mdecLoop bound q ws = .ok d) : d.reached = q + 2 * d.out.length := by
  induction bound, q, ws using mdecLoop.induct generalizing d with
  | case1 q a b rest =>
    simp only [mdecLoop, if_true, Except.ok.injEq] at h
    simp [← h]
  | case2 bound q a b rest hb e he => simp only [mdecLoop, if_neg hb, he, reduceCtorEq] at h
  | case3 bound q a b rest hb v he =>
    simp only [mdecLoop, if_neg hb, he, if_true, Except.ok.injEq] at h
    simp [← h]
  | case4 bound q a b rest hb u v he huv e hr => simp only [mdecLoop, if_neg hb, he, if_neg huv, hr, reduceCtorEq] at h
  | case5 bound q a b rest hb u v he huv d' hr ih =>
    simp only [mdecLoop, if_neg hb, he, if_neg huv, hr, Except.ok.injEq] at h
    have := ih hr
    simp only [← h, List.length_cons]
    omega
  | case6 bound q ws hws =>
    simp only [mdecLoop, Except.ok.injEq] at h
    simp [← h]

/-- The loop of mdec on a binary sequence (R142). -/
theorem mdecLoop_symbols (bound : Option Nat) (q : Nat) (t : List Bool) :
    ∃ d, mdecLoop bound q ((symbolsOf t).map some) = .ok d ∧ ManchesterStop t bound d.out d.desync := by
  induction t using List.twoStepInduction generalizing bound q with
  | nil => exact ⟨_, rfl, .nil_of_ended (.inr (by decide))⟩
  | singleton x => exact ⟨_, rfl, .nil_of_ended (.inr (by simp))⟩
  | cons_cons u v t ih _ =>
    simp only [symbolsOf, List.map_cons, mdecLoop, pairBits_symbols]
    by_cases h0 : bound = some 0
    · exact ⟨_, if_pos h0, .nil_of_ended (.inl h0)⟩
    · rw [if_neg h0]
      by_cases huv : u = v
      · subst huv
        exact ⟨_, if_pos rfl, .nil_of_equalPair h0 u t⟩
      · obtain ⟨d, hd, hstop⟩ := ih (boundAfter bound) (q + 2)
        obtain rfl : u = !v := Bool.eq_not.2 huv
        simp only [symbolsOf] at hd
        rw [if_neg huv, hd]
        exact ⟨_, rfl, hstop.cons h0 v⟩

/-- A binary sequence from the offset on. -/
theorem drop_symbols (o : Nat) (s : List Bool) :
    ((symbolsOf s).map some).drop o = (symbolsOf (s.drop o)).map some := by
  rw [symbolsOf, symbolsOf, List.map_drop, List.map_drop]

/-- Settles O25: the loop by `mdecLoop_symbols`, on the sequence from the offset on. -/
theorem manchesterDecodeRule : Obligations.ManchesterDecodeRule := by
  intro s o bound
  obtain ⟨d, hd, hstop⟩ := mdecLoop_symbols bound o (s.drop o)
  have hreached := mdecLoop_reached hd
  obtain ⟨hpairs, hbounded, hequal, hended⟩ := hstop
  simp only [List.getElem?_drop, List.length_drop, ← Nat.add_assoc, ← hreached] at hpairs hequal hended
  refine ⟨d, ?_, hreached, hpairs, hbounded, hequal, fun h => (hended h).imp_right fun hlen => by omega⟩
  rw [mdec, drop_symbols, hd]

/-! ## The second loop of the Differential Manchester decoder -/

/-- What dmdec outputs where mdec outputs vs: for each pair, whether its first half, the inverse of its second, differs
from the first half before, f at first (R146). -/
def halfChanges (f : Bool) : List Bool → List Bool
  | [] => []
  | v :: vs => ((!v) != f) :: halfChanges (!v) vs

/-- A Manchester decoder's answer read as Differential Manchester. -/
def Decoded.differential (f : Bool) (d : Decoded) : Decoded := { d with out := halfChanges f d.out }

@[simp] theorem length_halfChanges (f : Bool) (vs : List Bool) : (halfChanges f vs).length = vs.length := by
  induction vs generalizing f with
  | nil => rfl
  | cons v vs ih => simp [halfChanges, ih]

theorem getElem?_halfChanges {f b : Bool} {vs : List Bool} {k : Nat} (h : (halfChanges f vs)[k]? = some b) :
    ∃ v prev, vs[k]? = some v ∧ (if k = 0 then some f else vs[k - 1]?.map (!·)) = some prev ∧
      b = ((!v) != prev) := by
  induction vs generalizing f k with
  | nil => simp [halfChanges] at h
  | cons v vs ih =>
    cases k with
    | zero => exact ⟨v, f, rfl, rfl, by simpa [halfChanges] using h.symm⟩
    | succ k =>
      obtain ⟨w, prev, hw, hprev, hb⟩ := ih h
      refine ⟨w, prev, hw, ?_, hb⟩
      cases k <;> exact hprev

/-- Both second loops examine the same pairs and stop alike; only what they output of a pair differs (R142, R146). -/
theorem dmdecLoop_eq_mdecLoop (f : Bool) (bound : Option Nat) (q : Nat) (ws : List (Option Byte)) :
    dmdecLoop f bound q ws = (mdecLoop bound q ws).map (Decoded.differential f) := by
  induction bound, q, ws using mdecLoop.induct generalizing f with
  | case1 q a b rest => simp only [mdecLoop, dmdecLoop, if_true]; rfl
  | case2 bound q a b rest hb e he => simp only [mdecLoop, dmdecLoop, if_neg hb, he]; rfl
  | case3 bound q a b rest hb v he => simp only [mdecLoop, dmdecLoop, if_neg hb, he, if_true]; rfl
  | case4 bound q a b rest hb u v he huv e hr ih =>
    have hloop := ih u
    rw [hr] at hloop
    simp only [mdecLoop, dmdecLoop, if_neg hb, he, if_neg huv, hr, hloop]
    rfl
  | case5 bound q a b rest hb u v he huv d hr ih =>
    obtain rfl : u = !v := Bool.eq_not.2 huv
    have hloop := ih (!v)
    rw [hr] at hloop
    simp only [mdecLoop, dmdecLoop, if_neg hb, he, if_neg huv, hr, hloop]
    rfl
  | case6 bound q ws hws => simp only [mdecLoop, dmdecLoop]; rfl

/-! ## The phase search -/

/-- The phase search on a binary sequence: it passes every pair, all equal, or stops at the first unequal one (R146). -/
theorem dmPhase_symbols (q : Nat) (t : List Bool) :
    ((∀ k, k + 1 < t.length → t[k]? = t[k + 1]?) ∧
      dmPhase q ((symbolsOf t).map some) = .ok (.lost (q + (t.length - 1)))) ∨
    ∃ j, j + 1 < t.length ∧ t[j]? ≠ t[j + 1]? ∧ (∀ k < j, t[k]? = t[k + 1]?) ∧
      dmPhase q ((symbolsOf t).map some) = .ok (.found (q + j) ((symbolsOf (t.drop j)).map some)) := by
  induction t generalizing q with
  | nil => exact .inl ⟨nofun, rfl⟩
  | cons u t ih =>
    cases t with
    | nil => exact .inl ⟨by simp, rfl⟩
    | cons v t =>
      by_cases huv : u = v
      · have hnext : dmPhase q ((symbolsOf (u :: v :: t)).map some) =
            dmPhase (q + 1) ((symbolsOf (v :: t)).map some) := by
          simp [symbolsOf, dmPhase, huv]
        have hpass : ∀ k, (∀ i, k = i + 1 → (v :: t)[i]? = (v :: t)[i + 1]?) →
            (u :: v :: t)[k]? = (u :: v :: t)[k + 1]? := by
          rintro (_ | k) h
          · simp [huv]
          · exact h k rfl
        rw [hnext]
        rcases ih (q + 1) with ⟨hequal, hlost⟩ | ⟨j, hj, hne, hequal, hfound⟩
        · refine .inl ⟨fun k hk => hpass k fun i hi => hequal i (Nat.lt_of_succ_lt_succ (hi ▸ hk)), ?_⟩
          rw [hlost, List.length_cons (as := v :: t), List.length_cons]
          congr 2
          omega
        · refine .inr ⟨j + 1, Nat.succ_lt_succ hj, hne, fun k hk => hpass k fun i hi => hequal i (by omega), ?_⟩
          rw [hfound, Nat.add_assoc, Nat.add_comm 1 j]
          rfl
      · exact .inr ⟨0, by simp, by simpa using huv, nofun, by simp [symbolsOf, dmPhase, huv]⟩

theorem dmdec_of_lost {ws : List (Option Byte)} {o q : Nat} (bound : Option Nat)
    (h : dmPhase o (ws.drop o) = .ok (.lost q)) : dmdec ws o bound = .ok ⟨[], q, decide (o + 2 ≤ ws.length)⟩ := by
  simp only [dmdec, h, ok_bind, pure_eq_ok]

theorem dmdec_of_found {ws rest : List (Option Byte)} {o q : Nat} (bound : Option Nat)
    (h : dmPhase o (ws.drop o) = .ok (.found q rest)) :
    dmdec ws o bound = dmdecLoop false bound q rest := by
  simp only [dmdec, h, ok_bind]

/-- Settles O26: the phase search by `dmPhase_symbols`; the pairs behind it are those of the Manchester decoder by
`dmdecLoop_eq_mdecLoop`, and its output their changes of first half. -/
theorem diffManchesterDecodeRule : Obligations.DiffManchesterDecodeRule := by
  intro s o bound
  have hphase := dmPhase_symbols o (s.drop o)
  rw [← drop_symbols] at hphase
  rcases hphase with ⟨hequal, hlost⟩ | ⟨j, hj, hne, hequal, hfound⟩
  · refine ⟨⟨[], o + ((s.drop o).length - 1), decide (o + 2 ≤ s.length)⟩, ?_,
      .inl ⟨fun k ho hk => ?_, rfl, ?_, rfl⟩⟩
    · rw [dmdec_of_lost bound hlost, List.length_map, length_symbolsOf]
    · have := hequal (k - o) (by rw [List.length_drop]; omega)
      rwa [List.getElem?_drop, List.getElem?_drop, ← Nat.add_assoc, Nat.add_sub_cancel' ho] at this
    · rw [List.length_drop]
      dsimp only
      omega
  · obtain ⟨d, hd, hstop⟩ := mdecLoop_symbols bound (o + j) ((s.drop o).drop j)
    have hreached := mdecLoop_reached hd
    obtain ⟨hpairs, hbounded, hends, hended⟩ := hstop
    simp only [List.getElem?_drop, List.length_drop, ← Nat.add_assoc, ← hreached]
      at hpairs hends hended hne hequal hj
    refine ⟨d.differential false, ?_, .inr ⟨o + j, Nat.le_add_right o j, by omega, hne, fun k ho hk => ?_, ?_⟩⟩
    · rw [dmdec_of_found bound hfound, dmdecLoop_eq_mdecLoop, hd]
      rfl
    · have := hequal (k - o) (by omega)
      rwa [Nat.add_sub_cancel' ho] at this
    · simp only [Decoded.differential, length_halfChanges]
      refine ⟨hreached, fun k b hb => ?_, hbounded, hends, fun h => (hended h).imp_right fun hlen => by omega⟩
      obtain ⟨v, prev, hv, hprev, rfl⟩ := getElem?_halfChanges hb
      obtain ⟨hfirst, hsecond⟩ := hpairs k v hv
      refine ⟨!v, prev, hfirst, by simpa using hsecond, ?_, by simp⟩
      cases k with
      | zero => exact hprev
      | succ k =>
        obtain ⟨w, hw, rfl⟩ := Option.map_eq_some_iff.1 hprev
        exact (hpairs k w hw).1

/-! ## Behind a coded stream -/

section
variable {bits : List Bool} {bound : Option Nat} {tail : List (Option Byte)} {a b : Option Byte} {e : Stop}

/-- Behind a coded stream that the bound allows, both decoders go on with what follows: where nothing more is output of
that, the answer is the bits coded. -/
theorem decoders_answer_behind {desync : Bool} (hb : ∀ n, bound = some n → bits.length ≤ n)
    (h : mdecLoop (bound.map (· - bits.length)) (2 * bits.length) tail = .ok ⟨[], 2 * bits.length, desync⟩) :
    mdec ((symbolsOf (man bits)).map some ++ tail) 0 bound = .ok ⟨bits, 2 * bits.length, desync⟩ ∧
      (bits ≠ [] →
        dmdec ((symbolsOf (dmenc bits)).map some ++ tail) 0 bound = .ok ⟨bits, 2 * bits.length, desync⟩) := by
  have hafter : Decoded.after bits ⟨[], 2 * bits.length, desync⟩ = ⟨bits, 2 * bits.length, desync⟩ := by
    rw [Decoded.after, List.append_nil]
  refine ⟨?_, fun hbits => ?_⟩
  · rw [mdec, List.drop_zero, mdecLoop_man bits tail 0 bound hb, Nat.zero_add, h]
    exact congrArg _ hafter
  · obtain ⟨f, hloop⟩ := dmdecLoop_dmencFrom bits tail 0 true bound hb
    rw [Nat.zero_add, dmdecLoop_eq_mdecLoop f, h] at hloop
    rw [dmdec_of_found bound (dmPhase_dmenc hbits tail 0)]
    exact hloop.trans (congrArg _ hafter)

/-- A pair behind a coded stream that stops the reading of pairs stops both decoders. -/
theorem decoders_stop_behind (h : pairBits (2 * bits.length) a b = .error e) (rest : List (Option Byte)) :
    mdec ((symbolsOf (man bits)).map some ++ a :: b :: rest) 0 none = .error e ∧
      dmdec ((symbolsOf (dmenc bits)).map some ++ a :: b :: rest) 0 none = .error e := by
  rw [← Nat.zero_add (2 * bits.length)] at h
  exact ⟨mdecLoop_stop_behind nofun h, dmdec_stop_behind rfl nofun h⟩

end

/-- At the bound nothing is examined (R142). -/
theorem mdecLoop_bound_zero (q : Nat) (ws : List (Option Byte)) : mdecLoop (some 0) q ws = .ok ⟨[], q, false⟩ := by
  match ws with
  | [] => rfl
  | [_] => rfl
  | _ :: _ :: _ => rfl

/-- An equal pair stops the loop with desync where the bound allows a bit (R142). -/
theorem mdecLoop_equal_pair (q : Nat) (z : Bool) (rest : List (Option Byte)) :
    mdecLoop none q (some (symbolOf z) :: some (symbolOf z) :: rest) = .ok ⟨[], q, true⟩ := by
  simp only [mdecLoop, reduceCtorEq, if_false, pairBits_symbols, if_true]

/-- A written pair with a non-binary symbol (R275). -/
theorem pairBits_of_not_binary (q : Nat) {x y : Byte} (h : ¬ (x = 0x00 ∨ x = 0x01) ∨ ¬ (y = 0x00 ∨ y = 0x01)) :
    pairBits q (some x) (some y) = .error (.error .invalidSymbol) := by
  have hbits : bitsOf [x, y] = .error (.error .invalidSymbol) := bitsOf_error.2 ⟨rfl, by simpa using h⟩
  rw [pairBits, show [some x, some y] = [x, y].map some from rfl, needAll_map_some, ok_bind, hbits, error_bind]

/-- The phase search passes equal symbols, and stops where the pair of the last of them and the next entry does
(R146). -/
theorem dmPhase_replicate {q n : Nat} {z : Bool} {a : Option Byte} {e : Stop}
    (h : pairBits (q + n) (some (symbolOf z)) a = .error e) (rest : List (Option Byte)) :
    dmPhase q (List.replicate (n + 1) (some (symbolOf z)) ++ a :: rest) = .error e := by
  induction n generalizing q with
  | zero =>
    rw [Nat.add_zero] at h
    simp [dmPhase, h]
  | succ n ih =>
    rw [Nat.add_comm n 1, ← Nat.add_assoc] at h
    simpa [List.replicate_succ, dmPhase] using ih h

theorem dmdec_replicate {n : Nat} {z : Bool} {a : Option Byte} {e : Stop} (bound : Option Nat)
    (h : pairBits n (some (symbolOf z)) a = .error e) (rest : List (Option Byte)) :
    dmdec (List.replicate (n + 1) (some (symbolOf z)) ++ a :: rest) 0 bound = .error e := by
  rw [← Nat.zero_add n] at h
  rw [dmdec, List.drop_zero, dmPhase_replicate h, error_bind]

/-- Settles O28: the pair behind the stream stops both decoders by `decoders_stop_behind` or ends them by
`decoders_answer_behind`; the phase search stops by `dmdec_replicate`. -/
theorem decodersExamineOnlyWhatTheyConsume : Obligations.DecodersExamineOnlyWhatTheyConsume := by
  intro bits x y z u rest
  obtain ⟨hman, hdman⟩ := decoders_stop_behind (pairBits_unwritten_first (2 * bits.length) u) rest
  obtain ⟨hman', hdman'⟩ := decoders_stop_behind (pairBits_unwritten_second (2 * bits.length) x) rest
  obtain ⟨hequal, hdequal⟩ := decoders_answer_behind (bound := none) nofun
    (mdecLoop_equal_pair (2 * bits.length) z rest)
  have hzero : (some bits.length).map (· - bits.length) = some 0 := by simp
  obtain ⟨hbound, hdbound⟩ := decoders_answer_behind (bits := bits) (bound := some bits.length)
    (fun n hn => (Option.some.inj hn).le) (hzero ▸ mdecLoop_bound_zero (2 * bits.length) rest)
  exact ⟨fun hxy => decoders_stop_behind (pairBits_of_not_binary _ hxy) rest, hman, hdman, hman', hdman', hequal,
    hdequal, hbound, hdbound, fun n bound =>
      ⟨fun hx => dmdec_replicate bound (pairBits_of_not_binary n (.inr hx)) rest,
        dmdec_replicate bound (pairBits_unwritten_second n (symbolOf z)) rest⟩⟩

/-- Settles O29: nothing follows the stream, so `decoders_answer_behind` gives the bits back; of the empty sequence the
phase search finds nothing. -/
theorem lineCodesRoundTrip : Obligations.LineCodesRoundTrip := by
  intro s
  obtain ⟨hman, hdman⟩ := decoders_answer_behind (bits := s) (bound := none) (tail := []) nofun rfl
  rw [List.append_nil] at hman hdman
  refine ⟨hman, ?_⟩
  cases s with
  | nil => rfl
  | cons b s => exact hdman nofun

end Sys2Proof.Machine

/-! The line coder's commands in place (R141, R143, R145, R147). -/

namespace Sys2Proof.Machine

/-! ## The encoders -/

section
variable {i : Instr} {code : List Bool → List Bool}
  (hi : (i = .manEnc ∧ code = man) ∨ (i = .dmanEnc ∧ code = dmenc))
include hi

/-- An encoder reads SB as bits, checks the room for their code, and writes it (R141, R145). -/
theorem runOf_lineEncoder (s : State) :
    runOf i s = symbolInput s >>= fun bits => roomFor (2 * bits.length) s.cfg.sbCap >>= fun _ =>
      .ok { out := s.putSymbols (symbolsOf (code bits)), desync := false } := by
  rcases hi with ⟨rfl, rfl⟩ | ⟨rfl, rfl⟩ <;> rfl

theorem length_lineCode (bits : List Bool) : (code bits).length = 2 * bits.length := by
  rcases hi with ⟨-, rfl⟩ | ⟨-, rfl⟩
  · exact length_man bits
  · exact length_dmenc bits

end

theorem symbolWindow_of_lt {s : State} (h : s.cfg.sbCap < s.sbLen.toNat) :
    symbolWindow s = .error (.error .capacity) := by
  rw [symbolWindow, lengthIn_of_lt h, error_bind]

/-- SB[0..SB_LEN) where it holds codes, binary or not. -/
theorem symbolInput_eq_bitsOf {s : State} {xs : List Byte} (hcap : s.sbLen.toNat ≤ s.cfg.sbCap)
    (hlen : s.sbLen.toNat = xs.length) (h : Store.Holds s.mem.sb xs) : symbolInput s = bitsOf xs := by
  rw [symbolInput, symbolWindow_of_le hcap, ok_bind, hlen, Store.window_of_holds h, needAll_map_some, ok_bind]

/-- Settles O24: the run by `runOf_lineEncoder`, its input by what SB holds. -/
theorem lineEncodersInPlace : Obligations.LineEncodersInPlace := by
  intro i code hi s xs bits hv
  rw [exec_eq_conclude, runOf_lineEncoder hi]
  refine ⟨fun hcap => ?_, fun hcap hlen hholds hx => ?_, fun hcap hlen hholds hlong => ?_,
    fun hlen hholds hfit => ?_⟩
  · rw [symbolInput, symbolWindow_of_lt hcap]
    rfl
  · rw [symbolInput_eq_bitsOf hcap hlen hholds, bitsOf_error.2 ⟨rfl, hx⟩]
    rfl
  · rw [symbolInput_of_holds hcap hlen hholds, ok_bind, roomFor_of_lt hlong]
    rfl
  · have hcode : (symbolsOf (code bits)).length = 2 * bits.length := by
      rw [length_symbolsOf, length_lineCode hi]
    rw [symbolInput_of_holds (by omega) hlen hholds, ok_bind, roomFor_of_le hfit, ok_bind, ← hcode]
    exact ⟨_, rfl, rfl, toNat_length (by omega), Store.holds_blit _ _, Store.sameFrom_blit _ _⟩

/-! ## The decoders -/

theorem dmPhase_lost {q q' : Nat} {ws : List (Option Byte)} (h : dmPhase q ws = .ok (.lost q')) :
    q' ≤ q + ws.length := by
  induction q, ws using dmPhase.induct with
  | case1 q =>
    simp only [dmPhase, Except.ok.injEq, Phase.lost.injEq] at h
    omega
  | case2 q a =>
    simp only [dmPhase, Except.ok.injEq, Phase.lost.injEq] at h
    omega
  | case3 q a b rest e he => simp only [dmPhase, he, reduceCtorEq] at h
  | case4 q a b rest v he ih =>
    simp only [dmPhase, he, if_true] at h
    have := ih h
    simp only [List.length_cons] at this ⊢
    omega
  | case5 q a b rest u v he huv => simp only [dmPhase, he, if_neg huv, Except.ok.injEq, reduceCtorEq] at h

/-- The phase search stops at an offset, with the entries from there on. -/
theorem dmPhase_found {q q' : Nat} {ws rest' : List (Option Byte)} (h : dmPhase q ws = .ok (.found q' rest')) :
    q' + rest'.length = q + ws.length := by
  induction q, ws using dmPhase.induct with
  | case1 q => simp only [dmPhase, Except.ok.injEq, reduceCtorEq] at h
  | case2 q a => simp only [dmPhase, Except.ok.injEq, reduceCtorEq] at h
  | case3 q a b rest e he => simp only [dmPhase, he, reduceCtorEq] at h
  | case4 q a b rest v he ih =>
    simp only [dmPhase, he, if_true] at h
    rw [ih h]
    simp only [List.length_cons]
    omega
  | case5 q a b rest u v he huv =>
    simp only [dmPhase, he, if_neg huv, Except.ok.injEq, Phase.found.injEq] at h
    obtain ⟨rfl, rfl⟩ := h
    rfl

/-- The offset mdec's loop reaches is within its input. -/
theorem mdecLoop_reached_le {bound : Option Nat} {q : Nat} {ws : List (Option Byte)} {d : Decoded}
    (h : mdecLoop bound q ws = .ok d) : d.reached ≤ q + ws.length := by
  rw [mdecLoop_reached h]
  exact Nat.add_le_add_left (mdecLoop_length h) q

theorem dmdecLoop_reached_le {f : Bool} {bound : Option Nat} {q : Nat} {ws : List (Option Byte)} {d : Decoded}
    (h : dmdecLoop f bound q ws = .ok d) : d.reached ≤ q + ws.length := by
  rw [dmdecLoop_eq_mdecLoop] at h
  cases hloop : mdecLoop bound q ws with
  | error e => rw [hloop] at h; cases h
  | ok d' =>
    have hle := mdecLoop_reached_le hloop
    rw [hloop] at h
    obtain rfl := Except.ok.inj h
    exact hle

theorem mdec_reached_le {ws : List (Option Byte)} {o : Nat} {bound : Option Nat} {d : Decoded}
    (h : mdec ws o bound = .ok d) : d.reached ≤ max o ws.length := by
  have := mdecLoop_reached_le h
  rw [List.length_drop] at this
  omega

theorem dmdec_reached_le {ws : List (Option Byte)} {o : Nat} {bound : Option Nat} {d : Decoded}
    (h : dmdec ws o bound = .ok d) : d.reached ≤ max o ws.length := by
  obtain ⟨phase, hphase, hd⟩ := bind_ok.1 h
  have hlen := List.length_drop (l := ws) (i := o)
  cases phase with
  | lost q =>
    have := dmPhase_lost hphase
    obtain rfl := Except.ok.inj hd
    dsimp only
    omega
  | found q rest =>
    have hrest := dmPhase_found hphase
    have := dmdecLoop_reached_le ((dmdec_of_found bound hphase).symm.trans h)
    omega

section
variable {be : Bool} {i : Instr} {dec : List (Option Byte) → Nat → Option Nat → Except Stop Decoded}
  (hi : (i = .manDec be ∧ dec = mdec) ∨ (i = .dmanDec be ∧ dec = dmdec))
include hi

/-- A decoder reads SB[0..SB_LEN) with its marks, decodes it from DEC_OFF, and writes the answer (R143, R147). -/
theorem runOf_lineDecoder (s : State) :
    runOf i s = symbolWindow s >>= fun win => dec win s.decOff.toNat (decodeBound be s) >>= fun d =>
      .ok (decodedCommit s d) := by
  rcases hi with ⟨rfl, rfl⟩ | ⟨rfl, rfl⟩ <;> rfl

/-- A decoder's answer is at most half its input long, and the offset it reaches within it or that it started at. -/
theorem lineDecoder_within {ws : List (Option Byte)} {o : Nat} {bound : Option Nat} {d : Decoded}
    (h : dec ws o bound = .ok d) : 2 * d.out.length ≤ ws.length ∧ d.reached ≤ max o ws.length := by
  rcases hi with ⟨-, rfl⟩ | ⟨-, rfl⟩
  · exact ⟨mdec_length h, mdec_reached_le h⟩
  · exact ⟨dmdec_length h, dmdec_reached_le h⟩

/-- A decoder answers on every binary sequence. -/
theorem lineDecoder_answers (bits : List Bool) (o : Nat) (bound : Option Nat) :
    ∃ d, dec ((symbolsOf bits).map some) o bound = .ok d := by
  rcases hi with ⟨-, rfl⟩ | ⟨-, rfl⟩
  · obtain ⟨d, hd, -⟩ := manchesterDecodeRule bits o bound
    exact ⟨d, hd⟩
  · obtain ⟨d, hd, -⟩ := diffManchesterDecodeRule bits o bound
    exact ⟨d, hd⟩

end

/-- A decoder's commit leaves its output in SB, its length, the offset reached and its desync outcome (R143, R147). -/
theorem decodedCommit_finish (s : State) (d : Decoded) :
    (decodedCommit s d).out.finish (decodedCommit s d).desync =
      { s with mem := { s.mem with sb := Store.blit (symbolsOf d.out) s.mem.sb },
               sbLen := BitVec.ofNat 32 d.out.length, result := BitVec.ofNat 32 d.reached, eng := .idle,
               status := endedWell d.desync s } := by
  rw [State.finish, decodedCommit, State.putSymbols, length_symbolsOf]
  rfl

/-- Settles O27: the run by `runOf_lineDecoder`; its answer fits the registers by `lineDecoder_within`, and a binary
input has one by `lineDecoder_answers`. -/
theorem lineDecodersInPlace : Obligations.LineDecodersInPlace := by
  rintro be i dec hi s bits win d e bound hv rfl hwin hentries
  have hwindow : Store.window s.mem.sb 0 s.sbLen.toNat = win := by
    rw [Store.window_eq]
    refine List.ext_getElem? fun k => ?_
    by_cases hk : k < s.sbLen.toNat
    · simp [hk, hentries k hk]
    · simp [hk, hwin]
  have hrun : s.sbLen.toNat ≤ s.cfg.sbCap → ∀ r, dec win s.decOff.toNat (decodeBound be s) = r →
      exec i s = conclude s (r >>= fun d => .ok (decodedCommit s d)) := by
    rintro hcap r rfl
    rw [exec_eq_conclude, runOf_lineDecoder hi, symbolWindow_of_le hcap, hwindow]
    rfl
  refine ⟨fun hcap => ?_, fun hcap herror => hrun hcap _ herror, fun f hcap hfault => hrun hcap _ hfault,
    fun hcap hok => ?_, fun hcap hlen hholds => ?_⟩
  · rw [exec_eq_conclude, runOf_lineDecoder hi, symbolWindow_of_lt hcap]
    rfl
  · obtain ⟨hout, hreached⟩ := lineDecoder_within hi hok
    have hsame := Store.sameFrom_blit (symbolsOf d.out) s.mem.sb
    rw [length_symbolsOf] at hsame
    refine ⟨_, (hrun hcap _ hok).trans (congrArg _ (decodedCommit_finish s d)), rfl, toNat_length (by omega),
      (BitVec.toNat_ofNat _ _).trans (Nat.mod_eq_of_lt ?_), Store.holds_blit _ _, hsame⟩
    have := s.decOff.isLt
    omega
  · have hbinary : win = (symbolsOf bits).map some := by
      rw [← hwindow, hlen, ← length_symbolsOf bits, Store.window_of_holds hholds]
    obtain ⟨d', hd'⟩ := lineDecoder_answers hi bits s.decOff.toNat (decodeBound be s)
    exact ⟨_, (hrun hcap _ (hbinary ▸ hd')).trans rfl, rfl⟩

end Sys2Proof.Machine

/-! The pulse encoder: the pairs of a sequence, their decoding, and PCM_ENC in place (R170, R171, R174). -/

namespace Sys2Proof.Machine

/-! ## The scan of the pulse encoder -/

theorem pcmenc_cons_true (s : List Bool) : pcmenc (true :: s) = pcmScan 1 0 s := rfl

/-- A leading zero is skipped (R170). -/
theorem pcmenc_cons_false (s : List Bool) : pcmenc (false :: s) = pcmenc s := rfl

theorem pcmScan_ne_nil {p g : Nat} {s : List Bool} (hp : p ≠ 0) : pcmScan p g s ≠ [] := by
  fun_induction pcmScan p g s with
  | case1 => contradiction
  | case2 => exact List.cons_ne_nil _ _
  | case3 p s ih => exact ih p.succ_ne_zero
  | case4 => exact List.cons_ne_nil _ _
  | case5 => contradiction
  | case6 p g s _ ih => exact ih hp

/-- Every pair has a pulse, where the pair begun has one before its gap (R170). -/
theorem pulse_pos_of_mem_pcmScan {p g : Nat} {s : List Bool} (hpg : p = 0 → g = 0) :
    ∀ q ∈ pcmScan p g s, 1 ≤ q.1 := by
  fun_induction pcmScan p g s with
  | case1 => nofun
  | case2 p g hp => exact List.forall_mem_singleton.2 (Nat.pos_of_ne_zero hp)
  | case3 p s ih => exact ih nofun
  | case4 p g s hg ih => exact List.forall_mem_cons.2 ⟨Nat.pos_of_ne_zero (mt hpg hg), ih nofun⟩
  | case5 g s ih => exact ih fun _ => rfl
  | case6 p g s hp ih => exact ih fun h => absurd h hp

/-- Every pair that a further 1 ends has a gap (R170). -/
theorem gap_pos_of_mem_dropLast_pcmScan (p g : Nat) (s : List Bool) :
    ∀ q ∈ (pcmScan p g s).dropLast, 1 ≤ q.2 := by
  fun_induction pcmScan p g s with
  | case1 => nofun
  | case2 => nofun
  | case3 p s ih => exact ih
  | case4 p g s hg ih =>
    rw [List.dropLast_cons_of_ne_nil (pcmScan_ne_nil Nat.one_ne_zero)]
    exact List.forall_mem_cons.2 ⟨Nat.pos_of_ne_zero hg, ih⟩
  | case5 g s ih => exact ih
  | case6 p g s hp ih => exact ih

/-! ## Decoding the pairs -/

theorem pcmdec_cons (q : Nat × Nat) (ps : List (Nat × Nat)) :
    pcmdec (q :: ps) = List.replicate q.1 true ++ List.replicate q.2 false ++ pcmdec ps := rfl

theorem pcmdec_append (ps qs : List (Nat × Nat)) : pcmdec (ps ++ qs) = pcmdec ps ++ pcmdec qs :=
  List.flatMap_append

/-- The pairs of a scan decode to the pair begun and what follows it. -/
theorem pcmdec_pcmScan {p g : Nat} {s : List Bool} (hp : p ≠ 0) :
    pcmdec (pcmScan p g s) = List.replicate p true ++ List.replicate g false ++ s := by
  fun_induction pcmScan p g s with
  | case1 => contradiction
  | case2 p g _ => exact pcmdec_cons (p, g) []
  | case3 p s ih => simp [ih, List.replicate_succ']
  | case4 p g s hg ih => rw [pcmdec_cons, ih Nat.one_ne_zero]; rfl
  | case5 => contradiction
  | case6 p g s _ ih => simp [ih hp, List.replicate_succ']

/-- R174: "pcmdec(pcmenc(s)) = s with its leading zero run removed". -/
theorem pcmdec_pcmenc (s : List Bool) : pcmdec (pcmenc s) = s.dropWhile (fun b => !b) := by
  induction s with
  | nil => rfl
  | cons b s ih =>
    cases b with
    | true =>
      rw [pcmenc_cons_true, pcmdec_pcmScan Nat.one_ne_zero]
      rfl
    | false =>
      rw [pcmenc_cons_false, ih]
      rfl

theorem pcmenc_of_all_zero {s : List Bool} (h : ∀ b ∈ s, b = false) : pcmenc s = [] := by
  induction s with
  | nil => rfl
  | cons b s ih =>
    obtain ⟨rfl, hs⟩ := List.forall_mem_cons.1 h
    rw [pcmenc_cons_false, ih hs]

/-- Settles O33: the round trip by `pcmdec_pcmenc`; it drops nothing exactly when there is no leading zero. -/
theorem pcmRoundTrip : Obligations.PcmRoundTrip := by
  intro s
  refine ⟨pcmdec_pcmenc s, ?_, fun h => ?_⟩
  · rw [pcmdec_pcmenc, List.dropWhile_eq_self_iff]
    cases s <;> simp
  · rw [pcmenc_of_all_zero h]
    exact ⟨rfl, rfl⟩

/-! ## The shape of the pairs -/

/-- The decoded sequence ends in 1 exactly when the last gap is 0. -/
theorem getLast?_pcmdec {ps : List (Nat × Nat)} {q : Nat × Nat} (hq : ps.getLast? = some q) (hpulse : 1 ≤ q.1) :
    (pcmdec ps).getLast? = some (decide (q.2 = 0)) := by
  obtain ⟨init, rfl⟩ := List.getLast?_eq_some_iff.1 hq
  have hp : q.1 ≠ 0 := Nat.ne_zero_of_lt hpulse
  rw [pcmdec_append, pcmdec_cons]
  by_cases hg : q.2 = 0 <;> simp [pcmdec, List.getLast?_append, List.getLast?_replicate, hp, hg]

/-- Positive pulses and positive gaps between them make every pair but the last at least 2 wide. -/
theorem two_mul_length_le_totalWidth {ps : List (Nat × Nat)} (hpulse : ∀ q ∈ ps, 1 ≤ q.1)
    (hgap : ∀ q ∈ ps.dropLast, 1 ≤ q.2) : 2 * ps.length ≤ totalWidth ps + 1 := by
  induction ps with
  | nil => exact Nat.zero_le _
  | cons q ps ih =>
    obtain ⟨hq, hps⟩ := List.forall_mem_cons.1 hpulse
    rw [totalWidth_cons, List.length_cons]
    cases ps with
    | nil => simp only [List.length_nil]; omega
    | cons q' ps =>
      obtain ⟨hq', hgaps⟩ := List.forall_mem_cons.1 hgap
      have := ih hps hgaps
      omega

theorem totalWidth_pcmenc_le (s : List Bool) : totalWidth (pcmenc s) ≤ s.length := by
  rw [← length_pcmdec, pcmdec_pcmenc]
  exact List.length_dropWhile_le _ s

/-- The pairs decode to an end of the sequence (R174), so the sequence ends as that does. -/
theorem getLast?_of_pcmdec_pcmenc {s : List Bool} {b : Bool} (h : (pcmdec (pcmenc s)).getLast? = some b) :
    s.getLast? = some b := by
  rw [pcmdec_pcmenc] at h
  obtain ⟨zeros, hs⟩ := List.dropWhile_suffix (l := s) (fun b => !b)
  rw [← hs, List.getLast?_append, h]
  rfl

/-- Settles O30: the scan gives the pulses and gaps; the last gap and the count follow from what the pairs decode
to. -/
theorem pulsePairShape : Obligations.PulsePairShape := by
  intro s
  have hpulse : ∀ q ∈ pcmenc s, 1 ≤ q.1 := pulse_pos_of_mem_pcmScan fun _ => rfl
  have hgap : ∀ q ∈ (pcmenc s).dropLast, 1 ≤ q.2 := gap_pos_of_mem_dropLast_pcmScan 0 0 s
  refine ⟨hpulse, hgap, fun q hq => ?_, ?_⟩
  · have hlast := getLast?_pcmdec hq (hpulse q (List.mem_of_getLast? hq))
    rw [getLast?_of_pcmdec_pcmenc hlast, Option.some.injEq, decide_eq_true_iff]
  · have hpairs := two_mul_length_le_totalWidth hpulse hgap
    have hwidth := totalWidth_pcmenc_le s
    omega

/-! ## PCM_ENC -/

/-- Pairs no wider together than the largest buffer stand whole in the halves that hold their entries (R65, R171). -/
theorem get_halves_pulseEntry {m : Store 32} {ps : List (Nat × Nat)} {k p g : Nat}
    (hholds : Store.Holds m (halves (ps.map pulseEntry))) (hwidth : totalWidth ps ≤ 262144)
    (h : ps[k]? = some (p, g)) :
    (Store.get (2 * k) m).map BitVec.toNat = some p ∧ (Store.get (2 * k + 1) m).map BitVec.toNat = some g := by
  have hle : p + g ≤ totalWidth ps :=
    List.le_sum_of_mem (List.mem_map.2 ⟨(p, g), List.mem_of_getElem? h, rfl⟩)
  have hentry : (ps.map pulseEntry)[k]? = some (pulseEntry (p, g)) := by rw [List.getElem?_map, h, Option.map_some]
  obtain ⟨hpulse, hgap⟩ := getElem_halves hentry
  rw [hholds _ (List.getElem?_eq_some_iff.1 hpulse).1, hholds _ (List.getElem?_eq_some_iff.1 hgap).1, hpulse, hgap,
    Option.map_some, Option.map_some, toNat_length (by omega), toNat_length (by omega)]
  exact ⟨rfl, rfl⟩

/-- PCM_ENC where SB holds a binary sequence: it has only the room in PB left to check (R171). -/
theorem runPcmEnc_of_holds {s : State} {bits : List Bool} (hcap : s.sbLen.toNat ≤ s.cfg.sbCap)
    (hlen : s.sbLen.toNat = bits.length) (hholds : Store.Holds s.mem.sb (symbolsOf bits)) :
    runPcmEnc s = roomFor (pcmenc bits).length s.cfg.pbCap >>= fun _ =>
      .ok { out := s.putPulses ((pcmenc bits).map pulseEntry), desync := false } := by
  rw [runPcmEnc, symbolInput_of_holds hcap hlen hholds, ok_bind]
  rfl

/-- Settles O31: the input or the room for its pairs fails a check, or the run commits the pairs, each within its
halves. -/
theorem pcmEncodeToPulses : Obligations.PcmEncodeToPulses := by
  intro s xs bits hv
  simp only [exec_eq_conclude, runOf]
  refine ⟨fun hcap => ?_, fun hcap hlen hholds hx => ?_, fun hcap hlen hholds hlong => ?_,
    fun hcap hlen hholds hfit => ?_⟩
  · rw [runPcmEnc, symbolInput, symbolWindow_of_lt hcap]
    rfl
  · rw [runPcmEnc, symbolInput_eq_bitsOf hcap hlen hholds, bitsOf_error.2 ⟨rfl, hx⟩]
    rfl
  · rw [runPcmEnc_of_holds hcap hlen hholds, roomFor_of_lt hlong]
    rfl
  · have hwidth := totalWidth_pcmenc_le bits
    have hentries : ((pcmenc bits).map pulseEntry).length = (pcmenc bits).length := List.length_map _
    have hsame := Store.sameFrom_blit (halves ((pcmenc bits).map pulseEntry)) s.mem.pb
    rw [length_halves, hentries] at hsame
    rw [runPcmEnc_of_holds hcap hlen hholds, roomFor_of_le hfit]
    exact ⟨_, rfl, rfl, hentries ▸ toNat_length (by omega),
      fun k p g => get_halves_pulseEntry (Store.holds_blit _ _) (by omega), hsame⟩

end Sys2Proof.Machine

/-! Variant A, baseline and extended, and fixed-length fitting (R195 to R198, R211 to R218): what ENC_A, ENC_AX and FIT
answer and what they leave in FB and SB. -/

namespace Sys2Proof.Machine

/-! ## Variant A -/

/-- ENC_A completes where the pressure is finite (R198). -/
theorem runEncA_of_finite {s : State} (df de : Bool) (h : f64Finite (pressureWord s) = true) :
    runEncA df de s =
      let frame := sealA (dataBytesA df de (f64 (pressureWord s)) s)
      .ok (frameCommit (s.usedCrc 0x07) frame (streamA s.cfg frame)) := by
  rw [runEncA, pressure_of_finite h]
  rfl

theorem runEncA_of_not_finite {s : State} (df de : Bool) (h : f64Finite (pressureWord s) = false) :
    runEncA df de s = .error (.error .invalidNumeric) := by
  rw [runEncA, pressure_of_not_finite h]
  rfl

/-- Settles O36: the run's commit by `runEncA_of_finite`, its buffers by `frameCommit_buffers`. -/
theorem variantAFrame : Obligations.VariantAFrame := by
  rintro s df de praw fl ex data frame - rfl rfl rfl rfl rfl
  refine ⟨fun h => ?_, fun h => ?_⟩
  · rw [exec_eq_conclude, runOf, runEncA_of_not_finite df de h]
    exact endsInError_of_fail _ _ s
  · rw [exec_eq_conclude, runOf, runEncA_of_finite df de h, conclude_ok]
    exact ⟨_, rfl, frameCommit_finish _ _ _, fillCache_poly _ _, frameCommit_buffers _ _ _⟩

/-! ## The pad bytes -/

/-- Pad byte D[8 + k] of policy pol over the data bytes, for a custom list that begins with the bytes given (R212). -/
def padByteAt (pol : PadPolicy) (data list : List Byte) (s : State) (k : Nat) : Byte :=
  match pol with
  | .repeatData => data.getD ((k + 8) % 8) 0
  | .zero => 0
  | .random => Config.padPrng s.sensorId k
  | .custom => list.getD (k % s.bbLen.toNat) 0

/-- The custom policy needs BB[0..min(BB_LEN, n)) and no more; the others read no buffer (R212, R216). -/
theorem padBytes_of_holds {pol : PadPolicy} {list : List Byte} {n : Nat} {s : State} (data : List Byte)
    (h : pol = .custom → list.length = min s.bbLen.toNat n ∧ Store.Holds s.mem.bb list) :
    padBytes pol data n s = .ok ((List.range n).map (padByteAt pol data list s)) := by
  cases pol with
  | custom =>
    obtain ⟨hlen, hholds⟩ := h rfl
    rw [padBytes, ← hlen, Store.window_of_holds hholds, needAll_map_some]
    rfl
  | zero =>
    have hzeros : (List.range n).map (fun _ => (0 : Byte)) = List.replicate n 0 := by simp
    exact congrArg Except.ok hzeros.symm
  | _ => rfl

theorem some_getD_of_lt {xs : List Byte} {i : Nat} (h : i < xs.length) (d : Byte) : some (xs.getD i d) = xs[i]? := by
  rw [List.getD_eq_getElem _ _ h, List.getElem?_eq_getElem h]

/-! ## Extended Variant A -/

theorem check_of {p : Prop} [Decidable p] (h : p) (e : ErrCode) : check (decide p) e = .ok () := by
  rw [decide_eq_true h, check_true]

theorem check_of_not {p : Prop} [Decidable p] (h : ¬p) (e : ErrCode) : check (decide p) e = .error (.error e) := by
  rw [decide_eq_false h, check_false]

/-- ENC_AX where its operand and BB_LEN pass their checks: the pressure comes next, then the room for the frame and for
its stream, and the pad list last (R216, R278). -/
theorem runEncAx_of_operands {l : Nat} {pol : PadPolicy} {s : State} (df de : Bool)
    (hlist : pol = .custom → s.bbLen.toNat ≤ s.cfg.bbCap) (hlong : 9 ≤ l) (hne : pol = .custom → s.bbLen.toNat ≠ 0) :
    runEncAx l pol df de s = pressure s >>= fun p => roomFor l s.cfg.fbCap >>= fun _ =>
      roomFor (32 + 16 * l) s.cfg.sbCap >>= fun _ => padBytes pol (dataBytesA df de p s) (l - 9) s >>= fun pad =>
      let frame := sealA (dataBytesA df de p s ++ pad)
      .ok (frameCommit (s.usedCrc 0x07) frame (streamA s.cfg frame)) := by
  rw [runEncAx, check_of (imp_iff_not_or.1 hlist), ok_bind, check_of hlong, ok_bind, check_of (imp_iff_not_or.1 hne)]
  rfl

/-- The body of an extended frame of l bytes: the data bytes, then the pad bytes (R212). -/
def extendedBody (l : Nat) (pol : PadPolicy) (data list : List Byte) (s : State) : List Byte :=
  data ++ (List.range (l - 9)).map (padByteAt pol data list s)

/-- ENC_AX completes where no check fails and the part of the custom list it needs is written (R216). -/
theorem runEncAx_of_checks {l : Nat} {pol : PadPolicy} {list data : List Byte} {s : State} (df de : Bool)
    (hdata : data = dataBytesA df de (f64 (pressureWord s)) s) (hlong : 9 ≤ l) (hfb : l ≤ s.cfg.fbCap)
    (hsb : 32 + 16 * l ≤ s.cfg.sbCap) (hfin : f64Finite (pressureWord s) = true)
    (hcustom : pol = .custom → 1 ≤ s.bbLen.toNat ∧ s.bbLen.toNat ≤ s.cfg.bbCap ∧
      list.length = min s.bbLen.toNat (l - 9) ∧ Store.Holds s.mem.bb list) :
    runEncAx l pol df de s =
      let frame := sealA (extendedBody l pol data list s)
      .ok (frameCommit (s.usedCrc 0x07) frame (streamA s.cfg frame)) := by
  subst hdata
  have hlist : pol = .custom → s.bbLen.toNat ≤ s.cfg.bbCap := fun h => (hcustom h).2.1
  have hne : pol = .custom → s.bbLen.toNat ≠ 0 := fun h => Nat.ne_of_gt (hcustom h).1
  rw [runEncAx_of_operands df de hlist hlong hne, pressure_of_finite hfin, ok_bind, roomFor_of_le hfb, ok_bind,
    roomFor_of_le hsb, ok_bind, padBytes_of_holds _ fun h => (hcustom h).2.2]
  rfl

section
variable {l : Nat} {pol : PadPolicy} {data list : List Byte} {s : State} (hdata : data.length = 8)
include hdata

theorem length_extendedBody (hlong : 9 ≤ l) : (extendedBody l pol data list s).length = l - 1 := by
  rw [extendedBody, List.length_append, hdata, List.length_map, List.length_range]
  omega

/-- The body's byte from index 8 on is its pad byte. -/
theorem getElem?_extendedBody {i : Nat} (h8 : 8 ≤ i) (hi : i < l - 1) :
    (extendedBody l pol data list s)[i]? = some (padByteAt pol data list s (i - 8)) := by
  rw [extendedBody, List.getElem?_append_right (by omega), hdata, List.getElem?_map, List.getElem?_range (by omega)]
  rfl

/-- Byte i repeats byte i mod 8 of the body. -/
theorem getElem?_extendedBody_repeatData {i : Nat} (h8 : 8 ≤ i) (hi : i < l - 1) :
    (extendedBody l .repeatData data list s)[i]? = (extendedBody l .repeatData data list s)[i % 8]? := by
  have hmod : i % 8 < data.length := by omega
  rw [getElem?_extendedBody hdata h8 hi, padByteAt, Nat.sub_add_cancel h8, some_getD_of_lt hmod, extendedBody,
    List.getElem?_append_left hmod]

/-- Byte i cycles through the custom list, of which the body needs no more than is given. -/
theorem getElem?_extendedBody_custom (hpos : 1 ≤ s.bbLen.toNat) (hlength : list.length = min s.bbLen.toNat (l - 9))
    {i : Nat} (h8 : 8 ≤ i) (hi : i < l - 1) :
    (extendedBody l .custom data list s)[i]? = list[(i - 8) % s.bbLen.toNat]? := by
  have hcycle := Nat.mod_lt (i - 8) hpos
  have hindex := Nat.mod_le (i - 8) s.bbLen.toNat
  rw [getElem?_extendedBody hdata h8 hi, padByteAt, some_getD_of_lt (by omega)]

end

/-- Settles O39: the run's commit by `runEncAx_of_checks`, its buffers by `frameCommit_buffers`, its pad bytes by the
policy. -/
theorem extendedFrame : Obligations.ExtendedFrame := by
  rintro s l pol df de list praw fl ex rfl rfl rfl hv hlong hfb hsb hfin hcustom
  have hdata := length_dataBytesA df de (f64 (pressureWord s)) s
  rw [exec_eq_conclude, runOf, runEncAx_of_checks df de rfl hlong hfb hsb hfin hcustom, conclude_ok]
  generalize hbody : extendedBody l pol (dataBytesA df de (f64 (pressureWord s)) s) list s = body
  have hlen : body.length = l - 1 := hbody ▸ length_extendedBody hdata hlong
  have hframe : (sealA body).length = l := by
    rw [length_sealA, hlen]
    omega
  have hstream : (streamA s.cfg (sealA body)).length = 32 + 16 * l := by rw [length_streamA, hframe]
  have hbuffers := frameCommit_buffers (s.usedCrc 0x07) (sealA body) (streamA s.cfg (sealA body))
  rw [frameCommit_finish, hframe, hstream]
  rw [hframe, hstream] at hbuffers
  refine ⟨_, body, sealA body, rfl, rfl, toNat_length (by omega), toNat_length (by omega), fillCache_poly _ _, hlen,
    rfl, ?_, fun i h8 hi => ?_, hbuffers⟩
  · rw [← hbody, extendedBody, List.take_left' hdata]
    rfl
  · rw [← hbody]
    cases pol with
    | repeatData => exact getElem?_extendedBody_repeatData hdata h8 hi
    | zero => exact getElem?_extendedBody hdata h8 hi
    | random => exact getElem?_extendedBody hdata h8 hi
    | custom =>
      obtain ⟨hpos, -, hlength, -⟩ := hcustom rfl
      exact getElem?_extendedBody_custom hdata hpos hlength h8 hi

/-- Settles O40: the checks in the model's order, each failing where those before it pass. -/
theorem extendedFrameErrorOrder : Obligations.ExtendedFrameErrorOrder := by
  intro s l pol df de
  rw [exec_eq_conclude, runOf]
  refine ⟨fun hpol hcap => ?_, fun hlist => ⟨fun hshort => ?_, fun hlong hpol hempty => ?_,
    fun hlong hne => ⟨fun hnan => ?_, fun hfin hroom => ?_⟩⟩⟩
  · rw [runEncAx, check_of_not (by simp [hpol, hcap])]
    exact endsInError_of_fail _ _ s
  · rw [runEncAx, check_of (imp_iff_not_or.1 hlist), ok_bind, check_of_not (Nat.not_le.2 hshort)]
    exact endsInError_of_fail _ _ s
  · rw [runEncAx, check_of (imp_iff_not_or.1 hlist), ok_bind, check_of hlong, ok_bind,
      check_of_not (by simp [hpol, hempty])]
    exact endsInError_of_fail _ _ s
  · rw [runEncAx_of_operands df de hlist hlong hne, pressure_of_not_finite hnan]
    exact endsInError_of_fail _ _ s
  · rw [runEncAx_of_operands df de hlist hlong hne, pressure_of_finite hfin, ok_bind]
    by_cases hfb : l ≤ s.cfg.fbCap
    · rw [roomFor_of_le hfb, ok_bind, roomFor_of_lt (hroom.resolve_left (Nat.not_lt.2 hfb))]
      exact endsInError_of_fail _ _ s
    · rw [roomFor_of_lt (Nat.not_le.1 hfb)]
      exact endsInError_of_fail _ _ s

/-- No pad bytes are asked for and none are read. -/
theorem padBytes_zero (pol : PadPolicy) (data : List Byte) (s : State) : padBytes pol data 0 s = .ok [] := by
  cases pol with
  | custom => rw [padBytes, Nat.min_zero]; rfl
  | _ => rfl

/-- Settles O41: both commands check the pressure alike, and with no pad byte the frames are the same. -/
theorem nineByteExtendedFrameIsVariantA : Obligations.NineByteExtendedFrameIsVariantA := by
  intro s pol df de hv hlist
  have hrun : runEncAx 9 pol df de s = runEncA df de s := by
    rw [runEncAx_of_operands df de (fun h => (hlist h).2) (Nat.le_refl 9) (fun h => Nat.ne_of_gt (hlist h).1),
      roomFor_of_le (by omega), roomFor_of_le (by omega)]
    simp only [ok_bind, Nat.sub_self, padBytes_zero, List.append_nil]
    rfl
  rw [exec_eq_conclude, exec_eq_conclude, runOf, runOf, hrun]

/-! ## Fitting -/

/-- Fitting the entries that are kept cuts nothing more: it appends pad symbols up to the target (R217). -/
theorem fitTo_of_length {kept : List Byte} {n target : Nat} (h : kept.length = min n target) (ps : Byte) :
    fitTo kept target ps = kept ++ List.replicate (target - n) ps := by
  unfold fitTo
  split
  · rw [List.take_of_length_le (by omega), Nat.sub_eq_zero_of_le (by omega), List.replicate_zero, List.append_nil]
  · rw [show target - kept.length = target - n by omega]

/-- Settles O44: a length fails its check, or the entries kept are read and fitted by `fitTo_of_length`. -/
theorem fitInPlace : Obligations.FitInPlace := by
  intro s ps kept hv
  rw [exec_eq_conclude, runOf, runFit]
  refine ⟨fun hcap => ?_, fun hcap => ?_, fun hin hout hlen hholds => ?_⟩
  · rw [lengthIn_of_lt hcap]
    rfl
  · rw [lengthIn_of_lt hcap]
    cases hn : lengthIn s.sbLen s.cfg.sbCap with
    | ok n => rfl
    | error x =>
      obtain ⟨-, rfl⟩ := lengthIn_error.1 hn
      rfl
  · rw [lengthIn_of_le hin, ok_bind, lengthIn_of_le hout, ok_bind, ← hlen, Store.window_of_holds hholds,
      needAll_map_some, ok_bind, pure_eq_ok, conclude_ok]
    have hlength := length_fitTo kept s.fitLen.toNat (symbolOf ps)
    have hsame := Store.sameFrom_blit (fitTo kept s.fitLen.toNat (symbolOf ps)) s.mem.sb
    rw [hlength] at hsame
    refine ⟨_, rfl, ?_, ?_, hsame⟩
    · rw [State.finish, State.putSymbols, hlength, BitVec.ofNat_toNat, BitVec.setWidth_eq]
      rfl
    · exact fitTo_of_length hlen (symbolOf ps) ▸ Store.holds_blit _ _

end Sys2Proof.Machine

/-! Frame fields that wrap (R199, R282): another TEMP or SENSOR_ID with the same low bits builds the same frame. -/

namespace Sys2Proof.Machine

/-! ## Outcomes under an update of a register -/

/-- A commit with what it leaves updated. -/
def Commit.mapOut (u : State → State) (c : Commit) : Commit := { c with out := u c.out }

/-- Exec answers alike under the update u of the state: the same fault, or the same next state updated. -/
def ExecCommutes (u : State → State) (i : Instr) (s : State) : Prop :=
  (∀ t, exec i s = .next t → exec i (u s) = .next (u t)) ∧ (∀ f, exec i s = .fault f → exec i (u s) = .fault f)

/-- It does where the run does, if the update keeps clear of STATUS and ENG. -/
theorem execCommutes_of_run {u : State → State} {i : Instr} {s : State} (hfail : ∀ t e, (u t).fail e = u (t.fail e))
    (hfinish : ∀ t d, (u t).finish d = u (t.finish d)) (hrun : runOf i (u s) = (runOf i s).map (Commit.mapOut u)) :
    ExecCommutes u i s := by
  simp only [ExecCommutes, exec_eq_conclude, hrun]
  refine ⟨fun t h => ?_, fun f h => ?_⟩
  · rcases conclude_next.1 h with ⟨c, hc, rfl⟩ | ⟨e, he, rfl⟩
    · rw [hc]
      exact congrArg Host.Outcome.next (hfinish c.out c.desync)
    · rw [he]
      exact congrArg Host.Outcome.next (hfail s e)
  · rw [conclude_fault.1 h]
    rfl

/-! ## Integers modulo 256 -/

theorem sext32_emod (w : Word) : sext32 w % 256 = (w.toNat % 256 : Nat) := by
  rw [sext32, BitVec.toInt_eq_toNat_cond]
  split <;> omega

/-- u8 sees an integer modulo 256 (R7). -/
theorem u8_eq_of_emod {a b : Int} (h : a % 256 = b % 256) : u8 a = u8 b := by
  apply BitVec.eq_of_toNat_eq
  rw [u8, u8, BitVec.toNat_ofInt, BitVec.toNat_ofInt]
  exact congrArg Int.toNat h

/-- Halving loses the top bit of the eight. -/
theorem u8_asr_one_and_eq_of_emod {a b : Int} (h : a % 256 = b % 256) :
    u8 (asr a 1) &&& 0x7F = u8 (asr b 1) &&& 0x7F := by
  have hmod : ∀ c : Int, (u8 (asr c 1) &&& 0x7F).toNat = (c % 256 / 2).toNat := by
    intro c
    rw [BitVec.toNat_and, u8, BitVec.toNat_ofInt]
    refine (Nat.and_two_pow_sub_one_eq_mod _ 7).trans ?_
    simp only [asr]
    omega
  apply BitVec.eq_of_toNat_eq
  rw [hmod, hmod, h]

/-! ## TEMP -/

/-- The state with another TEMP. -/
def State.withTemp (w : Word) (s : State) : State := { s with temp := w }

section
variable {w : Word} {s : State} (h : w.toNat % 256 = s.temp.toNat % 256)
include h

theorem sext32_add_emod (k : Int) : (sext32 w + k) % 256 = (sext32 s.temp + k) % 256 := by
  have hw := sext32_emod w
  have hs := sext32_emod s.temp
  omega

theorem dataBytesA_withTemp (df de : Bool) (p : Ratio) :
    dataBytesA df de p (s.withTemp w) = dataBytesA df de p s := by
  have ht : u8 (sext32 (s.withTemp w).temp + 30) = u8 (sext32 s.temp + 30) := u8_eq_of_emod (sext32_add_emod h 30)
  rw [dataBytesA, dataA, ht]
  rfl

theorem dataB_withTemp (praw : Int) (fl unk : Byte) : dataB praw fl unk (s.withTemp w) = dataB praw fl unk s := by
  have ht : u8 (sext32 (s.withTemp w).temp + 50) = u8 (sext32 s.temp + 50) := u8_eq_of_emod (sext32_add_emod h 50)
  rw [dataB, ht]
  rfl

theorem dataC_withTemp (praw : Int) (status : Byte) :
    dataC praw (sext32 (s.withTemp w).temp + 40) status (s.withTemp w) =
      dataC praw (sext32 s.temp + 40) status s := by
  have ht : (sext32 (s.withTemp w).temp + 40) % 256 = (sext32 s.temp + 40) % 256 := sext32_add_emod h 40
  rw [dataC, u8_eq_of_emod ht, u8_asr_one_and_eq_of_emod ht]
  rfl

/-- A frame command reads TEMP in its data bytes only, and there modulo 256. -/
theorem runOf_withTemp {i : Instr} (hi : writesFrame i = true) :
    runOf i (s.withTemp w) = (runOf i s).map (Commit.mapOut (State.withTemp w)) := by
  cases i with
  | encA df de => simp only [runOf, runEncA, dataBytesA_withTemp h, except_map_bind, except_map_pure]; rfl
  | encB df de => simp only [runOf, runEncB, dataB_withTemp h, except_map_bind, except_map_pure]; rfl
  | encC => simp only [runOf, runEncC, dataC_withTemp h, except_map_bind, except_map_pure]; rfl
  | encAx l pol df de => simp only [runOf, runEncAx, dataBytesA_withTemp h, except_map_bind, except_map_pure]; rfl
  | _ => cases hi

end

/-! ## SENSOR_ID -/

/-- The state with another SENSOR_ID. -/
def State.withSensorId (w : Word) (s : State) : State := { s with sensorId := w }

/-- A byte below bit 24 is a byte of the low 24 bits. -/
theorem extractLsb'_low24 (w : Word) {i : Nat} (hi : i ≤ 16) :
    w.extractLsb' i 8 = (w.extractLsb' 0 24).extractLsb' i 8 := by
  ext j hj
  simp only [BitVec.getElem_extractLsb', BitVec.getLsbD_extractLsb', Nat.zero_add]
  simp only [show i + j < 24 by omega, decide_true, Bool.true_and]

/-- Only the random policy reads SENSOR_ID (R213). -/
theorem padBytes_withSensorId {pol : PadPolicy} (hpol : pol ≠ .random) (data : List Byte) (n : Nat) (w : Word)
    (s : State) : padBytes pol data n (s.withSensorId w) = padBytes pol data n s := by
  cases pol with
  | random => exact absurd rfl hpol
  | _ => rfl

section
variable {w : Word} {s : State} (h : w.extractLsb' 0 24 = s.sensorId.extractLsb' 0 24)
include h

theorem dataBytesA_withSensorId (df de : Bool) (p : Ratio) :
    dataBytesA df de p (s.withSensorId w) = dataBytesA df de p s := by
  have hbyte : ∀ i ≤ 16, (s.withSensorId w).sensorId.extractLsb' i 8 = s.sensorId.extractLsb' i 8 := by
    intro i hi
    rw [extractLsb'_low24 _ hi, extractLsb'_low24 s.sensorId hi, ← h]
    rfl
  rw [dataBytesA, dataA, hbyte 0 (by omega), hbyte 8 (by omega), hbyte 16 (by omega)]
  rfl

theorem runEncA_withSensorId (df de : Bool) :
    runEncA df de (s.withSensorId w) = (runEncA df de s).map (Commit.mapOut (State.withSensorId w)) := by
  simp only [runEncA, dataBytesA_withSensorId h, except_map_bind, except_map_pure]
  rfl

theorem runEncAx_withSensorId (l : Nat) {pol : PadPolicy} (hpol : pol ≠ .random) (df de : Bool) :
    runEncAx l pol df de (s.withSensorId w) =
      (runEncAx l pol df de s).map (Commit.mapOut (State.withSensorId w)) := by
  simp only [runEncAx, dataBytesA_withSensorId h, padBytes_withSensorId hpol, except_map_bind, except_map_pure]
  rfl

end

/-- Settles O43: the three runs complete, and each run commutes with the update of TEMP and of SENSOR_ID. -/
theorem frameFieldsWrapSilently : Obligations.FrameFieldsWrapSilently := by
  intro s temp' sid'
  refine ⟨fun hfin df de i hi => ?_, fun htemp i hi => ?_, fun hsid df de l pol i hi => ?_⟩
  · rw [exec_eq_conclude]
    rcases hi with rfl | rfl | rfl
    · rw [runOf, runEncA_of_finite df de hfin]
      exact ⟨_, rfl, rfl⟩
    · rw [runOf, runEncB_of_finite df de hfin]
      exact ⟨_, rfl, rfl⟩
    · rw [runOf, runEncC_of_finite hfin]
      exact ⟨_, rfl, rfl⟩
  · exact execCommutes_of_run (u := State.withTemp temp') (fun _ _ => rfl) (fun _ _ => rfl) (runOf_withTemp htemp hi)
  · refine execCommutes_of_run (u := State.withSensorId sid') (fun _ _ => rfl) (fun _ _ => rfl) ?_
    rcases hi with rfl | ⟨rfl, hpol⟩
    · exact runEncA_withSensorId hsid df de
    · exact runEncAx_withSensorId hsid l hpol df de

end Sys2Proof.Machine

/-! FSK_GEN (R240 to R246): the counts, the tones, and what the command's run answers and leaves in QB. -/

namespace Sys2Proof.Machine

/-! ## Counts and tones -/

/-- Settles O45: eight closed roundings, evaluated. -/
theorem sampleCountTable : Obligations.SampleCountTable := by
  unfold Obligations.SampleCountTable
  decide

/-- Settles O46: the exponent is imaginary, and 0 at the start of a segment. -/
theorem tonesHaveUnitModulus : Obligations.TonesHaveUnitModulus := by
  rintro fs t c rfl
  have hreal : (2 * Real.pi * t.freq * t.k / fs : ℂ) = ((2 * Real.pi * t.freq * t.k / fs : ℝ) : ℂ) := by
    push_cast
    rfl
  refine ⟨?_, fun hk => ?_⟩
  · rw [hreal, Complex.norm_exp_I_mul_ofReal]
  · simp [hk]

/-! ## The entries of QB -/

/-- SAMPLE_Q(0) = (0, 0) (R5). -/
theorem sampleQ_zero : Config.sampleQ (fun c => c = 0) = (0, 0) := by simp [Config.sampleQ]

section
variable {fs : Nat} {x : List ToneSample} {npad i : Nat}

/-- Entry i below N is SAMPLE_Q of y[i] (R244). -/
theorem getElem?_iqWords_of_lt (hi : i < x.length) :
    (iqWords fs x npad)[i]? = some (Config.sampleQ (isShaped fs x i)) := by
  simp [iqWords, List.getElem?_append, hi]

/-- The entries from N on are zeros (R244). -/
theorem getElem?_iqWords_of_ge (hx : x.length ≤ i) (hi : i < x.length + npad) :
    (iqWords fs x npad)[i]? = some (0, 0) := by
  rw [iqWords, List.getElem?_append_right (by simpa using hx), sampleQ_zero, List.getElem?_replicate_of_lt]
  simp only [List.length_map, List.length_range]
  omega

end

/-- A pair list written over a buffer's halves stands there pair by pair. -/
theorem get_blit_halves {zs : List (Word × Word)} {i : Nat} {z : Word × Word} (h : zs[i]? = some z) (m : Store 32) :
    Store.get (2 * i) (Store.blit (halves zs) m) = some z.1 ∧
      Store.get (2 * i + 1) (Store.blit (halves zs) m) = some z.2 := by
  obtain ⟨hfirst, hsecond⟩ := getElem_halves h
  rw [Store.holds_blit _ m _ (List.getElem?_eq_some_iff.1 hfirst).1,
    Store.holds_blit _ m _ (List.getElem?_eq_some_iff.1 hsecond).1]
  exact ⟨hfirst, hsecond⟩

/-! ## The run -/

/-- The entries FSK_GEN writes to QB for the pairs ps (R240 to R244). -/
def fskEntries (s : State) (ps : List (Nat × Nat)) : List (Word × Word) :=
  iqWords s.fsHz.toNat (unshaped (sext32 s.markHz) (sext32 s.spaceHz) (countOf s.fsHz s.symUs) ps)
    (countOf s.fsHz s.padUs)

@[simp] theorem length_fskEntries (s : State) (ps : List (Nat × Nat)) :
    (fskEntries s ps).length = countOf s.fsHz s.symUs * totalWidth ps + countOf s.fsHz s.padUs := by
  simp [fskEntries]

/-- The last NPAD entries are zeros (R244, R246). -/
theorem getElem?_fskEntries_tail {s : State} {ps : List (Nat × Nat)} {i : Nat}
    (htail : countOf s.fsHz s.symUs * totalWidth ps ≤ i) (hi : i < (fskEntries s ps).length) :
    (fskEntries s ps)[i]? = some (0, 0) := by
  rw [length_fskEntries] at hi
  exact getElem?_iqWords_of_ge (by rwa [length_unshaped]) (by rwa [length_unshaped])

/-- FSK_GEN past its input checks: it has only the room in QB left to check (R245). -/
theorem runFskGen_of_pairs {s : State} {ps : List (Nat × Nat)} (hcap : s.pbLen.toNat ≤ s.cfg.pbCap)
    (hfs : s.fsHz.toNat ≠ 0) (hps : pulsePairs s s.pbLen.toNat = .ok ps) :
    runFskGen s = roomFor (fskEntries s ps).length s.cfg.qbCap >>= fun _ =>
      .ok { out := s.putSamples (fskEntries s ps), desync := false } := by
  rw [runFskGen, lengthIn_of_le hcap, ok_bind, check_of hfs, ok_bind, hps, ok_bind, length_fskEntries]
  rfl

/-- FSK_GEN completes where no check fails (R245). -/
theorem exec_fskGen_of_pairs {s : State} {ps : List (Nat × Nat)} (hcap : s.pbLen.toNat ≤ s.cfg.pbCap)
    (hfs : s.fsHz.toNat ≠ 0) (hps : pulsePairs s s.pbLen.toNat = .ok ps)
    (hroom : (fskEntries s ps).length ≤ s.cfg.qbCap) :
    exec .fskGen s = .next ((s.putSamples (fskEntries s ps)).finish false) := by
  rw [exec_eq_conclude, runOf, runFskGen_of_pairs hcap hfs hps, roomFor_of_le hroom, ok_bind, conclude_ok]

/-- Where FSK_GEN ended without error, no check failed. -/
theorem exec_fskGen_ok {s t : State} (h : exec .fskGen s = .next t) (hok : t.status.err = false) :
    ∃ ps, s.pbLen.toNat ≤ s.cfg.pbCap ∧ s.fsHz.toNat ≠ 0 ∧ pulsePairs s s.pbLen.toNat = .ok ps ∧
      (fskEntries s ps).length ≤ s.cfg.qbCap ∧ t = (s.putSamples (fskEntries s ps)).finish false := by
  rw [exec_eq_conclude, conclude_next] at h
  rcases h with ⟨c, hc, rfl⟩ | ⟨e, -, rfl⟩
  · obtain ⟨hcap, hfs, ps, hps, hroom, rfl⟩ := runFskGen_ok hc
    exact ⟨ps, hcap, hfs, hps, by rwa [length_fskEntries], rfl⟩
  · cases hok

/-- QB_LEN holds the number of entries where they fit QB. -/
theorem toNat_qbLen_putSamples {s : State} {zs : List (Word × Word)} (hv : s.cfg.Valid)
    (hroom : zs.length ≤ s.cfg.qbCap) : (s.putSamples zs).qbLen.toNat = zs.length :=
  toNat_length (by omega)

/-! ## The command -/

/-- x for the pairs as PB holds them: the mark segment, then the space segment (R242). -/
theorem unshaped_pairWidths (mark space : Word) (sps : Nat) (ps : List (Word × Word)) :
    unshaped (sext32 mark) (sext32 space) sps (pairWidths ps) =
      ps.flatMap fun p =>
        (List.range (p.1.toNat * sps)).map (ToneSample.mk mark.toInt) ++
        (List.range (p.2.toNat * sps)).map (ToneSample.mk space.toInt) := by
  rw [unshaped, pairWidths, List.flatMap_map]
  rfl

/-- Settles O48: the checks in the model's order, then the entries of `fskEntries` by index. -/
theorem fskSynthesis : Obligations.FskSynthesis := by
  intro s ps sps npad n hv hsps hnpad hn
  obtain rfl : countOf s.fsHz s.symUs = sps := hsps.symm
  obtain rfl : countOf s.fsHz s.padUs = npad := hnpad.symm
  rw [← totalWidth_pairWidths] at hn
  have hlength : (fskEntries s (pairWidths ps)).length = n + countOf s.fsHz s.padUs := by rw [length_fskEntries, hn]
  have hrate (hfs : s.fsHz ≠ 0) : s.fsHz.toNat ≠ 0 := fun h => hfs (BitVec.eq_of_toNat_eq h)
  have hpairs (hlen : s.pbLen.toNat = ps.length) (hholds : Store.Holds s.mem.pb (halves ps)) :
      pulsePairs s s.pbLen.toNat = .ok (pairWidths ps) := hlen ▸ pulsePairs_of_holds hholds
  refine ⟨fun hcap => ?_, fun hcap hfs => ?_, fun hcap hfs hlen hholds hlong => ?_,
    fun hcap hfs hlen hholds hfit => ?_⟩
  · rw [exec_eq_conclude, runOf, runFskGen, lengthIn_of_lt hcap]
    rfl
  · rw [exec_eq_conclude, runOf, runFskGen, lengthIn_of_le hcap, ok_bind, check_of_not (by simp [hfs])]
    rfl
  · rw [exec_eq_conclude, runOf, runFskGen_of_pairs hcap (hrate hfs) (hpairs hlen hholds),
      roomFor_of_lt (hlength ▸ hlong)]
    rfl
  · have hroom := hlength ▸ hfit
    have hsame := Store.sameFrom_blit (halves (fskEntries s (pairWidths ps))) s.mem.qb
    rw [length_halves, hlength] at hsame
    refine ⟨_, unshaped (sext32 s.markHz) (sext32 s.spaceHz) (countOf s.fsHz s.symUs) (pairWidths ps),
      exec_fskGen_of_pairs hcap (hrate hfs) (hpairs hlen hholds) hroom, rfl,
      (toNat_qbLen_putSamples hv hroom).trans hlength, unshaped_pairWidths _ _ _ _,
      fun i hi => ?_, fun i hi hlast => ?_, hsame⟩
    · exact get_blit_halves (getElem?_iqWords_of_lt (by rwa [length_unshaped, ← hn])) _
    · exact get_blit_halves (getElem?_fskEntries_tail (hn ▸ hi) (hlength ▸ hlast)) _

/-- The state with another MARK_HZ and SPACE_HZ. -/
def State.withTones (mark space : Word) (s : State) : State := { s with markHz := mark, spaceHz := space }

/-- The number of entries does not depend on the tones (R246). -/
theorem length_fskEntries_withTones (mark space : Word) (s : State) (ps : List (Nat × Nat)) :
    (fskEntries (s.withTones mark space) ps).length = (fskEntries s ps).length :=
  (length_fskEntries _ ps).trans (length_fskEntries s ps).symm

/-- Settles O49: the length and the tail are those of `fskEntries`, and with other tones the same checks pass. -/
theorem fskLengthLaw : Obligations.FskLengthLaw := by
  intro s t mark space hv h hok
  obtain ⟨ps, hcap, hfs, hps, hroom, rfl⟩ := exec_fskGen_ok h hok
  have hlen : ((s.putSamples (fskEntries s ps)).finish false).qbLen.toNat = (fskEntries s ps).length :=
    toNat_qbLen_putSamples hv hroom
  have hsame := length_fskEntries_withTones mark space s ps
  refine ⟨⟨ps, hps, hlen.trans (length_fskEntries s ps)⟩, fun i hi hlast => ?_,
    _, exec_fskGen_of_pairs (s := s.withTones mark space) hcap hfs hps (hsame.trans_le hroom), rfl,
    congrArg (BitVec.ofNat 32) hsame⟩
  rw [hlen] at hi hlast
  rw [length_fskEntries] at hi
  exact get_blit_halves (getElem?_fskEntries_tail (by omega) hlast) _

end Sys2Proof.Machine

/-! What ends in error: a word no row matches (R274), and a command that fails (R272, R273). -/

namespace Sys2Proof.Machine

/-! ## Words no row matches -/

/-- A row is known by its OP (R93). -/
theorem row_eq_of_opField {r q : OpcodeRow} (hr : r ∈ opcodeRows) (hq : q ∈ opcodeRows)
    (h : opField r.pattern = opField q.pattern) : r = q := by
  have hdistinct : ∀ r ∈ opcodeRows, ∀ q ∈ opcodeRows, opField r.pattern = opField q.pattern → r = q := by decide
  exact hdistinct r hr q hq h

/-- Only the row with the word's OP can match it, so no row does where there is none or where that one differs in a bit
its mask covers (R95). -/
theorem no_row_matches_iff (w : Word) :
    (∀ r ∈ opcodeRows, w &&& r.mask ≠ r.pattern) ↔
      (∀ r ∈ opcodeRows, opField r.pattern ≠ opField w) ∨
        ∃ r ∈ opcodeRows, opField r.pattern = opField w ∧ w &&& r.mask ≠ r.pattern := by
  constructor
  · intro hnone
    by_cases hop : ∃ r ∈ opcodeRows, opField r.pattern = opField w
    · obtain ⟨r, hr, hrw⟩ := hop
      exact .inr ⟨r, hr, hrw, hnone r hr⟩
    · exact .inl fun r hr hrw => hop ⟨r, hr, hrw⟩
  · rintro (hop | ⟨r, hr, hrw, hdiffers⟩) q hq hmatch
    · exact hop q hq (opField_of_match hq hmatch).symm
    · have hqr : q = r := row_eq_of_opField hq hr ((opField_of_match hq hmatch).symm.trans hrw.symm)
      exact hdiffers (hqr ▸ hmatch)

/-- A rejected word's turn is the error ILLEGAL_COMMAND, whatever the reason (R274). -/
theorem engineTurn_of_error {w : Word} {e : Reject} (h : decode w = .error e) (s : State) :
    engineTurn w s = .next (endedBadly .illegalCommand s) := by
  simp only [engineTurn, h, fail_eq_endedBadly]

/-- Settles O6: the completing step is the turn of a rejected word, by `engineTurn_of_error`; which words no row matches
is `no_row_matches_iff`, and the rule's examples are evaluated. -/
theorem illegalWordEndsInIllegalCommand : Obligations.IllegalWordEndsInIllegalCommand := by
  refine ⟨fun s w heng hlag hnone => ?_, no_row_matches_iff,
    fun w r hr q hq hwr hwq => row_unique hr hq hwr hwq, by decide⟩
  obtain ⟨e, he⟩ := decode_error_of_no_row hnone
  exact (step_complete heng hlag).trans (engineTurn_of_error he s)

/-! ## Commands that fail -/

/-- Settles O50: a command that completes leaves ERR clear; one that fails leaves `endedBadly` of its stop's code, which
is not NONE by `runOf_stops`. -/
theorem errorsAreAllOrNothing : Obligations.ErrorsAreAllOrNothing := by
  intro i s t h herr
  rcases exec_next h with ⟨c, -, rfl⟩ | ⟨e, hrun, rfl⟩
  · rw [State.finish_status, Status.succeeded_err] at herr
    exact absurd herr Bool.false_ne_true
  · exact ⟨e, runOf_stops i s _ hrun, fail_eq_endedBadly e s⟩

end Sys2Proof.Machine

/-! Reset (R300 to R302), and the host's accesses while the engine is busy (R307). -/

namespace Sys2Proof.Machine

/-! ## Accesses while busy -/

/-- The flags of a busy engine are those acceptance left, but for OVR (R24, R307). -/
theorem FlagsOk.eq_of_busy {f : Status} (h : FlagsOk true f) :
    f = { done := false, desync := false, err := false, ovr := f.ovr, ecode := .none } := by
  have hdone : f.done = false := h.busyClear rfl
  have hclear : (f.err || f.desync) = false :=
    Bool.eq_false_iff.2 fun hset => Bool.eq_false_iff.1 hdone (h.setWithDone hset)
  obtain ⟨herr, hdesync⟩ := Bool.or_eq_false_iff.1 hclear
  have hecode : f.ecode = .none := by
    by_contra hcode
    exact Bool.eq_false_iff.1 herr (h.errCode.2 hcode)
  cases f
  rw [Status.mk.injEq]
  exact ⟨hdone, hdesync, herr, rfl, hecode⟩

/-- The STATUS word of a busy engine: BUSY, and OVR where it is set (R307). -/
theorem Inv.statusReg_of_busy {s : State} (h : Inv s) (hbusy : s.eng.isBusy = true) :
    s.statusReg = if s.status.ovr then 0x00000011 else 0x00000001 := by
  obtain ⟨-, hflags⟩ := (inv_iff s).1 h
  rw [hbusy] at hflags
  rw [State.statusReg, hbusy, hflags.eq_of_busy]
  cases s.status.ovr <;> decide

/-- An aligned 4-byte access at a mapped address reaches a location (R62). -/
theorem exists_locate_of_mapped {c : Config} (hv : c.Valid) {a : Addr} (halign : a.toNat % 4 = 0)
    (hmapped : Mapped c a.toNat) : ∃ l, locate c a 4 = some l := by
  rw [← Option.ne_none_iff_exists', Ne, locate_eq_none_iff hv]
  simp [halign, hmapped]

/-- An access at another address than 4 does not reach STATUS (R22). -/
theorem locate_ne_status {c : Config} {a : Addr} {size : Nat} {l : Loc} (h : locate c a size = some l)
    (ha : a ≠ 0x000004) : l ≠ .reg .STATUS := by
  rintro rfl
  obtain ⟨-, -, haddr⟩ := locate_address h
  exact ha (BitVec.eq_of_toNat_eq haddr)

/-- A read while busy of another location than STATUS draws a value (R307). -/
theorem memRead_of_busy {s : State} {a : Addr} {size : Nat} {l : Loc} (hl : locate s.cfg a size = some l)
    (hr : l.readable = true) (hbusy : s.eng.isBusy = true) (hstatus : l ≠ .reg .STATUS) :
    memRead a size s = .ok s.draw := by
  simp only [memRead, hl, hr, if_true, if_pos (And.intro hbusy hstatus)]

/-- Settles O14: a STATUS read by `memRead_status` and the flags of a busy engine, the other accesses by
`memRead_of_busy` and `memWrite_of_busy`; which accesses err does not depend on ENG. -/
theorem accessesWhileBusy : Obligations.AccessesWhileBusy := by
  intro s w a size v hinv heng
  have hbusy : s.eng.isBusy = true := by rw [heng, Engine.isBusy_busy]
  refine ⟨?_, fun halign hmapped hcmd hstatus => ?_, fun halign hmapped hwritable => ?_,
    fun f hf => memRead_error_iff.2 ((memRead_error_iff (s := { s with eng := .idle })).1 hf),
    fun f hf => memWrite_error_iff.2 ((memWrite_error_iff (s := { s with eng := .idle })).1 hf)⟩
  · rw [memRead_status, hinv.statusReg_of_busy hbusy]
  · obtain ⟨l, hl⟩ := exists_locate_of_mapped hinv.cfgValid halign hmapped
    have hr : l.readable = true := by
      rw [← Bool.not_eq_false, readable_eq_false_iff hl]
      exact fun h0 => hcmd (BitVec.eq_of_toNat_eq h0)
    exact ⟨_, memRead_of_busy hl hr hbusy (locate_ne_status hl hstatus)⟩
  · obtain ⟨l, hl⟩ := exists_locate_of_mapped hinv.cfgValid halign hmapped
    have hw : l.writable = true := by
      rwa [← Bool.not_eq_false, writable_eq_false_iff hinv.cfgValid hl]
    exact memWrite_of_busy v hl hw hbusy

/-! ## Reset -/

/-- Every register of the map is 0 after reset, CMD and STATUS included (R301). -/
theorem readReg_resetWith (c : Config) (r : Reg) : (State.resetWith c).readReg r = 0 := by
  cases r with
  | STATUS =>
    show statusWord false { done := false, desync := false, err := false, ovr := false, ecode := .none } = 0
    decide
  | _ => rfl

/-- Every written mark is clear after reset (R302). -/
theorem readEntry_resetWith (c : Config) (b : Buffer) (i : Nat) : (State.resetWith c).mem.readEntry b i = none := by
  cases b <;> rfl

/-- Settles O9: the registers by `readReg_resetWith`, the buffers by `readEntry_resetWith`; ENG and CACHE are fields. -/
theorem resetClearsEverything : Obligations.ResetClearsEverything :=
  ⟨rfl, fun c => ⟨readReg_resetWith c, rfl, rfl, readEntry_resetWith c⟩⟩

/-- The host's turn on the reset line (R300). -/
theorem hostTurn_reset {s : State} {rest : List HostOp} (h : s.host = .reset :: rest) :
    hostTurn s = .next { s.powerOn with host := rest } := by
  simp only [hostTurn, h]

/-- Settles O10: the step is the host's turn, by `step_idle` or `step_waiting`; the count of turns that busy lowers first
is among what the reset line clears. -/
theorem resetAbandonsTheCommand : Obligations.ResetAbandonsTheCommand := by
  intro s rest hhost hturn
  cases heng : s.eng with
  | idle => exact (step_idle heng).trans (hostTurn_reset hhost)
  | busy w =>
    have hlag : s.lag ≠ 0 := hturn.resolve_left (by simp [heng])
    obtain ⟨n, hn⟩ := Nat.exists_eq_succ_of_ne_zero hlag
    exact (step_waiting heng hn).trans (hostTurn_reset (s := { s with lag := n }) hhost)

/-- The capacities of the reference configuration meet R5. -/
theorem valid_reference : Config.reference.Valid := by decide

/-- Settles O55: the reset state of a valid configuration has the invariant. -/
theorem invariantHoldsAtReset : Obligations.InvariantHoldsAtReset := inv_resetWith valid_reference

end Sys2Proof.Machine
